-- ==== Sys2Proof/Word.lean ====
section
/-! DEFINITION. The bit vectors the spec's registers and bytes are made of (00_scope.md R7, R13), and a bank
of eight like registers. -/
namespace Sys2Proof

/-- A 4-bit letter value of a Game Genie code (R215). -/
abbrev Nibble := BitVec 4

/-- A byte: of `IBUF` (R50), of a command (R70), of a 6502 instruction (R73). -/
abbrev Byte := BitVec 8

/-- A 16-bit value: a 6502 operand, a tile row, a Game Genie address, a PRNG state. -/
abbrev Half := BitVec 16

/-- A 32-bit offset, length, cursor or counter (R7), and the host's register data path (R51). -/
abbrev Word := BitVec 32

/-- Eight like registers: `CHR_ROW0..7` and `GG_CHAR0..7` (R24). -/
structure Bank8 (α : Type) where
  r0 : α
  r1 : α
  r2 : α
  r3 : α
  r4 : α
  r5 : α
  r6 : α
  r7 : α
deriving DecidableEq, Repr

/-- Register `i` of the bank. -/
def Bank8.get {α : Type} (b : Bank8 α) (i : Fin 8) : α :=
  match i with
  | 0 => b.r0
  | 1 => b.r1
  | 2 => b.r2
  | 3 => b.r3
  | 4 => b.r4
  | 5 => b.r5
  | 6 => b.r6
  | 7 => b.r7

/-- The bank with register `i` replaced. -/
def Bank8.set {α : Type} (b : Bank8 α) (i : Fin 8) (v : α) : Bank8 α :=
  match i with
  | 0 => { b with r0 := v }
  | 1 => { b with r1 := v }
  | 2 => { b with r2 := v }
  | 3 => { b with r3 := v }
  | 4 => { b with r4 := v }
  | 5 => { b with r5 := v }
  | 6 => { b with r6 := v }
  | 7 => { b with r7 := v }

/-- The bank whose register `i` is `f i`. -/
def Bank8.ofFn {α : Type} (f : Fin 8 → α) : Bank8 α :=
  { r0 := f 0, r1 := f 1, r2 := f 2, r3 := f 3, r4 := f 4, r5 := f 5, r6 := f 6, r7 := f 7 }

/-- The eight registers in order, register 0 first. -/
def Bank8.toList {α : Type} (b : Bank8 α) : List α :=
  [b.r0, b.r1, b.r2, b.r3, b.r4, b.r5, b.r6, b.r7]

end Sys2Proof
end

