-- ==== Sys2Proof/Config.lean ====
section
/-! DEFINITION. What an implementation of the block fixes (00_scope.md R6 to R12), and the one function the spec
leaves open. The numbers and the case switch are plain data that `State` carries and no step changes, so that a
statement about every state is a statement about every choice of them; the open function has no body. -/
namespace Sys2Proof

/-- Which PRNG transition an implementation has: the open parameter of R10, or the reference instance of R236, on
which the spec's test vectors run. -/
inductive PrngChoice where
  | parameter
  | reference
deriving DecidableEq, Repr

/-- The implementation parameters. -/
structure Config where
  /-- `BUF_SIZE`, the capacity of `IBUF` in bytes (R6). -/
  bufSize : Nat
  /-- `PRG_BANK_UNIT`, the bytes of one PRG bank (R8). -/
  prgBankUnit : Nat
  /-- `CHR_BANK_UNIT`, the bytes of one CHR bank (R8). -/
  chrBankUnit : Nat
  /-- `GRID_W`, the width in tiles of the CHR artifact image (R12). -/
  gridW : Nat
  /-- `GG_CASE_FOLD`, whether `GG_DECODE` takes lowercase letters (R11). -/
  ggCaseFold : Bool
  /-- The PRNG transition (R10, R236). -/
  prng : PrngChoice
deriving DecidableEq, Repr

/-- The bounds R6 sets on `BUF_SIZE`. -/
def Config.legal (c : Config) : Bool := decide (16 ≤ c.bufSize) && decide (c.bufSize ≤ 2 ^ 31)

/-- The spec's defaults (R8, R11, R12) with the open PRNG transition. `BUF_SIZE` has no default in the spec: the
largest value R6 allows stands here (log entry 1, DESIGN CHOICE). -/
def Config.standard : Config :=
  { bufSize := 2 ^ 31, prgBankUnit := 16384, chrBankUnit := 8192, gridW := 16, ggCaseFold := false
    prng := .parameter }

/-- `prng_step`, the OPEN transition parameter: a total function of the 16-bit state of which nothing else is
known (R10, R236). A free value: it has no body. -/
opaque Config.prngOpen : Half → Half

end Sys2Proof
end

