-- ==== Sys2Proof/Syntax.lean ====
section
/-! DEFINITION. The instructions, whole: the block's commands (30_encoding.md R70, R71) and the 6502 instructions
its `DIS` unit decodes (R73 to R80, 43_disasm_opcodes.md). The two are separate code spaces of one byte each. -/
namespace Sys2Proof

/-- The two code spaces of spec/opcode_table.json: a byte written to `CMD` (R70), or an opcode byte of the
PRG region (R73). The byte alone does not say which it is in. -/
inductive Space where
  | command
  | opcode
deriving DecidableEq, Repr

/-- The 13 addressing modes, in the spec's order (R74). -/
inductive Mode where
  /-- implied, no operand -/
  | imp
  /-- accumulator, no operand -/
  | acc
  /-- immediate `#$nn` -/
  | imm
  /-- zero-page `$nn` -/
  | zp
  /-- zero-page,X `$nn,X` -/
  | zpx
  /-- zero-page,Y `$nn,Y` -/
  | zpy
  /-- absolute `$nnnn` -/
  | abs
  /-- absolute,X `$nnnn,X` -/
  | absx
  /-- absolute,Y `$nnnn,Y` -/
  | absy
  /-- indirect `($nnnn)` -/
  | ind
  /-- indexed-indirect `($nn,X)` -/
  | indx
  /-- indirect-indexed `($nn),Y` -/
  | indy
  /-- relative: a signed displacement -/
  | rel
deriving DecidableEq, Repr

/-- The 56 mnemonics in alphabetical order, and the illegal-opcode marker (R76). -/
inductive Mnemonic where
  | adc | and | asl | bcc | bcs | beq | bit | bmi | bne | bpl | brk | bvc
  | bvs | clc | cld | cli | clv | cmp | cpx | cpy | dec | dex | dey | eor
  | inc | inx | iny | jmp | jsr | lda | ldx | ldy | lsr | nop | ora | pha
  | php | pla | plp | rol | ror | rti | rts | sbc | sec | sed | sei | sta
  | stx | sty | tax | tay | tsx | txa | txs | tya | illegal
deriving DecidableEq, Repr

/-- An instruction's operand: its addressing mode with the operand bytes the mode takes. A two-byte operand is
its little-endian value (R53, R75); a relative one is the raw displacement byte. -/
inductive Operand where
  | imp
  | acc
  | imm (b : Byte)
  | zp (b : Byte)
  | zpx (b : Byte)
  | zpy (b : Byte)
  | abs (a : Half)
  | absx (a : Half)
  | absy (a : Half)
  | ind (a : Half)
  | indx (b : Byte)
  | indy (b : Byte)
  | rel (d : Byte)
deriving DecidableEq, Repr

/-- One instruction. The first twelve constructors are the block's own instruction set, its commands; the others
are what a `DIS_NEXT` meets at the decode cursor (R155): a constructor for each mnemonic, whose operand says the
form, and one for the illegal opcode bytes. -/
inductive Instr where
  /-- `NOP`, command code 0x00 (R255). -/
  | nop
  /-- `HDR_PARSE`, command code 0x01 (R105). -/
  | hdrParse
  /-- `CHR_RESTART`, command code 0x10 (R118). -/
  | chrRestart
  /-- `CHR_NEXT`, command code 0x11 (R119). -/
  | chrNext
  /-- `DIS_START`, command code 0x20 (R140). -/
  | disStart
  /-- `DIS_NEXT`, command code 0x21 (R141). -/
  | disNext
  /-- `GG_DECODE`, command code 0x30 (R220). -/
  | ggDecode
  /-- `GG_ENCODE`, command code 0x31 (R222). -/
  | ggEncode
  /-- `PRNG_INIT`, command code 0x40 (R238). -/
  | prngInit
  /-- `PRNG_STEP`, command code 0x41 (R240). -/
  | prngStep
  /-- `PRNG_SET_IT`, command code 0x42 (R239). -/
  | prngSetIt
  /-- Any unassigned command code (R71, R256). -/
  | illegalCommand (code : Byte)
  /-- `ADC`, add with carry (R156). -/
  | opAdc (o : Operand)
  /-- `AND`, logical AND with accumulator (R157). -/
  | opAnd (o : Operand)
  /-- `ASL`, arithmetic shift left (R158). -/
  | opAsl (o : Operand)
  /-- `BCC`, branch if carry clear (R159). -/
  | opBcc (o : Operand)
  /-- `BCS`, branch if carry set (R160). -/
  | opBcs (o : Operand)
  /-- `BEQ`, branch if equal (zero set) (R161). -/
  | opBeq (o : Operand)
  /-- `BIT`, bit test (R162). -/
  | opBit (o : Operand)
  /-- `BMI`, branch if minus (R163). -/
  | opBmi (o : Operand)
  /-- `BNE`, branch if not equal (zero clear) (R164). -/
  | opBne (o : Operand)
  /-- `BPL`, branch if plus (R165). -/
  | opBpl (o : Operand)
  /-- `BRK`, force break (R166). -/
  | opBrk (o : Operand)
  /-- `BVC`, branch if overflow clear (R167). -/
  | opBvc (o : Operand)
  /-- `BVS`, branch if overflow set (R168). -/
  | opBvs (o : Operand)
  /-- `CLC`, clear carry (R169). -/
  | opClc (o : Operand)
  /-- `CLD`, clear decimal mode (R170). -/
  | opCld (o : Operand)
  /-- `CLI`, clear interrupt disable (R171). -/
  | opCli (o : Operand)
  /-- `CLV`, clear overflow (R172). -/
  | opClv (o : Operand)
  /-- `CMP`, compare with accumulator (R173). -/
  | opCmp (o : Operand)
  /-- `CPX`, compare with X (R174). -/
  | opCpx (o : Operand)
  /-- `CPY`, compare with Y (R175). -/
  | opCpy (o : Operand)
  /-- `DEC`, decrement memory (R176). -/
  | opDec (o : Operand)
  /-- `DEX`, decrement X (R177). -/
  | opDex (o : Operand)
  /-- `DEY`, decrement Y (R178). -/
  | opDey (o : Operand)
  /-- `EOR`, exclusive OR with accumulator (R179). -/
  | opEor (o : Operand)
  /-- `INC`, increment memory (R180). -/
  | opInc (o : Operand)
  /-- `INX`, increment X (R181). -/
  | opInx (o : Operand)
  /-- `INY`, increment Y (R182). -/
  | opIny (o : Operand)
  /-- `JMP`, jump (R183). -/
  | opJmp (o : Operand)
  /-- `JSR`, jump to subroutine (R184). -/
  | opJsr (o : Operand)
  /-- `LDA`, load accumulator (R185). -/
  | opLda (o : Operand)
  /-- `LDX`, load X (R186). -/
  | opLdx (o : Operand)
  /-- `LDY`, load Y (R187). -/
  | opLdy (o : Operand)
  /-- `LSR`, logical shift right (R188). -/
  | opLsr (o : Operand)
  /-- `NOP`, no operation (R189). -/
  | opNop (o : Operand)
  /-- `ORA`, OR with accumulator (R190). -/
  | opOra (o : Operand)
  /-- `PHA`, push accumulator (R191). -/
  | opPha (o : Operand)
  /-- `PHP`, push processor status (R192). -/
  | opPhp (o : Operand)
  /-- `PLA`, pull accumulator (R193). -/
  | opPla (o : Operand)
  /-- `PLP`, pull processor status (R194). -/
  | opPlp (o : Operand)
  /-- `ROL`, rotate left (R195). -/
  | opRol (o : Operand)
  /-- `ROR`, rotate right (R196). -/
  | opRor (o : Operand)
  /-- `RTI`, return from interrupt (R197). -/
  | opRti (o : Operand)
  /-- `RTS`, return from subroutine (R198). -/
  | opRts (o : Operand)
  /-- `SBC`, subtract with carry (R199). -/
  | opSbc (o : Operand)
  /-- `SEC`, set carry (R200). -/
  | opSec (o : Operand)
  /-- `SED`, set decimal mode (R201). -/
  | opSed (o : Operand)
  /-- `SEI`, set interrupt disable (R202). -/
  | opSei (o : Operand)
  /-- `STA`, store accumulator (R203). -/
  | opSta (o : Operand)
  /-- `STX`, store X (R204). -/
  | opStx (o : Operand)
  /-- `STY`, store Y (R205). -/
  | opSty (o : Operand)
  /-- `TAX`, transfer A to X (R206). -/
  | opTax (o : Operand)
  /-- `TAY`, transfer A to Y (R207). -/
  | opTay (o : Operand)
  /-- `TSX`, transfer stack pointer to X (R208). -/
  | opTsx (o : Operand)
  /-- `TXA`, transfer X to A (R209). -/
  | opTxa (o : Operand)
  /-- `TXS`, transfer X to stack pointer (R210). -/
  | opTxs (o : Operand)
  /-- `TYA`, transfer Y to A (R211). -/
  | opTya (o : Operand)
  /-- An illegal opcode byte, reported as such (R80, R212). -/
  | opIllegal (op : Byte)
deriving DecidableEq, Repr

/-- The addressing mode of an operand. -/
def Operand.mode : Operand → Mode
  | .imp => .imp
  | .acc => .acc
  | .imm _ => .imm
  | .zp _ => .zp
  | .zpx _ => .zpx
  | .zpy _ => .zpy
  | .abs _ => .abs
  | .absx _ => .absx
  | .absy _ => .absy
  | .ind _ => .ind
  | .indx _ => .indx
  | .indy _ => .indy
  | .rel _ => .rel

/-- The code space an instruction's bytes stand in. -/
def Instr.space : Instr → Space
  | .nop => .command
  | .hdrParse => .command
  | .chrRestart => .command
  | .chrNext => .command
  | .disStart => .command
  | .disNext => .command
  | .ggDecode => .command
  | .ggEncode => .command
  | .prngInit => .command
  | .prngStep => .command
  | .prngSetIt => .command
  | .illegalCommand _ => .command
  | .opAdc _ => .opcode
  | .opAnd _ => .opcode
  | .opAsl _ => .opcode
  | .opBcc _ => .opcode
  | .opBcs _ => .opcode
  | .opBeq _ => .opcode
  | .opBit _ => .opcode
  | .opBmi _ => .opcode
  | .opBne _ => .opcode
  | .opBpl _ => .opcode
  | .opBrk _ => .opcode
  | .opBvc _ => .opcode
  | .opBvs _ => .opcode
  | .opClc _ => .opcode
  | .opCld _ => .opcode
  | .opCli _ => .opcode
  | .opClv _ => .opcode
  | .opCmp _ => .opcode
  | .opCpx _ => .opcode
  | .opCpy _ => .opcode
  | .opDec _ => .opcode
  | .opDex _ => .opcode
  | .opDey _ => .opcode
  | .opEor _ => .opcode
  | .opInc _ => .opcode
  | .opInx _ => .opcode
  | .opIny _ => .opcode
  | .opJmp _ => .opcode
  | .opJsr _ => .opcode
  | .opLda _ => .opcode
  | .opLdx _ => .opcode
  | .opLdy _ => .opcode
  | .opLsr _ => .opcode
  | .opNop _ => .opcode
  | .opOra _ => .opcode
  | .opPha _ => .opcode
  | .opPhp _ => .opcode
  | .opPla _ => .opcode
  | .opPlp _ => .opcode
  | .opRol _ => .opcode
  | .opRor _ => .opcode
  | .opRti _ => .opcode
  | .opRts _ => .opcode
  | .opSbc _ => .opcode
  | .opSec _ => .opcode
  | .opSed _ => .opcode
  | .opSei _ => .opcode
  | .opSta _ => .opcode
  | .opStx _ => .opcode
  | .opSty _ => .opcode
  | .opTax _ => .opcode
  | .opTay _ => .opcode
  | .opTsx _ => .opcode
  | .opTxa _ => .opcode
  | .opTxs _ => .opcode
  | .opTya _ => .opcode
  | .opIllegal _ => .opcode

/-- The mnemonic and operand of a legal 6502 instruction; none for a command and for an illegal opcode byte. -/
def Instr.entry? : Instr → Option (Mnemonic × Operand)
  | .nop => none
  | .hdrParse => none
  | .chrRestart => none
  | .chrNext => none
  | .disStart => none
  | .disNext => none
  | .ggDecode => none
  | .ggEncode => none
  | .prngInit => none
  | .prngStep => none
  | .prngSetIt => none
  | .illegalCommand _ => none
  | .opAdc o => some (.adc, o)
  | .opAnd o => some (.and, o)
  | .opAsl o => some (.asl, o)
  | .opBcc o => some (.bcc, o)
  | .opBcs o => some (.bcs, o)
  | .opBeq o => some (.beq, o)
  | .opBit o => some (.bit, o)
  | .opBmi o => some (.bmi, o)
  | .opBne o => some (.bne, o)
  | .opBpl o => some (.bpl, o)
  | .opBrk o => some (.brk, o)
  | .opBvc o => some (.bvc, o)
  | .opBvs o => some (.bvs, o)
  | .opClc o => some (.clc, o)
  | .opCld o => some (.cld, o)
  | .opCli o => some (.cli, o)
  | .opClv o => some (.clv, o)
  | .opCmp o => some (.cmp, o)
  | .opCpx o => some (.cpx, o)
  | .opCpy o => some (.cpy, o)
  | .opDec o => some (.dec, o)
  | .opDex o => some (.dex, o)
  | .opDey o => some (.dey, o)
  | .opEor o => some (.eor, o)
  | .opInc o => some (.inc, o)
  | .opInx o => some (.inx, o)
  | .opIny o => some (.iny, o)
  | .opJmp o => some (.jmp, o)
  | .opJsr o => some (.jsr, o)
  | .opLda o => some (.lda, o)
  | .opLdx o => some (.ldx, o)
  | .opLdy o => some (.ldy, o)
  | .opLsr o => some (.lsr, o)
  | .opNop o => some (.nop, o)
  | .opOra o => some (.ora, o)
  | .opPha o => some (.pha, o)
  | .opPhp o => some (.php, o)
  | .opPla o => some (.pla, o)
  | .opPlp o => some (.plp, o)
  | .opRol o => some (.rol, o)
  | .opRor o => some (.ror, o)
  | .opRti o => some (.rti, o)
  | .opRts o => some (.rts, o)
  | .opSbc o => some (.sbc, o)
  | .opSec o => some (.sec, o)
  | .opSed o => some (.sed, o)
  | .opSei o => some (.sei, o)
  | .opSta o => some (.sta, o)
  | .opStx o => some (.stx, o)
  | .opSty o => some (.sty, o)
  | .opTax o => some (.tax, o)
  | .opTay o => some (.tay, o)
  | .opTsx o => some (.tsx, o)
  | .opTxa o => some (.txa, o)
  | .opTxs o => some (.txs, o)
  | .opTya o => some (.tya, o)
  | .opIllegal _ => none

end Sys2Proof
end

