-- ==== Sys2Proof/Machine/State.lean ====
section
/-! DEFINITION. The state of the block as plain data: the input buffer, every register of 10_state.md R24, the eight
`FLAGS` bits of R25, and what the model adds: the parameters, the host's pending accesses and the values its
reads returned. With it the reasons a step stops, and the state after reset (R290). -/
namespace Sys2Proof.Machine

/-- The registers of R24, by name. -/
inductive Reg where
  | cmd | status | errinfo | bufLen | arg0 | arg1 | flags
  | hdrPrgBanks | hdrChrBanks | hdrTrainer | hdrMapper | hdrPrgOff | hdrPrgLen | hdrChrOff | hdrChrLen
  | chrBase | chrLen | chrCur | chrCount | chrTileIdx
  | chrRow (r : Fin 8)
  | disBase | disLen | disCur | disOff | disOpc | disMnem | disMode | disNopnd | disOpnd | disElen
  | ggChar (i : Fin 8)
  | ggClen | ggAddr | ggVal | ggCmp | ggHasCmp
  | prngSeed | prngIter | prngState
deriving DecidableEq, Repr

/-- One access of the host (R51), or the reset event (R290). -/
inductive Event where
  /-- `HostWriteBuf(a, v)`. -/
  | writeBuf (a : Word) (v : Byte)
  /-- `HostReadBuf(a)`. -/
  | readBuf (a : Word)
  /-- `HostWrite(n, v)`; a write of register 0x00 performs a command. -/
  | write (n : Byte) (v : Word)
  /-- `HostRead(n)`. -/
  | read (n : Byte)
  /-- `Reset`. -/
  | reset
deriving DecidableEq, Repr

/-- The status codes (R265). -/
inductive StatusCode where
  | ok | invalidHeader | truncatedChrData | truncatedInstruction | invalidLength | invalidCharacter | ioError
  | invalidAddress | illegalCommand | notInitialised | regionOutOfBounds
deriving DecidableEq, Repr

/-- Why the machine stops. Each is a stop the spec itself asks of a model (R14, R273). -/
inductive Fault where
  /-- Raised by a host read of a register marked `unspec` while its valid bit is 0 (R21, R273). Safe. -/
  | unreadableRegister (r : Reg)
  /-- Raised by a host read, or a command's `MemRead`, of an `IBUF` byte not written since reset (R51, R292). Safe. -/
  | unwrittenByte (addr : Nat)
  /-- Raised by `MemRead(addr, n)` with its bound false (R14); no run reaches it (R273). Safe. -/
  | memReadBound (addr n : Nat)
deriving DecidableEq, Repr

/-- Why the model has no meaning to give. -/
inductive Refusal where
  /-- Raised by an arm of `exec` for an instruction that has no meaning yet. Safe. -/
  | notModelled (mnemonic : String)
  /-- Raised by `step` in a state that holds a value the spec says is never produced
  (93_implementation_defined.md U6: `refuse` if a model state holds one); no run reaches it. Safe. -/
  | neverProduced
  /-- Raised by the meaning of a 6502 instruction on an operand whose mode its mnemonic does not have: a term that
  no bytes decode to. Safe. -/
  | illFormed (i : Instr)
deriving DecidableEq, Repr

/-- The eight bits of `FLAGS`, bit 0 first (R25). -/
structure Flags where
  hdrValid : Bool
  chrReady : Bool
  chrEnd : Bool
  tileValid : Bool
  disReady : Bool
  disEnd : Bool
  disValid : Bool
  prngValid : Bool
deriving DecidableEq, Repr

/-- The header registers, 0x08 to 0x0F (R24, R33). -/
structure HdrRegs where
  prgBanks : Byte
  chrBanks : Byte
  trainer : BitVec 1
  mapper : Byte
  prgOff : Word
  prgLen : Word
  chrOff : Word
  chrLen : Word
deriving DecidableEq, Repr

/-- The CHR registers, 0x10 to 0x1F (R24, R34). -/
structure ChrRegs where
  base : Word
  len : Word
  cur : Word
  count : Word
  tileIdx : Word
  row : Bank8 Half
deriving DecidableEq, Repr

/-- The DIS registers, 0x20 to 0x29 (R24, R35). -/
structure DisRegs where
  base : Word
  len : Word
  cur : Word
  off : Word
  opc : Byte
  mnem : BitVec 6
  mode : BitVec 4
  nopnd : BitVec 2
  opnd : Half
  elen : BitVec 2
deriving DecidableEq, Repr

/-- The Game Genie registers, 0x30 to 0x3C (R24, R36). -/
structure GgRegs where
  char : Bank8 Byte
  clen : BitVec 4
  addr : Half
  val : Byte
  cmp : Byte
  hasCmp : BitVec 1
deriving DecidableEq, Repr

/-- The PRNG registers, 0x40 to 0x42 (R24, R37). -/
structure PrngRegs where
  seed : Half
  iter : Half
  state : Half
deriving DecidableEq, Repr

/-- A byte store: (address, byte) pairs at strictly rising addresses. An unlisted address has not been written
since reset and reads as no value (R39, R51). -/
abbrev Memory := List Host.Cell

/-- The state. -/
structure State where
  /-- The model's own: the implementation parameters, which no step changes (R20). -/
  cfg : Config
  /-- `IBUF` (R50): the bytes written since reset. -/
  ibuf : Memory
  /-- `BUF_LEN`. -/
  bufLen : Word
  /-- `CMD`: the last code written. -/
  cmd : Byte
  /-- `STATUS`. -/
  status : Byte
  /-- `ERRINFO`. -/
  errinfo : Word
  /-- `ARG0`. -/
  arg0 : Word
  /-- `ARG1`. -/
  arg1 : Word
  /-- `FLAGS`. -/
  flags : Flags
  hdr : HdrRegs
  chr : ChrRegs
  dis : DisRegs
  gg : GgRegs
  prng : PrngRegs
  /-- The model's own: the host accesses still to happen, the next one first. -/
  pending : List Event
  /-- The model's own: the values the host's reads returned, the last one first. -/
  reads : List Word
deriving DecidableEq, Repr

/-- All eight `FLAGS` bits 0 (R25, R290). -/
def Flags.reset : Flags :=
  { hdrValid := false, chrReady := false, chrEnd := false, tileValid := false
    disReady := false, disEnd := false, disValid := false, prngValid := false }

/-- The block after `Reset` (R290) with no access of the host pending. The registers R24 marks `unspec` hold 0
(log entry 2, DESIGN CHOICE); their valid bits are 0, so that reading one faults. -/
def State.reset : State :=
  { cfg := Config.standard
    ibuf := []
    bufLen := 0
    cmd := 0
    status := 0
    errinfo := 0
    arg0 := 0
    arg1 := 0
    flags := Flags.reset
    hdr := { prgBanks := 0, chrBanks := 0, trainer := 0, mapper := 0
             prgOff := 0, prgLen := 0, chrOff := 0, chrLen := 0 }
    chr := { base := 0, len := 0, cur := 0, count := 0, tileIdx := 0, row := Bank8.ofFn fun _ => 0 }
    dis := { base := 0, len := 0, cur := 0, off := 0, opc := 0, mnem := 0, mode := 0, nopnd := 0
             opnd := 0, elen := 0 }
    gg := { char := Bank8.ofFn fun _ => 0, clen := 0, addr := 0, val := 0, cmp := 0, hasCmp := 0 }
    prng := { seed := 0, iter := 0, state := 0 }
    pending := []
    reads := [] }

end Sys2Proof.Machine
end

