-- ==== Sys2Proof/Machine/Ops.lean ====
section
/-! DEFINITION. The shared operations: reading and writing `IBUF`, the bounded read of a command, and the two ways a
command ends (00_scope.md R14, 20_memory.md, 60_exceptions.md R265 to R272). -/
namespace Sys2Proof.Machine

/-- What one step or one command answers. -/
abbrev Result := Host.Outcome State Fault Refusal

/-- The byte at `a`; none where nothing has written it since reset (R39, R51). -/
def Memory.read : Memory → Nat → Option Byte
  | [], _ => none
  | (b, w) :: m, a => if a = b then some w else Memory.read m a

/-- The store with the byte at `a` set to `v`, its addresses still rising. -/
def Memory.write : Memory → Nat → Byte → Memory
  | [], a, v => [(a, v)]
  | (b, w) :: m, a, v =>
    if a < b then (a, v) :: (b, w) :: m
    else if a = b then (a, v) :: m
    else (b, w) :: Memory.write m a v

/-- The bytes of a list stored at rising addresses from `a`. -/
def Memory.writeList : Memory → Nat → List Byte → Memory
  | m, _, [] => m
  | m, a, b :: bs => Memory.writeList (m.write a b) (a + 1) bs

/-- The canonical form: addresses strictly rising. No entry can equal what an unlisted address reads as, for that
is no value. -/
abbrev Memory.wf (m : Memory) : Prop := m.Pairwise fun c d => c.1 < d.1

/-- `n` bytes from `a`, the lowest address first; the first unwritten one faults (R292). -/
def Memory.readBytes (m : Memory) : Nat → Nat → Except Fault (List Byte)
  | _, 0 => .ok []
  | a, n + 1 =>
    match m.read a with
    | none => .error (.unwrittenByte a)
    | some b =>
      match Memory.readBytes m (a + 1) n with
      | .ok bs => .ok (b :: bs)
      | .error f => .error f

/-- `MemRead(a, n)`: defined only within the loaded image (R14, R50). -/
def memRead (a n : Nat) (s : State) : Except Fault (List Byte) :=
  if a + n ≤ s.bufLen.toNat then s.ibuf.readBytes a n else .error (.memReadBound a n)

/-- Go on with the bytes of `MemRead(a, n)`, or stop where it has none (R273). -/
def withBytes (a n : Nat) (s : State) (k : List Byte → Result) : Result :=
  match memRead a n s with
  | .ok bs => k bs
  | .error f => .fault f

/-- The number of a status code (R265). -/
def StatusCode.number : StatusCode → Byte
  | .ok => 0
  | .invalidHeader => 1
  | .truncatedChrData => 2
  | .truncatedInstruction => 3
  | .invalidLength => 4
  | .invalidCharacter => 5
  | .ioError => 6
  | .invalidAddress => 7
  | .illegalCommand => 8
  | .notInitialised => 9
  | .regionOutOfBounds => 10

/-- `finish`: the command ends with `STATUS` 0 and `ERRINFO` as it was (R14, R268). -/
def finish (s : State) : Result := .next { s with status := StatusCode.ok.number }

/-- `raise Status(c, info)`: the command ends with `STATUS` and `ERRINFO` written and nothing else (R14). This is
the block's one exception: it saves no state, enters no handler and has no return (R271, R272). -/
def raise (c : StatusCode) (info : Word) (s : State) : Result :=
  .next { s with status := c.number, errinfo := info }

/-- `a + n` of two offsets, compared as unbounded naturals (R7), ends within the loaded image. -/
def inBuffer (base len : Word) (s : State) : Bool := decide (base.toNat + len.toNat ≤ s.bufLen.toNat)

/-- The state holds a value the spec says is never produced: a status code past 10, a mode past 12, a mnemonic past
56, or the header reason 0b11 under `InvalidHeader` (93_implementation_defined.md U6). -/
def State.holdsUnproduced (s : State) : Bool :=
  decide (10 < s.status.toNat) || decide (12 < s.dis.mode.toNat) || decide (56 < s.dis.mnem.toNat)
    || (s.status == StatusCode.invalidHeader.number && s.errinfo.extractLsb' 30 2 == 3#2)

end Sys2Proof.Machine
end

