-- ==== Sys2Proof/Machine/Flags.lean ====
section
/-! DEFINITION. The `FLAGS` register: its word (10_state.md R25), and the ways an access closes what was open
(R29 to R31). -/
namespace Sys2Proof.Machine

/-- The word of `FLAGS`, `HDR_VALID` in bit 0 and `PRNG_VALID` in bit 7 (R25). -/
def Flags.word (f : Flags) : Byte :=
  BitVec.ofBool f.prngValid ++ (BitVec.ofBool f.disValid ++ (BitVec.ofBool f.disEnd ++ (BitVec.ofBool f.disReady ++
    (BitVec.ofBool f.tileValid ++ (BitVec.ofBool f.chrEnd ++ (BitVec.ofBool f.chrReady ++
      BitVec.ofBool f.hdrValid))))))

/-- The header is no longer valid. -/
def Flags.dropHeader (f : Flags) : Flags := { f with hdrValid := false }

/-- The tile sequence is closed (R30). -/
def Flags.closeChr (f : Flags) : Flags := { f with chrReady := false, chrEnd := false, tileValid := false }

/-- The decode sequence is closed (R31). -/
def Flags.closeDis (f : Flags) : Flags := { f with disReady := false, disEnd := false, disValid := false }

/-- Every result derived from the buffer is invalid (R29). -/
def Flags.invalidate (f : Flags) : Flags := f.dropHeader.closeChr.closeDis

end Sys2Proof.Machine
end

