-- ==== Sys2Proof/Machine/Chr.lean ====
section
/-! DEFINITION. `CHR`, the bitplane unpacker (41_chr.md). -/
namespace Sys2Proof.Machine

/-- The pixel index of row `r`, column `c` of a 16-byte tile: plane 0 gives bit 0, plane 1 bit 1, bit 7 of a byte
is column 0 (R115, R116). -/
def chrTile (b : List Byte) (r c : Nat) : BitVec 2 :=
  BitVec.ofBool ((b.getD (r + 8) 0).getLsbD (7 - c)) ++ BitVec.ofBool ((b.getD r 0).getLsbD (7 - c))

/-- A row register: pixel `c` in bits `[2c+1:2c]` (R117). -/
def packRow (p : Nat → BitVec 2) : Half :=
  p 7 ++ (p 6 ++ (p 5 ++ (p 4 ++ (p 3 ++ (p 2 ++ (p 1 ++ p 0))))))

/-- The eight row registers of a tile (R116, R117, R119). -/
def tileRows (b : List Byte) : Bank8 Half := Bank8.ofFn fun r => packRow (chrTile b r.val)

/-- The tile sequence closed and the error raised (R118). -/
def rejectRegion (c : StatusCode) (info : Word) (s : State) : Result :=
  raise c info { s with flags := s.flags.closeChr }

/-- `CHR_RESTART` (R118): the length check first, then the bounds (R270). -/
def execChrRestart (s : State) : Result :=
  if s.chr.len.toNat % 16 ≠ 0 then rejectRegion .truncatedChrData s.chr.len s
  else if inBuffer s.chr.base s.chr.len s = false then rejectRegion .regionOutOfBounds (s.chr.base + s.chr.len) s
  else
    finish { s with
      chr := { s.chr with cur := 0, count := BitVec.ofNat 32 (s.chr.len.toNat / 16) }
      flags := { s.flags with chrReady := true, chrEnd := false, tileValid := false } }

/-- The tile at the cursor delivered into the row registers, and the cursor moved on (R119). -/
def deliverTile (b : List Byte) (s : State) : Result :=
  finish { s with
    chr := { s.chr with row := tileRows b, tileIdx := s.chr.cur, cur := s.chr.cur + 1 }
    flags := { s.flags with tileValid := true } }

/-- `CHR_NEXT` (R119). -/
def execChrNext (s : State) : Result :=
  if s.flags.chrReady = false then raise .notInitialised 0x11 s
  else if s.chr.cur = s.chr.count then
    finish { s with flags := { s.flags with chrEnd := true, tileValid := false } }
  else withBytes (s.chr.base.toNat + 16 * s.chr.cur.toNat) 16 s fun b => deliverTile b s

end Sys2Proof.Machine
end

