-- ==== Sys2Proof/Machine/Control.lean ====
section
/-! DEFINITION. The commands that belong to no unit: `NOP` and the illegal codes (46_control.md). -/
namespace Sys2Proof.Machine

/-- `NOP` (R255). -/
def execNop (s : State) : Result := finish s

/-- The illegal command (R256): status 8 with the code in `ERRINFO`, and no other effect. -/
def execIllegalCommand (code : Byte) (s : State) : Result := raise .illegalCommand (code.setWidth 32) s

end Sys2Proof.Machine
end

