-- ==== Sys2Proof/WellFormed.lean ====
section
/-! DEFINITION. Which terms of `Instr` are instructions: an illegal command carries an unassigned code, a 6502
instruction's operand has a mode its mnemonic has, an illegal opcode byte is one of the 105. -/
namespace Sys2Proof

/-- The assigned command codes (R70). -/
def commandCodes : List Byte :=
  [0x00, 0x01, 0x10, 0x11, 0x20, 0x21, 0x30, 0x31, 0x40, 0x41, 0x42]

/-- The illegal opcode bytes of R80, part 1. -/
def illegalOpcodes1 : List Byte :=
  [0x02, 0x03, 0x04, 0x07, 0x0B, 0x0C, 0x0F, 0x12, 0x13, 0x14, 0x17, 0x1A, 0x1B, 0x1C,
   0x1F, 0x22, 0x23, 0x27, 0x2B, 0x2F, 0x32, 0x33, 0x34, 0x37, 0x3A, 0x3B, 0x3C, 0x3F,
   0x42, 0x43, 0x44, 0x47, 0x4B, 0x4F, 0x52, 0x53, 0x54, 0x57, 0x5A, 0x5B, 0x5C, 0x5F,
   0x62, 0x63, 0x64, 0x67, 0x6B, 0x6F, 0x72, 0x73, 0x74, 0x77, 0x7A]

/-- The illegal opcode bytes of R80, part 2. -/
def illegalOpcodes2 : List Byte :=
  [0x7B, 0x7C, 0x7F, 0x80, 0x82, 0x83, 0x87, 0x89, 0x8B, 0x8F, 0x92, 0x93, 0x97, 0x9B,
   0x9C, 0x9E, 0x9F, 0xA3, 0xA7, 0xAB, 0xAF, 0xB2, 0xB3, 0xB7, 0xBB, 0xBF, 0xC2, 0xC3,
   0xC7, 0xCB, 0xCF, 0xD2, 0xD3, 0xD4, 0xD7, 0xDA, 0xDB, 0xDC, 0xDF, 0xE2, 0xE3, 0xE7,
   0xEB, 0xEF, 0xF2, 0xF3, 0xF4, 0xF7, 0xFA, 0xFB, 0xFC, 0xFF]

/-- The 105 illegal opcode bytes (R80). -/
def illegalOpcodes : List Byte := illegalOpcodes1 ++ illegalOpcodes2

/-- The addressing modes each mnemonic has (the forms of R156 to R211). The illegal marker has none: its entry is
`Instr.opIllegal`. -/
def Mnemonic.modes : Mnemonic → List Mode
  | .adc => [.indx, .zp, .imm, .abs, .indy, .zpx, .absy, .absx]
  | .and => [.indx, .zp, .imm, .abs, .indy, .zpx, .absy, .absx]
  | .asl => [.zp, .acc, .abs, .zpx, .absx]
  | .bcc => [.rel]
  | .bcs => [.rel]
  | .beq => [.rel]
  | .bit => [.zp, .abs]
  | .bmi => [.rel]
  | .bne => [.rel]
  | .bpl => [.rel]
  | .brk => [.imp]
  | .bvc => [.rel]
  | .bvs => [.rel]
  | .clc => [.imp]
  | .cld => [.imp]
  | .cli => [.imp]
  | .clv => [.imp]
  | .cmp => [.indx, .zp, .imm, .abs, .indy, .zpx, .absy, .absx]
  | .cpx => [.imm, .zp, .abs]
  | .cpy => [.imm, .zp, .abs]
  | .dec => [.zp, .abs, .zpx, .absx]
  | .dex => [.imp]
  | .dey => [.imp]
  | .eor => [.indx, .zp, .imm, .abs, .indy, .zpx, .absy, .absx]
  | .inc => [.zp, .abs, .zpx, .absx]
  | .inx => [.imp]
  | .iny => [.imp]
  | .jmp => [.abs, .ind]
  | .jsr => [.abs]
  | .lda => [.indx, .zp, .imm, .abs, .indy, .zpx, .absy, .absx]
  | .ldx => [.imm, .zp, .abs, .zpy, .absy]
  | .ldy => [.imm, .zp, .abs, .zpx, .absx]
  | .lsr => [.zp, .acc, .abs, .zpx, .absx]
  | .nop => [.imp]
  | .ora => [.indx, .zp, .imm, .abs, .indy, .zpx, .absy, .absx]
  | .pha => [.imp]
  | .php => [.imp]
  | .pla => [.imp]
  | .plp => [.imp]
  | .rol => [.zp, .acc, .abs, .zpx, .absx]
  | .ror => [.zp, .acc, .abs, .zpx, .absx]
  | .rti => [.imp]
  | .rts => [.imp]
  | .sbc => [.indx, .zp, .imm, .abs, .indy, .zpx, .absy, .absx]
  | .sec => [.imp]
  | .sed => [.imp]
  | .sei => [.imp]
  | .sta => [.indx, .zp, .abs, .indy, .zpx, .absy, .absx]
  | .stx => [.zp, .abs, .zpy]
  | .sty => [.zp, .abs, .zpx]
  | .tax => [.imp]
  | .tay => [.imp]
  | .tsx => [.imp]
  | .txa => [.imp]
  | .txs => [.imp]
  | .tya => [.imp]
  | .illegal => []

/-- The operand has a mode that the mnemonic has. -/
def Mnemonic.admits (m : Mnemonic) (o : Operand) : Bool := m.modes.contains o.mode

/-- A well-formed instruction: a term that some bytes decode to. -/
def Instr.wellFormed : Instr → Bool
  | .nop => true
  | .hdrParse => true
  | .chrRestart => true
  | .chrNext => true
  | .disStart => true
  | .disNext => true
  | .ggDecode => true
  | .ggEncode => true
  | .prngInit => true
  | .prngStep => true
  | .prngSetIt => true
  | .illegalCommand code => !commandCodes.contains code
  | .opAdc o => Mnemonic.admits .adc o
  | .opAnd o => Mnemonic.admits .and o
  | .opAsl o => Mnemonic.admits .asl o
  | .opBcc o => Mnemonic.admits .bcc o
  | .opBcs o => Mnemonic.admits .bcs o
  | .opBeq o => Mnemonic.admits .beq o
  | .opBit o => Mnemonic.admits .bit o
  | .opBmi o => Mnemonic.admits .bmi o
  | .opBne o => Mnemonic.admits .bne o
  | .opBpl o => Mnemonic.admits .bpl o
  | .opBrk o => Mnemonic.admits .brk o
  | .opBvc o => Mnemonic.admits .bvc o
  | .opBvs o => Mnemonic.admits .bvs o
  | .opClc o => Mnemonic.admits .clc o
  | .opCld o => Mnemonic.admits .cld o
  | .opCli o => Mnemonic.admits .cli o
  | .opClv o => Mnemonic.admits .clv o
  | .opCmp o => Mnemonic.admits .cmp o
  | .opCpx o => Mnemonic.admits .cpx o
  | .opCpy o => Mnemonic.admits .cpy o
  | .opDec o => Mnemonic.admits .dec o
  | .opDex o => Mnemonic.admits .dex o
  | .opDey o => Mnemonic.admits .dey o
  | .opEor o => Mnemonic.admits .eor o
  | .opInc o => Mnemonic.admits .inc o
  | .opInx o => Mnemonic.admits .inx o
  | .opIny o => Mnemonic.admits .iny o
  | .opJmp o => Mnemonic.admits .jmp o
  | .opJsr o => Mnemonic.admits .jsr o
  | .opLda o => Mnemonic.admits .lda o
  | .opLdx o => Mnemonic.admits .ldx o
  | .opLdy o => Mnemonic.admits .ldy o
  | .opLsr o => Mnemonic.admits .lsr o
  | .opNop o => Mnemonic.admits .nop o
  | .opOra o => Mnemonic.admits .ora o
  | .opPha o => Mnemonic.admits .pha o
  | .opPhp o => Mnemonic.admits .php o
  | .opPla o => Mnemonic.admits .pla o
  | .opPlp o => Mnemonic.admits .plp o
  | .opRol o => Mnemonic.admits .rol o
  | .opRor o => Mnemonic.admits .ror o
  | .opRti o => Mnemonic.admits .rti o
  | .opRts o => Mnemonic.admits .rts o
  | .opSbc o => Mnemonic.admits .sbc o
  | .opSec o => Mnemonic.admits .sec o
  | .opSed o => Mnemonic.admits .sed o
  | .opSei o => Mnemonic.admits .sei o
  | .opSta o => Mnemonic.admits .sta o
  | .opStx o => Mnemonic.admits .stx o
  | .opSty o => Mnemonic.admits .sty o
  | .opTax o => Mnemonic.admits .tax o
  | .opTay o => Mnemonic.admits .tay o
  | .opTsx o => Mnemonic.admits .tsx o
  | .opTxa o => Mnemonic.admits .txa o
  | .opTxs o => Mnemonic.admits .txs o
  | .opTya o => Mnemonic.admits .tya o
  | .opIllegal op => illegalOpcodes.contains op

end Sys2Proof
end

