-- ==== Sys2Proof/Decode.lean ====
section
/-! DEFINITION. The decoder of the two code spaces, total and rejecting by name, then the encoder. The decoder follows
the opcode map of 30_encoding.md R79; the encoder follows the tables of 43_disasm_opcodes.md R156 to R211. -/
namespace Sys2Proof

/-- Why bytes are no instruction. -/
inductive DecodeError where
  /-- There is no first byte. -/
  | noByte
  /-- The opcode's operand bytes are missing. -/
  | missingOperand (op : Byte)
deriving DecidableEq, Repr

/-- The command a code names (R70); every other code is the illegal command (R71). -/
def decodeCommand (code : Byte) : Instr :=
  if code = 0x00 then .nop else
  if code = 0x01 then .hdrParse else
  if code = 0x10 then .chrRestart else
  if code = 0x11 then .chrNext else
  if code = 0x20 then .disStart else
  if code = 0x21 then .disNext else
  if code = 0x30 then .ggDecode else
  if code = 0x31 then .ggEncode else
  if code = 0x40 then .prngInit else
  if code = 0x41 then .prngStep else
  if code = 0x42 then .prngSetIt else
  .illegalCommand code

/-- Row 0- of the opcode map (R79). -/
def optableRow0 : List (Mnemonic × Mode) :=
  [(.brk, .imp), (.ora, .indx), (.illegal, .imp), (.illegal, .imp), (.illegal, .imp), (.ora, .zp), (.asl, .zp), (.illegal, .imp),
   (.php, .imp), (.ora, .imm), (.asl, .acc), (.illegal, .imp), (.illegal, .imp), (.ora, .abs), (.asl, .abs), (.illegal, .imp)]

/-- Row 1- of the opcode map (R79). -/
def optableRow1 : List (Mnemonic × Mode) :=
  [(.bpl, .rel), (.ora, .indy), (.illegal, .imp), (.illegal, .imp), (.illegal, .imp), (.ora, .zpx), (.asl, .zpx), (.illegal, .imp),
   (.clc, .imp), (.ora, .absy), (.illegal, .imp), (.illegal, .imp), (.illegal, .imp), (.ora, .absx), (.asl, .absx), (.illegal, .imp)]

/-- Row 2- of the opcode map (R79). -/
def optableRow2 : List (Mnemonic × Mode) :=
  [(.jsr, .abs), (.and, .indx), (.illegal, .imp), (.illegal, .imp), (.bit, .zp), (.and, .zp), (.rol, .zp), (.illegal, .imp),
   (.plp, .imp), (.and, .imm), (.rol, .acc), (.illegal, .imp), (.bit, .abs), (.and, .abs), (.rol, .abs), (.illegal, .imp)]

/-- Row 3- of the opcode map (R79). -/
def optableRow3 : List (Mnemonic × Mode) :=
  [(.bmi, .rel), (.and, .indy), (.illegal, .imp), (.illegal, .imp), (.illegal, .imp), (.and, .zpx), (.rol, .zpx), (.illegal, .imp),
   (.sec, .imp), (.and, .absy), (.illegal, .imp), (.illegal, .imp), (.illegal, .imp), (.and, .absx), (.rol, .absx), (.illegal, .imp)]

/-- Row 4- of the opcode map (R79). -/
def optableRow4 : List (Mnemonic × Mode) :=
  [(.rti, .imp), (.eor, .indx), (.illegal, .imp), (.illegal, .imp), (.illegal, .imp), (.eor, .zp), (.lsr, .zp), (.illegal, .imp),
   (.pha, .imp), (.eor, .imm), (.lsr, .acc), (.illegal, .imp), (.jmp, .abs), (.eor, .abs), (.lsr, .abs), (.illegal, .imp)]

/-- Row 5- of the opcode map (R79). -/
def optableRow5 : List (Mnemonic × Mode) :=
  [(.bvc, .rel), (.eor, .indy), (.illegal, .imp), (.illegal, .imp), (.illegal, .imp), (.eor, .zpx), (.lsr, .zpx), (.illegal, .imp),
   (.cli, .imp), (.eor, .absy), (.illegal, .imp), (.illegal, .imp), (.illegal, .imp), (.eor, .absx), (.lsr, .absx), (.illegal, .imp)]

/-- Row 6- of the opcode map (R79). -/
def optableRow6 : List (Mnemonic × Mode) :=
  [(.rts, .imp), (.adc, .indx), (.illegal, .imp), (.illegal, .imp), (.illegal, .imp), (.adc, .zp), (.ror, .zp), (.illegal, .imp),
   (.pla, .imp), (.adc, .imm), (.ror, .acc), (.illegal, .imp), (.jmp, .ind), (.adc, .abs), (.ror, .abs), (.illegal, .imp)]

/-- Row 7- of the opcode map (R79). -/
def optableRow7 : List (Mnemonic × Mode) :=
  [(.bvs, .rel), (.adc, .indy), (.illegal, .imp), (.illegal, .imp), (.illegal, .imp), (.adc, .zpx), (.ror, .zpx), (.illegal, .imp),
   (.sei, .imp), (.adc, .absy), (.illegal, .imp), (.illegal, .imp), (.illegal, .imp), (.adc, .absx), (.ror, .absx), (.illegal, .imp)]

/-- Row 8- of the opcode map (R79). -/
def optableRow8 : List (Mnemonic × Mode) :=
  [(.illegal, .imp), (.sta, .indx), (.illegal, .imp), (.illegal, .imp), (.sty, .zp), (.sta, .zp), (.stx, .zp), (.illegal, .imp),
   (.dey, .imp), (.illegal, .imp), (.txa, .imp), (.illegal, .imp), (.sty, .abs), (.sta, .abs), (.stx, .abs), (.illegal, .imp)]

/-- Row 9- of the opcode map (R79). -/
def optableRow9 : List (Mnemonic × Mode) :=
  [(.bcc, .rel), (.sta, .indy), (.illegal, .imp), (.illegal, .imp), (.sty, .zpx), (.sta, .zpx), (.stx, .zpy), (.illegal, .imp),
   (.tya, .imp), (.sta, .absy), (.txs, .imp), (.illegal, .imp), (.illegal, .imp), (.sta, .absx), (.illegal, .imp), (.illegal, .imp)]

/-- Row A- of the opcode map (R79). -/
def optableRowA : List (Mnemonic × Mode) :=
  [(.ldy, .imm), (.lda, .indx), (.ldx, .imm), (.illegal, .imp), (.ldy, .zp), (.lda, .zp), (.ldx, .zp), (.illegal, .imp),
   (.tay, .imp), (.lda, .imm), (.tax, .imp), (.illegal, .imp), (.ldy, .abs), (.lda, .abs), (.ldx, .abs), (.illegal, .imp)]

/-- Row B- of the opcode map (R79). -/
def optableRowB : List (Mnemonic × Mode) :=
  [(.bcs, .rel), (.lda, .indy), (.illegal, .imp), (.illegal, .imp), (.ldy, .zpx), (.lda, .zpx), (.ldx, .zpy), (.illegal, .imp),
   (.clv, .imp), (.lda, .absy), (.tsx, .imp), (.illegal, .imp), (.ldy, .absx), (.lda, .absx), (.ldx, .absy), (.illegal, .imp)]

/-- Row C- of the opcode map (R79). -/
def optableRowC : List (Mnemonic × Mode) :=
  [(.cpy, .imm), (.cmp, .indx), (.illegal, .imp), (.illegal, .imp), (.cpy, .zp), (.cmp, .zp), (.dec, .zp), (.illegal, .imp),
   (.iny, .imp), (.cmp, .imm), (.dex, .imp), (.illegal, .imp), (.cpy, .abs), (.cmp, .abs), (.dec, .abs), (.illegal, .imp)]

/-- Row D- of the opcode map (R79). -/
def optableRowD : List (Mnemonic × Mode) :=
  [(.bne, .rel), (.cmp, .indy), (.illegal, .imp), (.illegal, .imp), (.illegal, .imp), (.cmp, .zpx), (.dec, .zpx), (.illegal, .imp),
   (.cld, .imp), (.cmp, .absy), (.illegal, .imp), (.illegal, .imp), (.illegal, .imp), (.cmp, .absx), (.dec, .absx), (.illegal, .imp)]

/-- Row E- of the opcode map (R79). -/
def optableRowE : List (Mnemonic × Mode) :=
  [(.cpx, .imm), (.sbc, .indx), (.illegal, .imp), (.illegal, .imp), (.cpx, .zp), (.sbc, .zp), (.inc, .zp), (.illegal, .imp),
   (.inx, .imp), (.sbc, .imm), (.nop, .imp), (.illegal, .imp), (.cpx, .abs), (.sbc, .abs), (.inc, .abs), (.illegal, .imp)]

/-- Row F- of the opcode map (R79). -/
def optableRowF : List (Mnemonic × Mode) :=
  [(.beq, .rel), (.sbc, .indy), (.illegal, .imp), (.illegal, .imp), (.illegal, .imp), (.sbc, .zpx), (.inc, .zpx), (.illegal, .imp),
   (.sed, .imp), (.sbc, .absy), (.illegal, .imp), (.illegal, .imp), (.illegal, .imp), (.sbc, .absx), (.inc, .absx), (.illegal, .imp)]

/-- The opcode map, by high nibble (R79). -/
def optableRows : List (List (Mnemonic × Mode)) :=
  [optableRow0, optableRow1, optableRow2, optableRow3, optableRow4, optableRow5, optableRow6, optableRow7,
   optableRow8, optableRow9, optableRowA, optableRowB, optableRowC, optableRowD, optableRowE, optableRowF]

/-- The total opcode table: the mnemonic and mode of an opcode byte (R78, R79). -/
def optable (op : Byte) : Mnemonic × Mode :=
  (optableRows.getD (op.toNat / 16) []).getD (op.toNat % 16) (.illegal, .imp)

/-- The number of operand bytes a mode takes (R74). -/
def Mode.nopnd : Mode → Nat
  | .imp => 0
  | .acc => 0
  | .imm => 1
  | .zp => 1
  | .zpx => 1
  | .zpy => 1
  | .abs => 2
  | .absx => 2
  | .absy => 2
  | .ind => 2
  | .indx => 1
  | .indy => 1
  | .rel => 1

/-- The operand of a mode from its operand bytes, in address order; two bytes are little-endian (R53, R75). -/
def Operand.ofBytes (mode : Mode) (b1 b2 : Byte) : Operand :=
  match mode with
  | .imp => .imp
  | .acc => .acc
  | .imm => .imm b1
  | .zp => .zp b1
  | .zpx => .zpx b1
  | .zpy => .zpy b1
  | .abs => .abs (b2 ++ b1)
  | .absx => .absx (b2 ++ b1)
  | .absy => .absy (b2 ++ b1)
  | .ind => .ind (b2 ++ b1)
  | .indx => .indx b1
  | .indy => .indy b1
  | .rel => .rel b1

/-- The raw operand bytes, in address order (R75). -/
def Operand.bytes : Operand → List Byte
  | .imp => []
  | .acc => []
  | .imm b => [b]
  | .zp b => [b]
  | .zpx b => [b]
  | .zpy b => [b]
  | .abs a => [a.setWidth 8, (a >>> 8).setWidth 8]
  | .absx a => [a.setWidth 8, (a >>> 8).setWidth 8]
  | .absy a => [a.setWidth 8, (a >>> 8).setWidth 8]
  | .ind a => [a.setWidth 8, (a >>> 8).setWidth 8]
  | .indx b => [b]
  | .indy b => [b]
  | .rel b => [b]

/-- The instruction a mnemonic and operand stand for; `op` is kept only where the byte is illegal. -/
def Instr.ofEntry (op : Byte) (m : Mnemonic) (o : Operand) : Instr :=
  match m with
  | .adc => .opAdc o
  | .and => .opAnd o
  | .asl => .opAsl o
  | .bcc => .opBcc o
  | .bcs => .opBcs o
  | .beq => .opBeq o
  | .bit => .opBit o
  | .bmi => .opBmi o
  | .bne => .opBne o
  | .bpl => .opBpl o
  | .brk => .opBrk o
  | .bvc => .opBvc o
  | .bvs => .opBvs o
  | .clc => .opClc o
  | .cld => .opCld o
  | .cli => .opCli o
  | .clv => .opClv o
  | .cmp => .opCmp o
  | .cpx => .opCpx o
  | .cpy => .opCpy o
  | .dec => .opDec o
  | .dex => .opDex o
  | .dey => .opDey o
  | .eor => .opEor o
  | .inc => .opInc o
  | .inx => .opInx o
  | .iny => .opIny o
  | .jmp => .opJmp o
  | .jsr => .opJsr o
  | .lda => .opLda o
  | .ldx => .opLdx o
  | .ldy => .opLdy o
  | .lsr => .opLsr o
  | .nop => .opNop o
  | .ora => .opOra o
  | .pha => .opPha o
  | .php => .opPhp o
  | .pla => .opPla o
  | .plp => .opPlp o
  | .rol => .opRol o
  | .ror => .opRor o
  | .rti => .opRti o
  | .rts => .opRts o
  | .sbc => .opSbc o
  | .sec => .opSec o
  | .sed => .opSed o
  | .sei => .opSei o
  | .sta => .opSta o
  | .stx => .opStx o
  | .sty => .opSty o
  | .tax => .opTax o
  | .tay => .opTay o
  | .tsx => .opTsx o
  | .txa => .opTxa o
  | .txs => .opTxs o
  | .tya => .opTya o
  | .illegal => .opIllegal op

/-- Decode a 6502 instruction: the opcode byte selects mnemonic and mode, the mode how many operand bytes follow
(R73, R77). Answers the instruction and the bytes after it. -/
def decodeOpcode : List Byte → Except DecodeError (Instr × List Byte)
  | [] => .error .noByte
  | op :: rest =>
    match (optable op).2.nopnd, rest with
    | 0, rest => .ok (Instr.ofEntry op (optable op).1 (Operand.ofBytes (optable op).2 0 0), rest)
    | 1, b1 :: rest => .ok (Instr.ofEntry op (optable op).1 (Operand.ofBytes (optable op).2 b1 0), rest)
    | 2, b1 :: b2 :: rest => .ok (Instr.ofEntry op (optable op).1 (Operand.ofBytes (optable op).2 b1 b2), rest)
    | _, _ => .error (.missingOperand op)

/-- Decode bytes of a code space: a command is one byte (R70), a 6502 instruction one to three (R73). -/
def decode : Space → List Byte → Except DecodeError (Instr × List Byte)
  | .command, [] => .error .noByte
  | .command, code :: rest => .ok (decodeCommand code, rest)
  | .opcode, bs => decodeOpcode bs

/-- The forms of a mnemonic: each addressing mode with its opcode byte (the tables of R156 to R211). -/
def Mnemonic.forms : Mnemonic → List (Mode × Byte)
  | .adc =>
    [(.indx, 0x61), (.zp, 0x65), (.imm, 0x69), (.abs, 0x6D), (.indy, 0x71), (.zpx, 0x75),
     (.absy, 0x79), (.absx, 0x7D)]
  | .and =>
    [(.indx, 0x21), (.zp, 0x25), (.imm, 0x29), (.abs, 0x2D), (.indy, 0x31), (.zpx, 0x35),
     (.absy, 0x39), (.absx, 0x3D)]
  | .asl =>
    [(.zp, 0x06), (.acc, 0x0A), (.abs, 0x0E), (.zpx, 0x16), (.absx, 0x1E)]
  | .bcc =>
    [(.rel, 0x90)]
  | .bcs =>
    [(.rel, 0xB0)]
  | .beq =>
    [(.rel, 0xF0)]
  | .bit =>
    [(.zp, 0x24), (.abs, 0x2C)]
  | .bmi =>
    [(.rel, 0x30)]
  | .bne =>
    [(.rel, 0xD0)]
  | .bpl =>
    [(.rel, 0x10)]
  | .brk =>
    [(.imp, 0x00)]
  | .bvc =>
    [(.rel, 0x50)]
  | .bvs =>
    [(.rel, 0x70)]
  | .clc =>
    [(.imp, 0x18)]
  | .cld =>
    [(.imp, 0xD8)]
  | .cli =>
    [(.imp, 0x58)]
  | .clv =>
    [(.imp, 0xB8)]
  | .cmp =>
    [(.indx, 0xC1), (.zp, 0xC5), (.imm, 0xC9), (.abs, 0xCD), (.indy, 0xD1), (.zpx, 0xD5),
     (.absy, 0xD9), (.absx, 0xDD)]
  | .cpx =>
    [(.imm, 0xE0), (.zp, 0xE4), (.abs, 0xEC)]
  | .cpy =>
    [(.imm, 0xC0), (.zp, 0xC4), (.abs, 0xCC)]
  | .dec =>
    [(.zp, 0xC6), (.abs, 0xCE), (.zpx, 0xD6), (.absx, 0xDE)]
  | .dex =>
    [(.imp, 0xCA)]
  | .dey =>
    [(.imp, 0x88)]
  | .eor =>
    [(.indx, 0x41), (.zp, 0x45), (.imm, 0x49), (.abs, 0x4D), (.indy, 0x51), (.zpx, 0x55),
     (.absy, 0x59), (.absx, 0x5D)]
  | .inc =>
    [(.zp, 0xE6), (.abs, 0xEE), (.zpx, 0xF6), (.absx, 0xFE)]
  | .inx =>
    [(.imp, 0xE8)]
  | .iny =>
    [(.imp, 0xC8)]
  | .jmp =>
    [(.abs, 0x4C), (.ind, 0x6C)]
  | .jsr =>
    [(.abs, 0x20)]
  | .lda =>
    [(.indx, 0xA1), (.zp, 0xA5), (.imm, 0xA9), (.abs, 0xAD), (.indy, 0xB1), (.zpx, 0xB5),
     (.absy, 0xB9), (.absx, 0xBD)]
  | .ldx =>
    [(.imm, 0xA2), (.zp, 0xA6), (.abs, 0xAE), (.zpy, 0xB6), (.absy, 0xBE)]
  | .ldy =>
    [(.imm, 0xA0), (.zp, 0xA4), (.abs, 0xAC), (.zpx, 0xB4), (.absx, 0xBC)]
  | .lsr =>
    [(.zp, 0x46), (.acc, 0x4A), (.abs, 0x4E), (.zpx, 0x56), (.absx, 0x5E)]
  | .nop =>
    [(.imp, 0xEA)]
  | .ora =>
    [(.indx, 0x01), (.zp, 0x05), (.imm, 0x09), (.abs, 0x0D), (.indy, 0x11), (.zpx, 0x15),
     (.absy, 0x19), (.absx, 0x1D)]
  | .pha =>
    [(.imp, 0x48)]
  | .php =>
    [(.imp, 0x08)]
  | .pla =>
    [(.imp, 0x68)]
  | .plp =>
    [(.imp, 0x28)]
  | .rol =>
    [(.zp, 0x26), (.acc, 0x2A), (.abs, 0x2E), (.zpx, 0x36), (.absx, 0x3E)]
  | .ror =>
    [(.zp, 0x66), (.acc, 0x6A), (.abs, 0x6E), (.zpx, 0x76), (.absx, 0x7E)]
  | .rti =>
    [(.imp, 0x40)]
  | .rts =>
    [(.imp, 0x60)]
  | .sbc =>
    [(.indx, 0xE1), (.zp, 0xE5), (.imm, 0xE9), (.abs, 0xED), (.indy, 0xF1), (.zpx, 0xF5),
     (.absy, 0xF9), (.absx, 0xFD)]
  | .sec =>
    [(.imp, 0x38)]
  | .sed =>
    [(.imp, 0xF8)]
  | .sei =>
    [(.imp, 0x78)]
  | .sta =>
    [(.indx, 0x81), (.zp, 0x85), (.abs, 0x8D), (.indy, 0x91), (.zpx, 0x95), (.absy, 0x99),
     (.absx, 0x9D)]
  | .stx =>
    [(.zp, 0x86), (.abs, 0x8E), (.zpy, 0x96)]
  | .sty =>
    [(.zp, 0x84), (.abs, 0x8C), (.zpx, 0x94)]
  | .tax =>
    [(.imp, 0xAA)]
  | .tay =>
    [(.imp, 0xA8)]
  | .tsx =>
    [(.imp, 0xBA)]
  | .txa =>
    [(.imp, 0x8A)]
  | .txs =>
    [(.imp, 0x9A)]
  | .tya =>
    [(.imp, 0x98)]
  | .illegal => []

/-- The opcode byte of a mnemonic in a mode; none where the mnemonic has no such form. -/
def opcodeOf (m : Mnemonic) (mode : Mode) : Option Byte := m.forms.lookup mode

/-- The bytes of a legal 6502 instruction: opcode, then operand bytes (R73); none where there is no such form. -/
def encodeEntry (m : Mnemonic) (o : Operand) : List Byte :=
  match opcodeOf m o.mode with
  | some op => op :: o.bytes
  | none => []

/-- The bytes of an instruction in its code space (R70, R73). -/
def encode : Instr → List Byte
  | .nop => [0x00]
  | .hdrParse => [0x01]
  | .chrRestart => [0x10]
  | .chrNext => [0x11]
  | .disStart => [0x20]
  | .disNext => [0x21]
  | .ggDecode => [0x30]
  | .ggEncode => [0x31]
  | .prngInit => [0x40]
  | .prngStep => [0x41]
  | .prngSetIt => [0x42]
  | .illegalCommand code => [code]
  | .opAdc o => encodeEntry .adc o
  | .opAnd o => encodeEntry .and o
  | .opAsl o => encodeEntry .asl o
  | .opBcc o => encodeEntry .bcc o
  | .opBcs o => encodeEntry .bcs o
  | .opBeq o => encodeEntry .beq o
  | .opBit o => encodeEntry .bit o
  | .opBmi o => encodeEntry .bmi o
  | .opBne o => encodeEntry .bne o
  | .opBpl o => encodeEntry .bpl o
  | .opBrk o => encodeEntry .brk o
  | .opBvc o => encodeEntry .bvc o
  | .opBvs o => encodeEntry .bvs o
  | .opClc o => encodeEntry .clc o
  | .opCld o => encodeEntry .cld o
  | .opCli o => encodeEntry .cli o
  | .opClv o => encodeEntry .clv o
  | .opCmp o => encodeEntry .cmp o
  | .opCpx o => encodeEntry .cpx o
  | .opCpy o => encodeEntry .cpy o
  | .opDec o => encodeEntry .dec o
  | .opDex o => encodeEntry .dex o
  | .opDey o => encodeEntry .dey o
  | .opEor o => encodeEntry .eor o
  | .opInc o => encodeEntry .inc o
  | .opInx o => encodeEntry .inx o
  | .opIny o => encodeEntry .iny o
  | .opJmp o => encodeEntry .jmp o
  | .opJsr o => encodeEntry .jsr o
  | .opLda o => encodeEntry .lda o
  | .opLdx o => encodeEntry .ldx o
  | .opLdy o => encodeEntry .ldy o
  | .opLsr o => encodeEntry .lsr o
  | .opNop o => encodeEntry .nop o
  | .opOra o => encodeEntry .ora o
  | .opPha o => encodeEntry .pha o
  | .opPhp o => encodeEntry .php o
  | .opPla o => encodeEntry .pla o
  | .opPlp o => encodeEntry .plp o
  | .opRol o => encodeEntry .rol o
  | .opRor o => encodeEntry .ror o
  | .opRti o => encodeEntry .rti o
  | .opRts o => encodeEntry .rts o
  | .opSbc o => encodeEntry .sbc o
  | .opSec o => encodeEntry .sec o
  | .opSed o => encodeEntry .sed o
  | .opSei o => encodeEntry .sei o
  | .opSta o => encodeEntry .sta o
  | .opStx o => encodeEntry .stx o
  | .opSty o => encodeEntry .sty o
  | .opTax o => encodeEntry .tax o
  | .opTay o => encodeEntry .tay o
  | .opTsx o => encodeEntry .tsx o
  | .opTxa o => encodeEntry .txa o
  | .opTxs o => encodeEntry .txs o
  | .opTya o => encodeEntry .tya o
  | .opIllegal op => [op]

/-- The code space in which a word of spec/opcode_table.json is read where the table's row does not say. The table
numbers commands and 6502 opcodes with the same 8 bits, so no reading of the word alone can serve both (log
entry 3, DESIGN CHOICE): a word wider than a byte is the value of a host write to `CMD`, of which only bits 7:0
count (R258); an assigned command code is that command; every other byte is a 6502 opcode. The machine never
asks: `CMD` writes go to `decodeCommand` and the bytes at the decode cursor to `decodeOpcode`. -/
def tableSpace (nbits w : Nat) : Space :=
  if 8 < nbits ∨ commandCodes.contains (BitVec.ofNat 8 w) = true then .command else .opcode

/-- The instruction read from a table word of `nbits` bits, the operand bytes above them zero; none where the word
has no whole byte or is wider than a register write. -/
def decodeTableWord (nbits w : Nat) : Option Instr :=
  if nbits < 8 ∨ 32 < nbits then none else
  match decode (tableSpace nbits w) [BitVec.ofNat 8 w, 0, 0] with
  | .ok (i, _) => some i
  | .error _ => none

end Sys2Proof
end

