-- ==== Sys2Proof/Machine/Operands.lean ====
section
/-! DEFINITION. The numbers of modes and mnemonics, the operand forms and what is computed from them: the packed
operand register, the operand value and the branch target (30_encoding.md R74 to R77, 42_disasm.md R143). -/
namespace Sys2Proof.Machine

/-- The number of a mode, the value of `DIS_MODE` (R74). -/
def modeNumber : Mode → BitVec 4
  | .imp => 0
  | .acc => 1
  | .imm => 2
  | .zp => 3
  | .zpx => 4
  | .zpy => 5
  | .abs => 6
  | .absx => 7
  | .absy => 8
  | .ind => 9
  | .indx => 10
  | .indy => 11
  | .rel => 12

/-- The number of a mnemonic, the value of `DIS_MNEM` (R76). -/
def mnemonicNumber : Mnemonic → BitVec 6
  | .adc => 0
  | .and => 1
  | .asl => 2
  | .bcc => 3
  | .bcs => 4
  | .beq => 5
  | .bit => 6
  | .bmi => 7
  | .bne => 8
  | .bpl => 9
  | .brk => 10
  | .bvc => 11
  | .bvs => 12
  | .clc => 13
  | .cld => 14
  | .cli => 15
  | .clv => 16
  | .cmp => 17
  | .cpx => 18
  | .cpy => 19
  | .dec => 20
  | .dex => 21
  | .dey => 22
  | .eor => 23
  | .inc => 24
  | .inx => 25
  | .iny => 26
  | .jmp => 27
  | .jsr => 28
  | .lda => 29
  | .ldx => 30
  | .ldy => 31
  | .lsr => 32
  | .nop => 33
  | .ora => 34
  | .pha => 35
  | .php => 36
  | .pla => 37
  | .plp => 38
  | .rol => 39
  | .ror => 40
  | .rti => 41
  | .rts => 42
  | .sbc => 43
  | .sec => 44
  | .sed => 45
  | .sei => 46
  | .sta => 47
  | .stx => 48
  | .sty => 49
  | .tax => 50
  | .tay => 51
  | .tsx => 52
  | .txa => 53
  | .txs => 54
  | .tya => 55
  | .illegal => 56

/-- The modes in the order of their numbers (R74). -/
def allModes : List Mode :=
  [.imp, .acc, .imm, .zp, .zpx, .zpy, .abs, .absx, .absy, .ind, .indx, .indy, .rel]

/-- The mnemonics in the order of their numbers (R76). -/
def allMnemonics : List Mnemonic :=
  [.adc, .and, .asl, .bcc, .bcs, .beq, .bit, .bmi, .bne, .bpl, .brk, .bvc, .bvs, .clc, .cld, .cli,
   .clv, .cmp, .cpx, .cpy, .dec, .dex, .dey, .eor, .inc, .inx, .iny, .jmp, .jsr, .lda, .ldx, .ldy,
   .lsr, .nop, .ora, .pha, .php, .pla, .plp, .rol, .ror, .rti, .rts, .sbc, .sec, .sed, .sei, .sta,
   .stx, .sty, .tax, .tay, .tsx, .txa, .txs, .tya, .illegal]

/-- The text of a mnemonic (R76, R82). -/
def mnemonicName : Mnemonic → String
  | .adc => "ADC"
  | .and => "AND"
  | .asl => "ASL"
  | .bcc => "BCC"
  | .bcs => "BCS"
  | .beq => "BEQ"
  | .bit => "BIT"
  | .bmi => "BMI"
  | .bne => "BNE"
  | .bpl => "BPL"
  | .brk => "BRK"
  | .bvc => "BVC"
  | .bvs => "BVS"
  | .clc => "CLC"
  | .cld => "CLD"
  | .cli => "CLI"
  | .clv => "CLV"
  | .cmp => "CMP"
  | .cpx => "CPX"
  | .cpy => "CPY"
  | .dec => "DEC"
  | .dex => "DEX"
  | .dey => "DEY"
  | .eor => "EOR"
  | .inc => "INC"
  | .inx => "INX"
  | .iny => "INY"
  | .jmp => "JMP"
  | .jsr => "JSR"
  | .lda => "LDA"
  | .ldx => "LDX"
  | .ldy => "LDY"
  | .lsr => "LSR"
  | .nop => "NOP"
  | .ora => "ORA"
  | .pha => "PHA"
  | .php => "PHP"
  | .pla => "PLA"
  | .plp => "PLP"
  | .rol => "ROL"
  | .ror => "ROR"
  | .rti => "RTI"
  | .rts => "RTS"
  | .sbc => "SBC"
  | .sec => "SEC"
  | .sed => "SED"
  | .sei => "SEI"
  | .sta => "STA"
  | .stx => "STX"
  | .sty => "STY"
  | .tax => "TAX"
  | .tay => "TAY"
  | .tsx => "TSX"
  | .txa => "TXA"
  | .txs => "TXS"
  | .tya => "TYA"
  | .illegal => "ILLEGAL"

/-- The length in bytes of an instruction in a mode (R77). -/
def encodedLength (mode : Mode) : Nat := 1 + mode.nopnd

/-- The value of `DIS_OPND`: the first operand byte in bits 7:0, the second in bits 15:8, absent bytes 0
(R53, R75). -/
def packOperands (bytes : List Byte) : Half := bytes.getD 1 0 ++ bytes.getD 0 0

/-- The operand value, a display-time quantity: none for no operand, the byte or the 16-bit value unsigned, and a
relative operand as a signed displacement (R75). -/
def opval : Operand → Option Int
  | .imp => none
  | .acc => none
  | .imm b => some b.toNat
  | .zp b => some b.toNat
  | .zpx b => some b.toNat
  | .zpy b => some b.toNat
  | .abs a => some a.toNat
  | .absx a => some a.toNat
  | .absy a => some a.toNat
  | .ind a => some a.toNat
  | .indx b => some b.toNat
  | .indy b => some b.toNat
  | .rel d => some d.toInt

/-- The branch target of a relative entry: an unbounded integer, an offset in the PRG region (R143). -/
def branchTarget (byteOffset : Word) (d : Byte) : Int := (byteOffset.toNat : Int) + encodedLength .rel + d.toInt

end Sys2Proof.Machine
end

