-- ==== Sys2Proof/Machine/Dis.lean ====
section
/-! DEFINITION. `DIS`, the 6502 opcode decoder and instruction dispatcher (42_disasm.md), and the template of the
per-mnemonic decode rules (43_disasm_opcodes.md R155). -/
namespace Sys2Proof.Machine

/-- A decoded entry (R136). Its operand byte count is the length of `operandBytes`. -/
structure Entry where
  byteOffset : Word
  opcode : Byte
  mnemonic : Mnemonic
  mode : Mode
  operandBytes : List Byte
deriving DecidableEq, Repr

/-- What a decode step finds at the cursor (R137). -/
inductive Decoded where
  /-- The region is exhausted. -/
  | stop
  /-- The entry at the cursor is cut off by the region end. -/
  | truncated (cur : Word)
  | entry (e : Entry)
deriving DecidableEq, Repr

/-- `encoded_length` of an entry (R77, R136). -/
def Entry.encodedLength (e : Entry) : Nat := Machine.encodedLength e.mode

/-- The pure decode step over the region `(base, len)` at `cur` (R137): the bound is the region end (R138). -/
def disDecode (base len cur : Word) (s : State) : Except Fault Decoded :=
  if len.toNat ≤ cur.toNat then .ok .stop
  else
    match memRead (base.toNat + cur.toNat) 1 s with
    | .error f => .error f
    | .ok opBytes =>
      let op := opBytes.getD 0 0
      let mode := (optable op).2
      if len.toNat < cur.toNat + 1 + mode.nopnd then .ok (.truncated cur)
      else
        match memRead (base.toNat + cur.toNat + 1) mode.nopnd s with
        | .error f => .error f
        | .ok ob =>
          .ok (.entry { byteOffset := cur, opcode := op, mnemonic := (optable op).1, mode := mode
                        operandBytes := ob })

/-- The DIS registers after an entry is delivered (R141). -/
def entryRegs (e : Entry) (d : DisRegs) : DisRegs :=
  { d with
    off := e.byteOffset
    opc := e.opcode
    mnem := mnemonicNumber e.mnemonic
    mode := modeNumber e.mode
    nopnd := BitVec.ofNat 2 e.operandBytes.length
    opnd := packOperands e.operandBytes
    elen := BitVec.ofNat 2 e.encodedLength
    cur := d.cur + BitVec.ofNat 32 e.encodedLength }

/-- What `DIS_NEXT` does with the result of the decode step (R141). -/
def disFinish (d : Decoded) (s : State) : Result :=
  match d with
  | .stop => finish { s with flags := { s.flags with disEnd := true, disValid := false } }
  | .truncated c =>
    raise .truncatedInstruction c { s with flags := { s.flags with disEnd := true, disValid := false } }
  | .entry e => finish { s with dis := entryRegs e s.dis, flags := { s.flags with disValid := true } }

/-- The checks before the decode step: no open sequence is an error, a stopped one finishes at once (R141). -/
def whenDecoding (s : State) (k : Result) : Result :=
  if s.flags.disReady = false then raise .notInitialised 0x21 s
  else if s.flags.disEnd = true then finish s
  else k

/-- `DIS_START` (R140). -/
def execDisStart (s : State) : Result :=
  if inBuffer s.dis.base s.dis.len s = false then
    raise .regionOutOfBounds (s.dis.base + s.dis.len) { s with flags := s.flags.closeDis }
  else
    finish { s with
      dis := { s.dis with cur := s.arg0 }
      flags := { s.flags with disReady := true, disEnd := false, disValid := false } }

/-- `DIS_NEXT` (R141). -/
def execDisNext (s : State) : Result :=
  whenDecoding s <|
    match disDecode s.dis.base s.dis.len s.dis.cur s with
    | .ok d => disFinish d s
    | .error f => .fault f

/-- The common template (R155): a `DIS_NEXT` that meets opcode `op`, mnemonic `m`, mode `mode` and these operand
bytes at the cursor. -/
def decodeAs (op : Byte) (m : Mnemonic) (mode : Mode) (bytes : List Byte) (s : State) : Result :=
  whenDecoding s <|
    if s.dis.len.toNat ≤ s.dis.cur.toNat then disFinish .stop s
    else if s.dis.len.toNat < s.dis.cur.toNat + encodedLength mode then disFinish (.truncated s.dis.cur) s
    else
      disFinish (.entry { byteOffset := s.dis.cur, opcode := op, mnemonic := m, mode := mode
                          operandBytes := bytes }) s

/-- The template for a mnemonic's form: its opcode byte is the one the mnemonic's table gives the operand's mode.
A mode the mnemonic does not have is no instruction: refused by name. -/
def decodeForm (m : Mnemonic) (o : Operand) (i : Instr) (s : State) : Result :=
  match opcodeOf m o.mode with
  | some op => decodeAs op m o.mode o.bytes s
  | none => .refused (.illFormed i)

end Sys2Proof.Machine
end

