-- ==== Sys2Proof/Machine/Gg.lean ====
section
/-! DEFINITION. `GG`, the Game Genie address, value and compare codec (44_gamegenie.md). -/
namespace Sys2Proof.Machine

/-- The alphabet, the letter at position `k` having the value `k` (R215): `APZLGITYEOXUKSVN` in ASCII. -/
def ggAlphabet : List Byte :=
  [0x41, 0x50, 0x5A, 0x4C, 0x47, 0x49, 0x54, 0x59, 0x45, 0x4F, 0x58, 0x55, 0x4B, 0x53, 0x56, 0x4E]

/-- The uppercase letter of a 4-bit value (R215, R221). -/
def ggLetter (n : Nibble) : Byte := ggAlphabet.getD n.toNat 0

/-- A lowercase ASCII letter. -/
def isLower (ch : Byte) : Bool := decide (0x61 ≤ ch.toNat) && decide (ch.toNat ≤ 0x7A)

/-- The character after case folding, where the implementation folds (R11, R216). -/
def foldCase (fold : Bool) (ch : Byte) : Byte := if (isLower ch && fold) = true then ch - 0x20 else ch

/-- The 4-bit value of a character; none outside the alphabet (R216). -/
def ggNibble (fold : Bool) (ch : Byte) : Option Nibble :=
  (ggAlphabet.findIdx? fun l => l == foldCase fold ch).map (BitVec.ofNat 4)

/-- The nibbles of a code, or the first character outside the alphabet with its index, counted from `i`
(R220, R270). -/
def ggNibbles (fold : Bool) : Nat → List Byte → Except (Nat × Byte) (List Nibble)
  | _, [] => .ok []
  | i, ch :: chs =>
    match ggNibble fold ch with
    | none => .error (i, ch)
    | some n =>
      match ggNibbles fold (i + 1) chs with
      | .ok ns => .ok (n :: ns)
      | .error e => .error e

/-- A Game Genie triple (R18, R36). -/
structure Triple where
  address : Half
  value : Byte
  compare : Option Byte
deriving DecidableEq, Repr

/-- The address of a code's nibbles (R219). -/
def ggAddress (n : Nat → Half) : Half :=
  0x8000#16 ||| ((n 3 &&& 7#16) <<< 12) ||| ((n 4 &&& 8#16) <<< 8) ||| ((n 5 &&& 7#16) <<< 8)
    ||| ((n 1 &&& 8#16) <<< 4) ||| ((n 2 &&& 7#16) <<< 4) ||| (n 3 &&& 8#16) ||| (n 4 &&& 7#16)

/-- The value of a code's nibbles; `last` is n5 of a 6-letter code and n7 of an 8-letter one (R219). -/
def ggValue (n : Nat → Byte) (last : Byte) : Byte :=
  ((n 0 &&& 8#8) <<< 4) ||| ((n 1 &&& 7#8) <<< 4) ||| (n 0 &&& 7#8) ||| (last &&& 8#8)

/-- The compare byte of an 8-letter code's nibbles (R219). -/
def ggCompare (n : Nat → Byte) : Byte :=
  ((n 6 &&& 8#8) <<< 4) ||| ((n 7 &&& 7#8) <<< 4) ||| (n 5 &&& 8#8) ||| (n 6 &&& 7#8)

/-- The triple a code's nibbles carry (R219). -/
def ggFields (ns : List Nibble) : Triple :=
  let n16 := fun k => (ns.getD k 0).setWidth 16
  let n8 := fun k => (ns.getD k 0).setWidth 8
  if ns.length = 8 then { address := ggAddress n16, value := ggValue n8 (n8 7), compare := some (ggCompare n8) }
  else { address := ggAddress n16, value := ggValue n8 (n8 5), compare := none }

/-- The nibbles of a triple's canonical code (R221). -/
def ggEncodeNibbles (a : Half) (v : Byte) (c : Option Byte) : List Nibble :=
  let n0 : Nibble := ((v &&& 7#8) ||| ((v >>> 4) &&& 8#8)).setWidth 4
  let n1 : Nibble := ((v >>> 4) &&& 7#8).setWidth 4 ||| ((a >>> 4) &&& 8#16).setWidth 4
  let n3 : Nibble := (((a >>> 12) &&& 7#16) ||| (a &&& 8#16)).setWidth 4
  let n4 : Nibble := ((a &&& 7#16) ||| ((a >>> 8) &&& 8#16)).setWidth 4
  match c with
  | none =>
    let n2 : Nibble := ((a >>> 4) &&& 7#16).setWidth 4
    let n5 : Nibble := ((a >>> 8) &&& 7#16).setWidth 4 ||| (v &&& 8#8).setWidth 4
    [n0, n1, n2, n3, n4, n5]
  | some c =>
    let n2 : Nibble := (((a >>> 4) &&& 7#16) ||| 8#16).setWidth 4
    let n5 : Nibble := ((a >>> 8) &&& 7#16).setWidth 4 ||| (c &&& 8#8).setWidth 4
    let n6 : Nibble := ((c &&& 7#8) ||| ((c >>> 4) &&& 8#8)).setWidth 4
    let n7 : Nibble := (((c >>> 4) &&& 7#8) ||| (v &&& 8#8)).setWidth 4
    [n0, n1, n2, n3, n4, n5, n6, n7]

/-- The code string in the registers: the first `len` characters (R36). -/
def GgRegs.code (g : GgRegs) (len : Nat) : List Byte := g.char.toList.take len

/-- The triple registers written; a 6-letter code leaves `GG_CMP` 0 (R220). -/
def GgRegs.withTriple (g : GgRegs) (t : Triple) : GgRegs :=
  { g with
    addr := t.address
    val := t.value
    cmp := t.compare.getD 0
    hasCmp := if t.compare.isSome then 1 else 0 }

/-- The triple registers read: `compare` is there when `GG_HASCMP` is 1 (R36). -/
def GgRegs.triple (g : GgRegs) : Triple :=
  { address := g.addr, value := g.val, compare := if g.hasCmp = 1 then some g.cmp else none }

/-- The code registers written with the letters of `ns`; the characters past them are 0x00 (R222). -/
def GgRegs.withCode (g : GgRegs) (ns : List Nibble) : GgRegs :=
  { g with
    char := Bank8.ofFn fun i => (ns.map ggLetter).getD i.val 0
    clen := BitVec.ofNat 4 ns.length }

/-- The error detail of `InvalidCharacter`: the character in bits 15:8, its index in bits 7:0 (R267). -/
def characterInfo (i : Nat) (ch : Byte) : Word := (0 : Half) ++ (ch ++ BitVec.ofNat 8 i)

/-- `GG_DECODE` (R220). -/
def execGgDecode (s : State) : Result :=
  if s.gg.clen ≠ 6 ∧ s.gg.clen ≠ 8 then raise .invalidLength (s.gg.clen.setWidth 32) s
  else
    match ggNibbles s.cfg.ggCaseFold 0 (s.gg.code s.gg.clen.toNat) with
    | .error (i, ch) => raise .invalidCharacter (characterInfo i ch) s
    | .ok ns => finish { s with gg := s.gg.withTriple (ggFields ns) }

/-- `GG_ENCODE` (R222). -/
def execGgEncode (s : State) : Result :=
  if s.gg.addr.getLsbD 15 = false then raise .invalidAddress (s.gg.addr.setWidth 32) s
  else
    finish { s with
      gg := s.gg.withCode (ggEncodeNibbles s.gg.triple.address s.gg.triple.value s.gg.triple.compare) }

end Sys2Proof.Machine
end

