-- ==== Sys2Proof/Machine/Header.lean ====
section
/-! DEFINITION. `HDR`, the iNES header reader (40_header.md). -/
namespace Sys2Proof.Machine

/-- The signature bytes (R101). -/
def signature : List Byte := [0x4E, 0x45, 0x53, 0x1A]

/-- The lowest index from `i` at which the bytes and the signature differ. -/
def firstMismatch (i : Nat) : List Byte → List Byte → Option Nat
  | h :: hs, g :: gs => if h = g then firstMismatch (i + 1) hs gs else some i
  | _, _ => none

/-- The regions a header declares, on unbounded naturals (R103). -/
structure Regions where
  prgOff : Nat
  prgLen : Nat
  chrOff : Nat
  chrLen : Nat
  stop : Nat
deriving DecidableEq, Repr

/-- Byte `i` of the header. -/
def headerByte (h : List Byte) (i : Nat) : Byte := h.getD i 0

/-- The trainer bit, byte 6 bit 2 (R102). -/
def headerTrainer (h : List Byte) : BitVec 1 := (headerByte h 6).extractLsb' 2 1

/-- The mapper number: the high nibble of byte 7 above the high nibble of byte 6 (R104). -/
def headerMapper (h : List Byte) : Byte := (headerByte h 7).extractLsb' 4 4 ++ (headerByte h 6).extractLsb' 4 4

/-- The region arithmetic (R103), with `HEADER_SIZE` 16 and `TRAINER_SIZE` 512 (R9). -/
def headerRegions (c : Config) (h : List Byte) : Regions :=
  let prgOff := 16 + 512 * (headerTrainer h).toNat
  let prgLen := (headerByte h 4).toNat * c.prgBankUnit
  let chrOff := prgOff + prgLen
  let chrLen := (headerByte h 5).toNat * c.chrBankUnit
  { prgOff := prgOff, prgLen := prgLen, chrOff := chrOff, chrLen := chrLen, stop := chrOff + chrLen }

/-- The error detail of `InvalidHeader`: the reason in bits 31:30, the value cut to 30 bits below it (R267). -/
def headerInfo (reason : BitVec 2) (value : Nat) : Word := reason ++ BitVec.ofNat 30 value

/-- `HDR_VALID` cleared and `InvalidHeader` raised (R105). -/
def rejectHeader (reason : BitVec 2) (value : Nat) (s : State) : Result :=
  raise .invalidHeader (headerInfo reason value) { s with flags := s.flags.dropHeader }

/-- The header registers of a parsed header (R102 to R105). -/
def headerRegs (h : List Byte) (r : Regions) : HdrRegs :=
  { prgBanks := headerByte h 4
    chrBanks := headerByte h 5
    trainer := headerTrainer h
    mapper := headerMapper h
    prgOff := BitVec.ofNat 32 r.prgOff
    prgLen := BitVec.ofNat 32 r.prgLen
    chrOff := BitVec.ofNat 32 r.chrOff
    chrLen := BitVec.ofNat 32 r.chrLen }

/-- The header accepted: the header registers written, the regions loaded into `CHR` and `DIS`, and both
sequences closed (R105, R106). -/
def acceptHeader (h : List Byte) (r : Regions) (s : State) : Result :=
  finish { s with
    hdr := headerRegs h r
    chr := { s.chr with base := BitVec.ofNat 32 r.chrOff, len := BitVec.ofNat 32 r.chrLen }
    dis := { s.dis with base := BitVec.ofNat 32 r.prgOff, len := BitVec.ofNat 32 r.prgLen }
    flags := { s.flags with hdrValid := true }.closeChr.closeDis }

/-- `HDR_PARSE` once the eight bytes are read: the signature, then the regions' end (R105, R270). -/
def parseHeader (h : List Byte) (s : State) : Result :=
  match firstMismatch 0 h signature with
  | some i => rejectHeader 0b01 i s
  | none =>
    if (headerRegions s.cfg h).stop ≤ s.bufLen.toNat then acceptHeader h (headerRegions s.cfg h) s
    else rejectHeader 0b10 (headerRegions s.cfg h).stop s

/-- `HDR_PARSE` (R105). -/
def execHdrParse (s : State) : Result :=
  if s.bufLen.toNat < 16 then rejectHeader 0b00 s.bufLen.toNat s
  else withBytes 0 8 s fun h => parseHeader h s

end Sys2Proof.Machine
end

