-- ==== Sys2Proof/Machine/Opcodes.lean ====
section
/-! DEFINITION. What each 6502 instruction does when a `DIS_NEXT` meets it at the decode cursor: one meaning for each
mnemonic (43_disasm_opcodes.md R156 to R212), over the template of R155. Nothing is executed (R2). -/
namespace Sys2Proof.Machine

/-- `ADC`, add with carry (R156). -/
def execOpAdc (o : Operand) (s : State) : Result := decodeForm .adc o (.opAdc o) s

/-- `AND`, logical AND with accumulator (R157). -/
def execOpAnd (o : Operand) (s : State) : Result := decodeForm .and o (.opAnd o) s

/-- `ASL`, arithmetic shift left (R158). -/
def execOpAsl (o : Operand) (s : State) : Result := decodeForm .asl o (.opAsl o) s

/-- `BCC`, branch if carry clear (R159). -/
def execOpBcc (o : Operand) (s : State) : Result := decodeForm .bcc o (.opBcc o) s

/-- `BCS`, branch if carry set (R160). -/
def execOpBcs (o : Operand) (s : State) : Result := decodeForm .bcs o (.opBcs o) s

/-- `BEQ`, branch if equal (zero set) (R161). -/
def execOpBeq (o : Operand) (s : State) : Result := decodeForm .beq o (.opBeq o) s

/-- `BIT`, bit test (R162). -/
def execOpBit (o : Operand) (s : State) : Result := decodeForm .bit o (.opBit o) s

/-- `BMI`, branch if minus (R163). -/
def execOpBmi (o : Operand) (s : State) : Result := decodeForm .bmi o (.opBmi o) s

/-- `BNE`, branch if not equal (zero clear) (R164). -/
def execOpBne (o : Operand) (s : State) : Result := decodeForm .bne o (.opBne o) s

/-- `BPL`, branch if plus (R165). -/
def execOpBpl (o : Operand) (s : State) : Result := decodeForm .bpl o (.opBpl o) s

/-- `BRK`, force break (R166). -/
def execOpBrk (o : Operand) (s : State) : Result := decodeForm .brk o (.opBrk o) s

/-- `BVC`, branch if overflow clear (R167). -/
def execOpBvc (o : Operand) (s : State) : Result := decodeForm .bvc o (.opBvc o) s

/-- `BVS`, branch if overflow set (R168). -/
def execOpBvs (o : Operand) (s : State) : Result := decodeForm .bvs o (.opBvs o) s

/-- `CLC`, clear carry (R169). -/
def execOpClc (o : Operand) (s : State) : Result := decodeForm .clc o (.opClc o) s

/-- `CLD`, clear decimal mode (R170). -/
def execOpCld (o : Operand) (s : State) : Result := decodeForm .cld o (.opCld o) s

/-- `CLI`, clear interrupt disable (R171). -/
def execOpCli (o : Operand) (s : State) : Result := decodeForm .cli o (.opCli o) s

/-- `CLV`, clear overflow (R172). -/
def execOpClv (o : Operand) (s : State) : Result := decodeForm .clv o (.opClv o) s

/-- `CMP`, compare with accumulator (R173). -/
def execOpCmp (o : Operand) (s : State) : Result := decodeForm .cmp o (.opCmp o) s

/-- `CPX`, compare with X (R174). -/
def execOpCpx (o : Operand) (s : State) : Result := decodeForm .cpx o (.opCpx o) s

/-- `CPY`, compare with Y (R175). -/
def execOpCpy (o : Operand) (s : State) : Result := decodeForm .cpy o (.opCpy o) s

/-- `DEC`, decrement memory (R176). -/
def execOpDec (o : Operand) (s : State) : Result := decodeForm .dec o (.opDec o) s

/-- `DEX`, decrement X (R177). -/
def execOpDex (o : Operand) (s : State) : Result := decodeForm .dex o (.opDex o) s

/-- `DEY`, decrement Y (R178). -/
def execOpDey (o : Operand) (s : State) : Result := decodeForm .dey o (.opDey o) s

/-- `EOR`, exclusive OR with accumulator (R179). -/
def execOpEor (o : Operand) (s : State) : Result := decodeForm .eor o (.opEor o) s

/-- `INC`, increment memory (R180). -/
def execOpInc (o : Operand) (s : State) : Result := decodeForm .inc o (.opInc o) s

/-- `INX`, increment X (R181). -/
def execOpInx (o : Operand) (s : State) : Result := decodeForm .inx o (.opInx o) s

/-- `INY`, increment Y (R182). -/
def execOpIny (o : Operand) (s : State) : Result := decodeForm .iny o (.opIny o) s

/-- `JMP`, jump (R183). -/
def execOpJmp (o : Operand) (s : State) : Result := decodeForm .jmp o (.opJmp o) s

/-- `JSR`, jump to subroutine (R184). -/
def execOpJsr (o : Operand) (s : State) : Result := decodeForm .jsr o (.opJsr o) s

/-- `LDA`, load accumulator (R185). -/
def execOpLda (o : Operand) (s : State) : Result := decodeForm .lda o (.opLda o) s

/-- `LDX`, load X (R186). -/
def execOpLdx (o : Operand) (s : State) : Result := decodeForm .ldx o (.opLdx o) s

/-- `LDY`, load Y (R187). -/
def execOpLdy (o : Operand) (s : State) : Result := decodeForm .ldy o (.opLdy o) s

/-- `LSR`, logical shift right (R188). -/
def execOpLsr (o : Operand) (s : State) : Result := decodeForm .lsr o (.opLsr o) s

/-- `NOP`, no operation (R189). -/
def execOpNop (o : Operand) (s : State) : Result := decodeForm .nop o (.opNop o) s

/-- `ORA`, OR with accumulator (R190). -/
def execOpOra (o : Operand) (s : State) : Result := decodeForm .ora o (.opOra o) s

/-- `PHA`, push accumulator (R191). -/
def execOpPha (o : Operand) (s : State) : Result := decodeForm .pha o (.opPha o) s

/-- `PHP`, push processor status (R192). -/
def execOpPhp (o : Operand) (s : State) : Result := decodeForm .php o (.opPhp o) s

/-- `PLA`, pull accumulator (R193). -/
def execOpPla (o : Operand) (s : State) : Result := decodeForm .pla o (.opPla o) s

/-- `PLP`, pull processor status (R194). -/
def execOpPlp (o : Operand) (s : State) : Result := decodeForm .plp o (.opPlp o) s

/-- `ROL`, rotate left (R195). -/
def execOpRol (o : Operand) (s : State) : Result := decodeForm .rol o (.opRol o) s

/-- `ROR`, rotate right (R196). -/
def execOpRor (o : Operand) (s : State) : Result := decodeForm .ror o (.opRor o) s

/-- `RTI`, return from interrupt (R197). -/
def execOpRti (o : Operand) (s : State) : Result := decodeForm .rti o (.opRti o) s

/-- `RTS`, return from subroutine (R198). -/
def execOpRts (o : Operand) (s : State) : Result := decodeForm .rts o (.opRts o) s

/-- `SBC`, subtract with carry (R199). -/
def execOpSbc (o : Operand) (s : State) : Result := decodeForm .sbc o (.opSbc o) s

/-- `SEC`, set carry (R200). -/
def execOpSec (o : Operand) (s : State) : Result := decodeForm .sec o (.opSec o) s

/-- `SED`, set decimal mode (R201). -/
def execOpSed (o : Operand) (s : State) : Result := decodeForm .sed o (.opSed o) s

/-- `SEI`, set interrupt disable (R202). -/
def execOpSei (o : Operand) (s : State) : Result := decodeForm .sei o (.opSei o) s

/-- `STA`, store accumulator (R203). -/
def execOpSta (o : Operand) (s : State) : Result := decodeForm .sta o (.opSta o) s

/-- `STX`, store X (R204). -/
def execOpStx (o : Operand) (s : State) : Result := decodeForm .stx o (.opStx o) s

/-- `STY`, store Y (R205). -/
def execOpSty (o : Operand) (s : State) : Result := decodeForm .sty o (.opSty o) s

/-- `TAX`, transfer A to X (R206). -/
def execOpTax (o : Operand) (s : State) : Result := decodeForm .tax o (.opTax o) s

/-- `TAY`, transfer A to Y (R207). -/
def execOpTay (o : Operand) (s : State) : Result := decodeForm .tay o (.opTay o) s

/-- `TSX`, transfer stack pointer to X (R208). -/
def execOpTsx (o : Operand) (s : State) : Result := decodeForm .tsx o (.opTsx o) s

/-- `TXA`, transfer X to A (R209). -/
def execOpTxa (o : Operand) (s : State) : Result := decodeForm .txa o (.opTxa o) s

/-- `TXS`, transfer X to stack pointer (R210). -/
def execOpTxs (o : Operand) (s : State) : Result := decodeForm .txs o (.opTxs o) s

/-- `TYA`, transfer Y to A (R211). -/
def execOpTya (o : Operand) (s : State) : Result := decodeForm .tya o (.opTya o) s

/-- `ILLEGAL`, the explicit illegal-opcode marker (R212): a 1-byte entry that keeps the byte. -/
def execOpIllegal (op : Byte) (s : State) : Result := decodeAs op .illegal .imp [] s

end Sys2Proof.Machine
end

