-- ==== Sys2Proof/Machine/Prng.lean ====
section
/-! DEFINITION. `PRNG`, the NES LFSR sequence generator (45_prng.md). -/
namespace Sys2Proof.Machine

/-- The reference instance of the transition, for test vectors only (R236). -/
def prngRef (s : Half) : Half :=
  (s >>> 1) ||| ((BitVec.ofBool (s.getLsbD 1 ^^ s.getLsbD 9)).setWidth 16 <<< 15)

/-- `prng_step`, the implementation's transition (R10, R236). -/
def prngStep (c : Config) : Half → Half :=
  match c.prng with
  | .parameter => Config.prngOpen
  | .reference => prngRef

/-- `iter(f, k, s)`: `k` applications of the transition (R237). -/
def iter (f : Half → Half) : Nat → Half → Half
  | 0, s => s
  | k + 1, s => f (iter f k s)

/-- The PRNG registers set `n` transitions from the seed (R238, R239). -/
def prngFrom (c : Config) (seed n : Half) : PrngRegs :=
  { seed := seed, iter := n, state := iter (prngStep c) n.toNat seed }

/-- `PRNG_INIT` (R238). -/
def execPrngInit (s : State) : Result :=
  finish { s with
    prng := prngFrom s.cfg (s.arg0.setWidth 16) (s.arg1.setWidth 16)
    flags := { s.flags with prngValid := true } }

/-- `PRNG_SET_IT` (R239). -/
def execPrngSetIt (s : State) : Result :=
  if s.flags.prngValid = false then raise .notInitialised 0x42 s
  else finish { s with prng := prngFrom s.cfg s.prng.seed (s.arg0.setWidth 16) }

/-- `PRNG_STEP` (R240): the iteration count wraps. -/
def execPrngStep (s : State) : Result :=
  if s.flags.prngValid = false then raise .notInitialised 0x41 s
  else
    finish { s with
      prng := { s.prng with state := prngStep s.cfg s.prng.state, iter := s.prng.iter + 1 } }

end Sys2Proof.Machine
end

