-- ==== Sys2Proof/Machine/Dispatch.lean ====
section
/-! DEFINITION. The meaning of every instruction, by constructor. -/
namespace Sys2Proof.Machine

def exec (i : Instr) (s : State) : Host.Outcome State Fault Refusal :=
  match i with
  | .nop => Sys2Proof.Machine.execNop s
  | .hdrParse => Sys2Proof.Machine.execHdrParse s
  | .chrRestart => Sys2Proof.Machine.execChrRestart s
  | .chrNext => Sys2Proof.Machine.execChrNext s
  | .disStart => Sys2Proof.Machine.execDisStart s
  | .disNext => Sys2Proof.Machine.execDisNext s
  | .ggDecode => Sys2Proof.Machine.execGgDecode s
  | .ggEncode => Sys2Proof.Machine.execGgEncode s
  | .prngInit => Sys2Proof.Machine.execPrngInit s
  | .prngStep => Sys2Proof.Machine.execPrngStep s
  | .prngSetIt => Sys2Proof.Machine.execPrngSetIt s
  | .illegalCommand code => Sys2Proof.Machine.execIllegalCommand code s
  | .opAdc o => Sys2Proof.Machine.execOpAdc o s
  | .opAnd o => Sys2Proof.Machine.execOpAnd o s
  | .opAsl o => Sys2Proof.Machine.execOpAsl o s
  | .opBcc o => Sys2Proof.Machine.execOpBcc o s
  | .opBcs o => Sys2Proof.Machine.execOpBcs o s
  | .opBeq o => Sys2Proof.Machine.execOpBeq o s
  | .opBit o => Sys2Proof.Machine.execOpBit o s
  | .opBmi o => Sys2Proof.Machine.execOpBmi o s
  | .opBne o => Sys2Proof.Machine.execOpBne o s
  | .opBpl o => Sys2Proof.Machine.execOpBpl o s
  | .opBrk o => Sys2Proof.Machine.execOpBrk o s
  | .opBvc o => Sys2Proof.Machine.execOpBvc o s
  | .opBvs o => Sys2Proof.Machine.execOpBvs o s
  | .opClc o => Sys2Proof.Machine.execOpClc o s
  | .opCld o => Sys2Proof.Machine.execOpCld o s
  | .opCli o => Sys2Proof.Machine.execOpCli o s
  | .opClv o => Sys2Proof.Machine.execOpClv o s
  | .opCmp o => Sys2Proof.Machine.execOpCmp o s
  | .opCpx o => Sys2Proof.Machine.execOpCpx o s
  | .opCpy o => Sys2Proof.Machine.execOpCpy o s
  | .opDec o => Sys2Proof.Machine.execOpDec o s
  | .opDex o => Sys2Proof.Machine.execOpDex o s
  | .opDey o => Sys2Proof.Machine.execOpDey o s
  | .opEor o => Sys2Proof.Machine.execOpEor o s
  | .opInc o => Sys2Proof.Machine.execOpInc o s
  | .opInx o => Sys2Proof.Machine.execOpInx o s
  | .opIny o => Sys2Proof.Machine.execOpIny o s
  | .opJmp o => Sys2Proof.Machine.execOpJmp o s
  | .opJsr o => Sys2Proof.Machine.execOpJsr o s
  | .opLda o => Sys2Proof.Machine.execOpLda o s
  | .opLdx o => Sys2Proof.Machine.execOpLdx o s
  | .opLdy o => Sys2Proof.Machine.execOpLdy o s
  | .opLsr o => Sys2Proof.Machine.execOpLsr o s
  | .opNop o => Sys2Proof.Machine.execOpNop o s
  | .opOra o => Sys2Proof.Machine.execOpOra o s
  | .opPha o => Sys2Proof.Machine.execOpPha o s
  | .opPhp o => Sys2Proof.Machine.execOpPhp o s
  | .opPla o => Sys2Proof.Machine.execOpPla o s
  | .opPlp o => Sys2Proof.Machine.execOpPlp o s
  | .opRol o => Sys2Proof.Machine.execOpRol o s
  | .opRor o => Sys2Proof.Machine.execOpRor o s
  | .opRti o => Sys2Proof.Machine.execOpRti o s
  | .opRts o => Sys2Proof.Machine.execOpRts o s
  | .opSbc o => Sys2Proof.Machine.execOpSbc o s
  | .opSec o => Sys2Proof.Machine.execOpSec o s
  | .opSed o => Sys2Proof.Machine.execOpSed o s
  | .opSei o => Sys2Proof.Machine.execOpSei o s
  | .opSta o => Sys2Proof.Machine.execOpSta o s
  | .opStx o => Sys2Proof.Machine.execOpStx o s
  | .opSty o => Sys2Proof.Machine.execOpSty o s
  | .opTax o => Sys2Proof.Machine.execOpTax o s
  | .opTay o => Sys2Proof.Machine.execOpTay o s
  | .opTsx o => Sys2Proof.Machine.execOpTsx o s
  | .opTxa o => Sys2Proof.Machine.execOpTxa o s
  | .opTxs o => Sys2Proof.Machine.execOpTxs o s
  | .opTya o => Sys2Proof.Machine.execOpTya o s
  | .opIllegal op => Sys2Proof.Machine.execOpIllegal op s

end Sys2Proof.Machine
end

