-- ==== Sys2Proof/Machine/Registers.lean ====
section
/-! DEFINITION. The register map (10_state.md R24): numbers, the valid bits that gate reads (R21, R25), what a read
returns and what a host write stores (R26 to R32). -/
namespace Sys2Proof.Machine

/-- The number of a register (R24). -/
def Reg.number : Reg → Byte
  | .cmd => 0x00
  | .status => 0x01
  | .errinfo => 0x02
  | .bufLen => 0x03
  | .arg0 => 0x04
  | .arg1 => 0x05
  | .flags => 0x06
  | .hdrPrgBanks => 0x08
  | .hdrChrBanks => 0x09
  | .hdrTrainer => 0x0A
  | .hdrMapper => 0x0B
  | .hdrPrgOff => 0x0C
  | .hdrPrgLen => 0x0D
  | .hdrChrOff => 0x0E
  | .hdrChrLen => 0x0F
  | .chrBase => 0x10
  | .chrLen => 0x11
  | .chrCur => 0x12
  | .chrCount => 0x13
  | .chrTileIdx => 0x14
  | .chrRow r => 0x18 + BitVec.ofNat 8 r.val
  | .disBase => 0x20
  | .disLen => 0x21
  | .disCur => 0x22
  | .disOff => 0x23
  | .disOpc => 0x24
  | .disMnem => 0x25
  | .disMode => 0x26
  | .disNopnd => 0x27
  | .disOpnd => 0x28
  | .disElen => 0x29
  | .ggChar i => 0x30 + BitVec.ofNat 8 i.val
  | .ggClen => 0x38
  | .ggAddr => 0x39
  | .ggVal => 0x3A
  | .ggCmp => 0x3B
  | .ggHasCmp => 0x3C
  | .prngSeed => 0x40
  | .prngIter => 0x41
  | .prngState => 0x42

/-- Every register of the map, in the order of R24. -/
def allRegs : List Reg :=
  [.cmd, .status, .errinfo, .bufLen, .arg0, .arg1, .flags,
   .hdrPrgBanks, .hdrChrBanks, .hdrTrainer, .hdrMapper, .hdrPrgOff, .hdrPrgLen, .hdrChrOff, .hdrChrLen,
   .chrBase, .chrLen, .chrCur, .chrCount, .chrTileIdx,
   .chrRow 0, .chrRow 1, .chrRow 2, .chrRow 3, .chrRow 4, .chrRow 5, .chrRow 6, .chrRow 7,
   .disBase, .disLen, .disCur, .disOff, .disOpc, .disMnem, .disMode, .disNopnd, .disOpnd, .disElen,
   .ggChar 0, .ggChar 1, .ggChar 2, .ggChar 3, .ggChar 4, .ggChar 5, .ggChar 6, .ggChar 7,
   .ggClen, .ggAddr, .ggVal, .ggCmp, .ggHasCmp, .prngSeed, .prngIter, .prngState]

/-- The register of a number; none for a reserved number (R26). -/
def regOf (n : Byte) : Option Reg := allRegs.find? fun r => r.number == n

/-- A read of the register is not gated, or its valid bit is 1 (R21, R25). -/
def Reg.readable (f : Flags) : Reg → Bool
  | .hdrPrgBanks => f.hdrValid
  | .hdrChrBanks => f.hdrValid
  | .hdrTrainer => f.hdrValid
  | .hdrMapper => f.hdrValid
  | .hdrPrgOff => f.hdrValid
  | .hdrPrgLen => f.hdrValid
  | .hdrChrOff => f.hdrValid
  | .hdrChrLen => f.hdrValid
  | .chrTileIdx => f.tileValid
  | .chrRow _ => f.tileValid
  | .disOff => f.disValid
  | .disOpc => f.disValid
  | .disMnem => f.disValid
  | .disMode => f.disValid
  | .disNopnd => f.disValid
  | .disOpnd => f.disValid
  | .disElen => f.disValid
  | .prngSeed => f.prngValid
  | .prngIter => f.prngValid
  | .prngState => f.prngValid
  | .cmd => true
  | .status => true
  | .errinfo => true
  | .bufLen => true
  | .arg0 => true
  | .arg1 => true
  | .flags => true
  | .chrBase => true
  | .chrLen => true
  | .chrCur => true
  | .chrCount => true
  | .disBase => true
  | .disLen => true
  | .disCur => true
  | .ggChar _ => true
  | .ggClen => true
  | .ggAddr => true
  | .ggVal => true
  | .ggCmp => true
  | .ggHasCmp => true

/-- The value a register holds, zero-extended to the host's 32 bits (R24). -/
def Reg.value (s : State) : Reg → Word
  | .cmd => s.cmd.setWidth 32
  | .status => s.status.setWidth 32
  | .errinfo => s.errinfo
  | .bufLen => s.bufLen
  | .arg0 => s.arg0
  | .arg1 => s.arg1
  | .flags => s.flags.word.setWidth 32
  | .hdrPrgBanks => s.hdr.prgBanks.setWidth 32
  | .hdrChrBanks => s.hdr.chrBanks.setWidth 32
  | .hdrTrainer => s.hdr.trainer.setWidth 32
  | .hdrMapper => s.hdr.mapper.setWidth 32
  | .hdrPrgOff => s.hdr.prgOff
  | .hdrPrgLen => s.hdr.prgLen
  | .hdrChrOff => s.hdr.chrOff
  | .hdrChrLen => s.hdr.chrLen
  | .chrBase => s.chr.base
  | .chrLen => s.chr.len
  | .chrCur => s.chr.cur
  | .chrCount => s.chr.count
  | .chrTileIdx => s.chr.tileIdx
  | .chrRow r => (s.chr.row.get r).setWidth 32
  | .disBase => s.dis.base
  | .disLen => s.dis.len
  | .disCur => s.dis.cur
  | .disOff => s.dis.off
  | .disOpc => s.dis.opc.setWidth 32
  | .disMnem => s.dis.mnem.setWidth 32
  | .disMode => s.dis.mode.setWidth 32
  | .disNopnd => s.dis.nopnd.setWidth 32
  | .disOpnd => s.dis.opnd.setWidth 32
  | .disElen => s.dis.elen.setWidth 32
  | .ggChar i => (s.gg.char.get i).setWidth 32
  | .ggClen => s.gg.clen.setWidth 32
  | .ggAddr => s.gg.addr.setWidth 32
  | .ggVal => s.gg.val.setWidth 32
  | .ggCmp => s.gg.cmp.setWidth 32
  | .ggHasCmp => s.gg.hasCmp.setWidth 32
  | .prngSeed => s.prng.seed.setWidth 32
  | .prngIter => s.prng.iter.setWidth 32
  | .prngState => s.prng.state.setWidth 32

/-- `BUF_LEN` holds the written value or the capacity, whichever is less (R27). -/
def clampLen (c : Config) (v : Word) : Word := BitVec.ofNat 32 (min v.toNat c.bufSize)

/-- A host write of a register other than `CMD`: the low bits are kept (R28), a read-only register ignores it
(R26), and the writes of R29 to R31 close what they concern. The write of `CMD` is `commandCycle`. -/
def writeReg (v : Word) (s : State) : Reg → State
  | .bufLen => { s with bufLen := clampLen s.cfg v, flags := s.flags.invalidate }
  | .arg0 => { s with arg0 := v }
  | .arg1 => { s with arg1 := v }
  | .chrBase => { s with chr := { s.chr with base := v }, flags := s.flags.closeChr }
  | .chrLen => { s with chr := { s.chr with len := v }, flags := s.flags.closeChr }
  | .disBase => { s with dis := { s.dis with base := v }, flags := s.flags.closeDis }
  | .disLen => { s with dis := { s.dis with len := v }, flags := s.flags.closeDis }
  | .ggChar i => { s with gg := { s.gg with char := s.gg.char.set i (v.setWidth 8) } }
  | .ggClen => { s with gg := { s.gg with clen := v.setWidth 4 } }
  | .ggAddr => { s with gg := { s.gg with addr := v.setWidth 16 } }
  | .ggVal => { s with gg := { s.gg with val := v.setWidth 8 } }
  | .ggCmp => { s with gg := { s.gg with cmp := v.setWidth 8 } }
  | .ggHasCmp => { s with gg := { s.gg with hasCmp := v.setWidth 1 } }
  | .cmd => s
  | .status => s
  | .errinfo => s
  | .flags => s
  | .hdrPrgBanks => s
  | .hdrChrBanks => s
  | .hdrTrainer => s
  | .hdrMapper => s
  | .hdrPrgOff => s
  | .hdrPrgLen => s
  | .hdrChrOff => s
  | .hdrChrLen => s
  | .chrCur => s
  | .chrCount => s
  | .chrTileIdx => s
  | .chrRow _ => s
  | .disCur => s
  | .disOff => s
  | .disOpc => s
  | .disMnem => s
  | .disMode => s
  | .disNopnd => s
  | .disOpnd => s
  | .disElen => s
  | .prngSeed => s
  | .prngIter => s
  | .prngState => s

end Sys2Proof.Machine
end

