-- ==== Sys2Proof/Machine/Access.lean ====
section
/-! DEFINITION. The four primitives of the host (20_memory.md R51), the command cycle (46_control.md R258), the reset
event (70_reset_and_hazards.md R290), and what each does as the machine's next event. -/
namespace Sys2Proof.Machine

/-- `HostWriteBuf(a, v)`: it invalidates what was derived from the buffer (R29); past the capacity it is ignored
(R51). -/
def hostWriteBuf (a : Word) (v : Byte) (s : State) : State :=
  if a.toNat < s.cfg.bufSize then { s with ibuf := s.ibuf.write a.toNat v, flags := s.flags.invalidate } else s

/-- `HostReadBuf(a)`: the byte, a fault where nothing wrote it since reset, and 0 past the capacity (R51). -/
def hostReadBuf (a : Word) (s : State) : Except Fault Word :=
  if a.toNat < s.cfg.bufSize then
    match s.ibuf.read a.toNat with
    | some b => .ok (b.setWidth 32)
    | none => .error (.unwrittenByte a.toNat)
  else .ok 0

/-- The command cycle (R258): `CMD` takes bits 7:0 of the value, and that code's command runs. -/
def commandCycle (v : Word) (s : State) : Result :=
  exec (decodeCommand (v.setWidth 8)) { s with cmd := v.setWidth 8 }

/-- `HostWrite(n, v)` (R51): a command for register 0x00, a register write for another of the map, nothing for a
reserved number (R26). -/
def hostWrite (n : Byte) (v : Word) (s : State) : Result :=
  match regOf n with
  | none => .next s
  | some .cmd => commandCycle v s
  | some r => .next (writeReg v s r)

/-- `HostRead(n)` (R51): the register's value, a fault where its valid bit is 0 (R21), 0 for a reserved number
(R26). -/
def hostRead (n : Byte) (s : State) : Except Fault Word :=
  match regOf n with
  | none => .ok 0
  | some r => if r.readable s.flags = true then .ok (r.value s) else .error (.unreadableRegister r)

/-- `Reset` (R290): every register at its reset value and no byte of `IBUF` written (R292). The parameters, the
host's remaining accesses and what it has read are no state of the block and stay. -/
def resetBlock (s : State) : State :=
  { State.reset with cfg := s.cfg, pending := s.pending, reads := s.reads }

/-- A host read ends with its value handed to the host; nothing else changes (R56). -/
def recordRead (s : State) (r : Except Fault Word) : Result :=
  match r with
  | .ok v => .next { s with reads := v :: s.reads }
  | .error f => .fault f

/-- One access of the host. -/
def perform (e : Event) (s : State) : Result :=
  match e with
  | .writeBuf a v => .next (hostWriteBuf a v s)
  | .readBuf a => recordRead s (hostReadBuf a s)
  | .write n v => hostWrite n v s
  | .read n => recordRead s (hostRead n s)
  | .reset => .next (resetBlock s)

/-- The machine's next step: the host's next access. With none the block holds its state and does nothing
(R281, R293). A state that holds a value the spec says is never produced is refused (U6). -/
def nextAccess (s : State) : Result :=
  if s.holdsUnproduced = true then .refused .neverProduced
  else
    match s.pending with
    | [] => .next s
    | e :: rest => perform e { s with pending := rest }

/-- The host about to write a command value: the next access is that write. -/
def placeCommand (v : Word) (s : State) : State := { s with pending := .write 0x00 v :: s.pending }

/-- The decode sequence open at the start of a region that holds exactly these instruction bytes, with `DIS_NEXT` as
the host's next access. -/
def placeEntry (bytes : List Byte) (s : State) : State :=
  placeCommand 0x21 { s with
    ibuf := s.ibuf.writeList 0 bytes
    bufLen := BitVec.ofNat 32 (max s.bufLen.toNat bytes.length)
    dis := { s.dis with base := 0, len := BitVec.ofNat 32 bytes.length, cur := 0 }
    flags := { s.flags with disReady := true, disEnd := false } }

/-- A table word placed where the machine takes its next instruction from (see `tableSpace`). -/
def placeWord (nbits w : Nat) (s : State) : State :=
  match tableSpace nbits w with
  | .command => placeCommand (BitVec.ofNat 32 w) s
  | .opcode => placeEntry ((BitVec.ofNat 8 w) :: List.replicate (optable (BitVec.ofNat 8 w)).2.nopnd 0) s

end Sys2Proof.Machine
end

