-- ==== Sys2Proof/Machine/Step.lean ====
section
/-! DEFINITION. One step of the machine, and an instruction placed where the next step takes it from. -/
namespace Sys2Proof.Machine

/-- One step: the host's next access to the block (R16, R19, R59). -/
def step (s : State) : Host.Outcome State Fault Refusal := nextAccess s

/-- The state with a table word as its next instruction: a command code as the host's next write of `CMD`; a 6502
opcode, its operand bytes zero, at the cursor of an open decode sequence, with `DIS_NEXT` as the host's next
command (log entry 4). -/
def State.withFetchWord (s : State) (nbits w : Nat) : State := placeWord nbits w s

end Sys2Proof.Machine
end

