-- ==== Sys2Proof/Machine/Artifact.lean ====
section
/-! DEFINITION. The artifacts the host composes from what it reads out (00_scope.md R4): the tile image (41_chr.md
R121) and the disassembly listing (30_encoding.md R82, 42_disasm.md R144), as pure functions. -/
namespace Sys2Proof.Machine

/-- A tile as the host reads it: the eight row registers (R34). -/
abbrev Tile := Bank8 Half

/-- The pixel index of row `r`, column `c` of a tile read out (R117). -/
def tilePixel (t : Tile) (r c : Nat) : BitVec 2 := (t.toList.getD r 0).extractLsb' (2 * c) 2

/-- The width of the image in pixels (R121). -/
def imageWidth (gridW : Nat) : Nat := 8 * gridW

/-- The height of the image of `n` tiles in pixels: eight for each grid row begun (R121). -/
def imageHeight (gridW n : Nat) : Nat := 8 * ((n + gridW - 1) / gridW)

/-- The pixel at line `y`, column `x`: the grid is filled row by row in source order, an empty cell has index 0
(R121). -/
def imagePixel (gridW : Nat) (tiles : List Tile) (y x : Nat) : BitVec 2 :=
  match tiles[(y / 8) * gridW + x / 8]? with
  | some t => tilePixel t (y % 8) (x % 8)
  | none => 0

/-- The image of a tile sequence, line by line (R121). -/
def image (gridW : Nat) (tiles : List Tile) : List (List (BitVec 2)) :=
  (List.range (imageHeight gridW tiles.length)).map fun y =>
    (List.range (imageWidth gridW)).map fun x => imagePixel gridW tiles y x

/-- An uppercase hexadecimal digit. -/
def hexDigit (n : Nat) : Char :=
  ['0', '1', '2', '3', '4', '5', '6', '7', '8', '9', 'A', 'B', 'C', 'D', 'E', 'F'].getD n '0'

/-- The hexadecimal digits of a number below `16 ^ fuel`. -/
def hexDigits : Nat → Nat → List Char
  | 0, _ => []
  | fuel + 1, n => if n < 16 then [hexDigit n] else hexDigits fuel (n / 16) ++ [hexDigit (n % 16)]

/-- A number in at least `width` uppercase hexadecimal digits, zero-padded (R82, R144). Sixteen digits hold every
offset, operand and branch target of the block. -/
def hexText (width n : Nat) : String :=
  String.ofList (List.replicate (width - (hexDigits 16 n).length) '0' ++ hexDigits 16 n)

/-- A branch target as `$` and at least four digits, a negative one as `-$` and its magnitude (R144). -/
def targetText (t : Int) : String :=
  if t < 0 then "-$" ++ hexText 4 t.natAbs else "$" ++ hexText 4 t.natAbs

/-- An operand in the listing syntax of its mode; none where the mode has no operand text (R74, R82, R144). -/
def operandText (byteOffset : Word) : Operand → Option String
  | .imp => none
  | .acc => some "A"
  | .imm b => some ("#$" ++ hexText 2 b.toNat)
  | .zp b => some ("$" ++ hexText 2 b.toNat)
  | .zpx b => some ("$" ++ hexText 2 b.toNat ++ ",X")
  | .zpy b => some ("$" ++ hexText 2 b.toNat ++ ",Y")
  | .abs a => some ("$" ++ hexText 4 a.toNat)
  | .absx a => some ("$" ++ hexText 4 a.toNat ++ ",X")
  | .absy a => some ("$" ++ hexText 4 a.toNat ++ ",Y")
  | .ind a => some ("($" ++ hexText 4 a.toNat ++ ")")
  | .indx b => some ("($" ++ hexText 2 b.toNat ++ ",X)")
  | .indy b => some ("($" ++ hexText 2 b.toNat ++ "),Y")
  | .rel d => some (targetText (branchTarget byteOffset d))

/-- The operand of an entry, from its mode and raw bytes (R75). -/
def Entry.operand (e : Entry) : Operand :=
  Operand.ofBytes e.mode (e.operandBytes.getD 0 0) (e.operandBytes.getD 1 0)

/-- The instruction text of an entry: the mnemonic, then a space and the operand where the mode has one (R82). -/
def instructionText (e : Entry) : String :=
  match operandText e.byteOffset e.operand with
  | some t => mnemonicName e.mnemonic ++ " " ++ t
  | none => mnemonicName e.mnemonic

/-- The bytes of an entry as two-digit numbers, separated by single spaces, padded to eight characters (R144). -/
def bytesText (e : Entry) : String :=
  let t := " ".intercalate ((e.opcode :: e.operandBytes).map fun b => hexText 2 b.toNat)
  t ++ String.ofList (List.replicate (8 - t.length) ' ')

/-- The listing line of an entry, without its line end (R144). -/
def listingLine (e : Entry) : String :=
  hexText 4 e.byteOffset.toNat ++ "  " ++ bytesText e ++ "  " ++ instructionText e

/-- The listing of entries in order, each line ended by LF (R144). -/
def listing (es : List Entry) : String := String.join (es.map fun e => listingLine e ++ "\n")

end Sys2Proof.Machine
end

