-- ==== Sys2Proof/Machine/Engine.lean ====
section
/-! DEFINITION. The host's side: its program lines (30_encoding.md R84), and the engine procedures, each made of host
accesses (41_chr.md R122, 42_disasm.md R145, 44_gamegenie.md R224, 45_prng.md R242, 46_control.md R257). -/
namespace Sys2Proof.Machine

/-- A line of a host program (R84). -/
inductive HostLine where
  /-- `WB a: b0 b1 ...` -/
  | wb (a : Nat) (bytes : List Byte)
  /-- `FILL a, n, b` -/
  | fill (a n : Nat) (b : Byte)
  /-- `WR NAME, v` -/
  | wr (r : Reg) (v : Word)
  /-- `CMD NAME`, the name given as the command it names -/
  | cmd (i : Instr)
  /-- `RD NAME` -/
  | rd (r : Reg)
deriving DecidableEq, Repr

/-- Byte writes at rising addresses from `a` (R84), the sums unbounded (R13). A write at an address past the 32 bits of
R50 is past every capacity, so it is ignored (R51) and stands for no access (log entry 12, DEDUCED). -/
def writeEvents : Nat → List Byte → List Event
  | _, [] => []
  | a, b :: bs => if a < 2 ^ 32 then .writeBuf (BitVec.ofNat 32 a) b :: writeEvents (a + 1) bs else []

/-- The accesses a line stands for, in order: its encoding (R84). -/
def HostLine.events : HostLine → List Event
  | .wb a bytes => writeEvents a bytes
  | .fill a n b => writeEvents a (List.replicate n b)
  | .wr r v => [.write r.number v]
  | .cmd i => [.write 0x00 (((encode i).getD 0 0).setWidth 32)]
  | .rd r => [.read r.number]

/-- A host program put before the machine, after the accesses already pending: how a program comes to run (log
entry 4). -/
def State.withProgram (s : State) (lines : List HostLine) : State :=
  { s with pending := s.pending ++ lines.flatMap HostLine.events }

/-- Why a host procedure ends early: the model stopped at one of its accesses, or its loop used up its bound. -/
inductive Stop where
  | fault (f : Fault)
  | refused (r : Refusal)
  | outOfFuel
deriving DecidableEq, Repr

/-- What a host procedure ends with: the state, the artifact, and the error kind with its detail. A truncated
disassembly has both an artifact and an error (R257). -/
structure Report (α : Type) where
  final : State
  artifact : Option α
  error : Option (Byte × Word)
deriving DecidableEq, Repr

/-- One host access as a stage of a procedure. -/
def access (r : Result) : Except Stop State :=
  match r with
  | .next s => .ok s
  | .fault f => .error (.fault f)
  | .refused r => .error (.refused r)

/-- `CMD` with a code: a host write of register 0x00. -/
def runCommand (code : Byte) (s : State) : Except Stop State := access (hostWrite 0x00 (code.setWidth 32) s)

/-- `WR r, v`. -/
def putReg (r : Reg) (v : Word) (s : State) : Except Stop State := access (hostWrite r.number v s)

/-- `RD r`. -/
def getReg (r : Reg) (s : State) : Except Stop Word :=
  match hostRead r.number s with
  | .ok v => .ok v
  | .error f => .error (.fault f)

/-- The error of the last command, where `STATUS` is not 0 (R257, R268). -/
def errorOf (s : State) : Option (Byte × Word) := if s.status = 0 then none else some (s.status, s.errinfo)

/-- `RD CHR_ROW0` to `RD CHR_ROW7`. -/
def readTile (s : State) : Except Stop Tile := do
  let r0 ← getReg (.chrRow 0) s
  let r1 ← getReg (.chrRow 1) s
  let r2 ← getReg (.chrRow 2) s
  let r3 ← getReg (.chrRow 3) s
  let r4 ← getReg (.chrRow 4) s
  let r5 ← getReg (.chrRow 5) s
  let r6 ← getReg (.chrRow 6) s
  let r7 ← getReg (.chrRow 7) s
  return { r0 := r0.setWidth 16, r1 := r1.setWidth 16, r2 := r2.setWidth 16, r3 := r3.setWidth 16
           r4 := r4.setWidth 16, r5 := r5.setWidth 16, r6 := r6.setWidth 16, r7 := r7.setWidth 16 }

/-- Repeat `CMD CHR_NEXT` until `CHR_END`, collecting the tiles in order; at most `fuel` commands (R122). -/
def collectTiles : Nat → List Tile → State → Except Stop (List Tile × State)
  | 0, _, _ => .error .outOfFuel
  | fuel + 1, tiles, s => do
    let s ← runCommand 0x11 s
    if s.flags.chrEnd then return (tiles, s)
    else if s.flags.tileValid then
      let t ← readTile s
      collectTiles fuel (tiles ++ [t]) s
    else collectTiles fuel tiles s

/-- The CHR engine's `execute()`: the tiles and their image, or the error of `CHR_RESTART` (R122). -/
def chrExecute (s : State) : Except Stop (Report (List Tile × List (List (BitVec 2)))) := do
  let s ← runCommand 0x10 s
  if s.status ≠ 0 then return { final := s, artifact := none, error := errorOf s }
  else
    let (tiles, t) ← collectTiles (s.chr.count.toNat + 1) [] s
    return { final := t, artifact := some (tiles, image t.cfg.gridW tiles), error := none }

/-- The entry the host reads out of the DIS registers (R35). -/
def readEntry (s : State) : Except Stop Entry := do
  let off ← getReg .disOff s
  let opc ← getReg .disOpc s
  let mnem ← getReg .disMnem s
  let mode ← getReg .disMode s
  let nopnd ← getReg .disNopnd s
  let opnd ← getReg .disOpnd s
  return { byteOffset := off, opcode := opc.setWidth 8
           mnemonic := allMnemonics.getD mnem.toNat .illegal, mode := allModes.getD mode.toNat .imp
           operandBytes := [opnd.setWidth 8, (opnd >>> 8).setWidth 8].take nopnd.toNat }

/-- Repeat `CMD DIS_NEXT` until `DIS_END`, collecting the entries in order; at most `fuel` commands (R145). -/
def collectEntries : Nat → List Entry → State → Except Stop (List Entry × State)
  | 0, _, _ => .error .outOfFuel
  | fuel + 1, es, s => do
    let s ← runCommand 0x21 s
    if s.flags.disEnd then return (es, s)
    else if s.flags.disValid then
      let e ← readEntry s
      collectEntries fuel (es ++ [e]) s
    else collectEntries fuel es s

/-- The disassembler's `execute()`: the entries and their listing, with the error of a truncated one beside them;
or the error of `DIS_START` (R145). -/
def disExecute (start : Word) (s : State) : Except Stop (Report (List Entry × String)) := do
  let s ← putReg .arg0 start s
  let s ← runCommand 0x20 s
  if s.status ≠ 0 then return { final := s, artifact := none, error := errorOf s }
  else
    let (es, t) ← collectEntries ((s.dis.len.toNat - start.toNat) + 1) [] s
    return { final := t, artifact := some (es, listing es), error := errorOf t }

/-- Write a code's characters into `GG_CHAR0..`, register `i` first. -/
def putCode : Nat → List Byte → State → Except Stop State
  | _, [], s => .ok s
  | i, ch :: chs, s => do
    let s ← access (hostWrite (0x30 + BitVec.ofNat 8 i) (ch.setWidth 32) s)
    putCode (i + 1) chs s

/-- The Game Genie engine's `execute()`, decoding a code (R224). A code longer than `GG_CLEN` can say is written
with the largest length it holds, 15, which is an invalid one too. -/
def ggDecodeExecute (code : List Byte) (s : State) : Except Stop (Report Triple) := do
  let s ← putCode 0 (code.take 8) s
  let s ← putReg .ggClen (BitVec.ofNat 32 (min code.length 15)) s
  let s ← runCommand 0x30 s
  if s.status ≠ 0 then return { final := s, artifact := none, error := errorOf s }
  else
    let a ← getReg .ggAddr s
    let v ← getReg .ggVal s
    let c ← getReg .ggCmp s
    let h ← getReg .ggHasCmp s
    return { final := s
             artifact := some { address := a.setWidth 16, value := v.setWidth 8
                                compare := if h = 1 then some (c.setWidth 8) else none }
             error := none }

/-- `RD GG_CHARi` for `i` below `n`, in order. -/
def readCode (s : State) : Nat → Except Stop (List Byte)
  | 0 => .ok []
  | n + 1 => do
    let chs ← readCode s n
    let ch ← match hostRead (0x30 + BitVec.ofNat 8 n) s with
      | .ok v => Except.ok v
      | .error f => Except.error (Stop.fault f)
    return chs ++ [ch.setWidth 8]

/-- The Game Genie engine's `execute()`, encoding a triple (R224). R224 has the host write `GG_CMP` and does not say
with what where the triple has no compare byte: 0x00 is the model's choice (log entry 18, DESIGN CHOICE); the
command ignores it then (R36). -/
def ggEncodeExecute (t : Triple) (s : State) : Except Stop (Report (List Byte)) := do
  let s ← putReg .ggAddr (t.address.setWidth 32) s
  let s ← putReg .ggVal (t.value.setWidth 32) s
  let s ← putReg .ggHasCmp (if t.compare.isSome then 1 else 0) s
  let s ← putReg .ggCmp ((t.compare.getD 0).setWidth 32) s
  let s ← runCommand 0x31 s
  if s.status ≠ 0 then return { final := s, artifact := none, error := errorOf s }
  else
    let n ← getReg .ggClen s
    let code ← readCode s n.toNat
    return { final := s, artifact := some code, error := none }

/-- The PRNG engine's `execute()`, the final value for a seed and an iteration count (R242). -/
def prngFinal (seed n : Half) (s : State) : Except Stop (Report Half) := do
  let s ← putReg .arg0 (seed.setWidth 32) s
  let s ← putReg .arg1 (n.setWidth 32) s
  let s ← runCommand 0x40 s
  let v ← getReg .prngState s
  return { final := s, artifact := some (v.setWidth 16), error := none }

/-- `CMD PRNG_STEP; RD PRNG_STATE`, `k` times. -/
def enumerate : Nat → List Half → State → Except Stop (List Half × State)
  | 0, vs, s => .ok (vs, s)
  | k + 1, vs, s => do
    let s ← runCommand 0x41 s
    let v ← getReg .prngState s
    enumerate k (vs ++ [v.setWidth 16]) s

/-- The PRNG engine's `execute()`, the enumeration of `k` values from a seed, the seed itself not among them
(R242). -/
def prngEnumerate (seed : Half) (k : Nat) (s : State) : Except Stop (Report (List Half)) := do
  let s ← putReg .arg0 (seed.setWidth 32) s
  let s ← putReg .arg1 0 s
  let s ← runCommand 0x40 s
  let (vs, t) ← enumerate k [] s
  return { final := t, artifact := some vs, error := none }

end Sys2Proof.Machine
end

