-- ==== Sys2Proof/Safety.lean ====
section
/-! DEFINITION. What counts as a good state and a safe step, in the terms the statements use. -/
namespace Sys2Proof.Machine

/-- Commands run one after another, stopping at the first fault or refusal. -/
def runCommands : List Instr → State → Result
  | [], s => .next s
  | i :: is, s =>
    match exec i s with
    | .next t => runCommands is t
    | .fault f => .fault f
    | .refused r => .refused r

/-- A result with its next state changed. -/
def mapNext (f : State → State) : Result → Result
  | .next t => .next (f t)
  | .fault e => .fault e
  | .refused r => .refused r

/-- The bytes of a list stand in `IBUF` from `a` on. -/
def State.holdsBytes (s : State) (a : Nat) (bytes : List Byte) : Prop :=
  ∀ k, k < bytes.length → s.ibuf.read (a + k) = bytes[k]?

/-- Every byte of `n` from `a` has been written since reset. -/
def State.written (s : State) (a n : Nat) : Prop := ∀ k, k < n → (s.ibuf.read (a + k)).isSome

/-- Entries one after another, the first at `a`, each at the end of the one before it, the last one ending at `b`
(R142). -/
def contiguousFrom : Nat → List Entry → Nat → Prop
  | a, [], b => a = b
  | a, e :: es, b => e.byteOffset.toNat = a ∧ contiguousFrom (a + e.encodedLength) es b

/-- A character `GG_DECODE` takes (R216): an uppercase letter of the alphabet, or, where the implementation folds,
the lowercase form of one. -/
def inAlphabet (fold : Bool) (ch : Byte) : Prop :=
  ch ∈ ggAlphabet ∨ (fold = true ∧ isLower ch = true ∧ ch - 0x20 ∈ ggAlphabet)

/-- The memory is in canonical form within the buffer, and `BUF_LEN` within its capacity (R27, R50). -/
structure State.MemoryOk (s : State) : Prop where
  canonical : s.ibuf.wf
  inCapacity : ∀ c ∈ s.ibuf, c.1 < s.cfg.bufSize
  length : s.bufLen.toNat ≤ s.cfg.bufSize

/-- A valid header's regions lie within the image (R33). -/
def State.HeaderOk (s : State) : Prop :=
  s.flags.hdrValid = true → s.hdr.chrOff.toNat + s.hdr.chrLen.toNat ≤ s.bufLen.toNat

/-- An open tile sequence lies within the image and its cursor within the sequence; its end bit and its tile belong
to it (R118, R119). -/
structure State.ChrOk (s : State) : Prop where
  region : s.flags.chrReady = true → s.chr.base.toNat + s.chr.len.toNat ≤ s.bufLen.toNat
  count : s.flags.chrReady = true → 16 * s.chr.count.toNat = s.chr.len.toNat
  cursor : s.flags.chrReady = true → s.chr.cur.toNat ≤ s.chr.count.toNat
  atEnd : s.flags.chrEnd = true → s.flags.chrReady = true ∧ s.chr.cur = s.chr.count
  tile : s.flags.tileValid = true →
    s.flags.chrReady = true ∧ s.flags.chrEnd = false ∧ s.chr.tileIdx.toNat + 1 = s.chr.cur.toNat

/-- An open decode sequence lies within the image; its end bit and its entry belong to it, and the entry ends at
the cursor within the region (R140 to R142). -/
structure State.DisOk (s : State) : Prop where
  region : s.flags.disReady = true → s.dis.base.toNat + s.dis.len.toNat ≤ s.bufLen.toNat
  atEnd : s.flags.disEnd = true → s.flags.disReady = true
  entry : s.flags.disValid = true →
    s.flags.disReady = true ∧ s.flags.disEnd = false ∧ s.dis.off.toNat + s.dis.elen.toNat = s.dis.cur.toNat
      ∧ s.dis.cur.toNat ≤ s.dis.len.toNat ∧ s.dis.elen.toNat = 1 + s.dis.nopnd.toNat
      ∧ s.dis.mnem = mnemonicNumber (optable s.dis.opc).1 ∧ s.dis.mode = modeNumber (optable s.dis.opc).2

/-- Once the PRNG is initialised its state is some number of transitions from the seed, a number that agrees with
the iteration count mod 2^16 (R37). -/
def State.PrngOk (s : State) : Prop :=
  s.flags.prngValid = true →
    ∃ k, k % 65536 = s.prng.iter.toNat ∧ s.prng.state = iter (prngStep s.cfg) k s.prng.seed

/-- The invariant of the block. -/
structure State.Inv (s : State) : Prop where
  config : s.cfg.legal = true
  memory : s.MemoryOk
  header : s.HeaderOk
  chr : s.ChrOk
  dis : s.DisOk
  prng : s.PrngOk
  /-- Status 6 is reserved and never raised (R266). -/
  noIoError : s.status ≠ StatusCode.ioError.number
  produced : s.holdsUnproduced = false

end Sys2Proof.Machine
end

