-- ==== Sys2Proof/Certificates/Slice0/Obligations.lean ====
section
/-! DEFINITION. The statements for the provers. Each docstring names the rule of spec/ it formalises. -/
open Sys2Proof Sys2Proof.Machine

/-! ### Control, the command cycle and the step -/

/-- R255: `NOP` writes `STATUS` 0 and nothing else; it always completes. -/
def Obligations.NopClearsStatusOnly : Prop :=
  ∀ s : State, exec .nop s = .next { s with status := 0 }

/-- R256: a write of an unassigned code to `CMD`, and the illegal command itself, report status 8 with the code in
`ERRINFO` and change nothing else; `CMD` reads back as the code. -/
def Obligations.IllegalCommandReportsItsCode : Prop :=
  (∀ (code : Byte) (s : State),
    exec (.illegalCommand code) s = .next { s with status := 8, errinfo := code.setWidth 32 })
  ∧ ∀ (v : Word) (s : State), (v.setWidth 8 : Byte) ∉ commandCodes →
      ∃ t, hostWrite 0x00 v s = .next t
        ∧ t = { s with cmd := v.setWidth 8, status := 8, errinfo := (v.setWidth 8 : Byte).setWidth 32 }
        ∧ hostRead 0x00 t = .ok ((v.setWidth 8 : Byte).setWidth 32)

/-- R258: a step whose next access writes `CMD` runs the command that bits 7:0 of the value decode to, at the state
whose `CMD` holds them and whose access is done; bits 31:8 are ignored. The command it runs is well-formed. -/
def Obligations.CmdWriteRunsTheDecodedCommand : Prop :=
  ∀ (s : State) (v : Word) (rest : List Event) (i : Instr),
    s.holdsUnproduced = false → s.pending = .write 0x00 v :: rest →
    decode .command [v.setWidth 8] = .ok (i, []) →
    step s = exec i { s with pending := rest, cmd := v.setWidth 8 } ∧ i.wellFormed = true ∧ i.space = .command

/-- R141, R155: when the bytes at the decode cursor of an open sequence, within the region and the image, decode to
the 6502 instruction `i`, a step whose next access writes the code of `DIS_NEXT` to `CMD` runs `i`. -/
def Obligations.DisNextRunsTheDecodedInstruction : Prop :=
  ∀ (s : State) (v : Word) (rest : List Event) (i : Instr) (bytes : List Byte),
    s.holdsUnproduced = false → s.pending = .write 0x00 v :: rest → v.setWidth 8 = (0x21 : Byte) →
    s.flags.disReady = true → s.flags.disEnd = false →
    s.dis.cur.toNat + bytes.length ≤ s.dis.len.toNat →
    s.dis.base.toNat + s.dis.len.toNat ≤ s.bufLen.toNat →
    s.holdsBytes (s.dis.base.toNat + s.dis.cur.toNat) bytes →
    decode .opcode bytes = .ok (i, []) →
    step s = exec i { s with pending := rest, cmd := 0x21 }

/-- R281, R293: with no access of the host pending the block holds its state. (That a step with nothing to do
answers the same state is the model's form of waiting, log entry 4.) -/
def Obligations.IdleBlockHoldsItsState : Prop :=
  ∀ s : State, s.holdsUnproduced = false → s.pending = [] → step s = .next s

/-! ### Encodings -/

/-- R70, R73, R78: decoding the encoding of a well-formed instruction in its code space gives it back, with the
bytes that follow, for every operand value. -/
def Obligations.DecodeOfEncodeGivesTheInstruction : Prop :=
  ∀ (i : Instr) (rest : List Byte), i.wellFormed = true →
    decode i.space (encode i ++ rest) = .ok (i, rest)

/-- R70, R73, R78: what bytes decode to is well-formed, of that code space, and encodes to exactly those bytes. -/
def Obligations.DecodedInstructionEncodesToItsBytes : Prop :=
  ∀ (sp : Space) (bytes rest : List Byte) (i : Instr), decode sp bytes = .ok (i, rest) →
    i.wellFormed = true ∧ i.space = sp ∧ encode i ++ rest = bytes

/-- R71, R78: every byte starts an instruction in either code space: decoding refuses only for want of bytes. -/
def Obligations.EveryByteStartsAnInstruction : Prop :=
  ∀ (sp : Space) (b0 b1 b2 : Byte) (rest : List Byte),
    ∃ i rest', decode sp (b0 :: b1 :: b2 :: rest) = .ok (i, rest') ∧ rest'.length ≤ rest.length + 2
      ∧ (sp = .command → rest' = b1 :: b2 :: rest)

/-- R70, R156 to R212: words written out from the spec's tables decode to the instructions they stand for. -/
def Obligations.WordsOfEachFamilyDecode : Prop :=
  decode .command [0x21] = .ok (.disNext, [])
    ∧ decode .command [0x43] = .ok (.illegalCommand 0x43, [])
    ∧ decode .opcode [0xA9, 0x05] = .ok (.opLda (.imm 0x05), [])
    ∧ decode .opcode [0x6C, 0x34, 0x12] = .ok (.opJmp (.ind 0x1234), [])
    ∧ decode .opcode [0xD0, 0xFB] = .ok (.opBne (.rel 0xFB), [])
    ∧ decode .opcode [0x0A] = .ok (.opAsl .acc, [])
    ∧ decode .opcode [0x02] = .ok (.opIllegal 0x02, [])

/-- R80: the 105 bytes of its list, and no others, are illegal: mnemonic 56, mode 0, no operand byte, length 1; the
other 151 have a legal mnemonic. -/
def Obligations.IllegalOpcodeBytesAreTheListed : Prop :=
  illegalOpcodes.length = 105 ∧ illegalOpcodes.Nodup
    ∧ ∀ op : Byte,
        (op ∈ illegalOpcodes → mnemonicNumber (optable op).1 = 56 ∧ modeNumber (optable op).2 = 0
          ∧ (optable op).2.nopnd = 0 ∧ encodedLength (optable op).2 = 1)
        ∧ (op ∉ illegalOpcodes → (mnemonicNumber (optable op).1).toNat < 56)

/-! ### Reset -/

/-- R290, R292: the reset event sets every register that has a stated reset value to it and every flag to 0,
whatever the state before; the registers marked `unspec` then fault on a host read, and no byte of the buffer holds
a value. The values the unspec registers hold are the model's choice (log entry 2) and are not stated. -/
def Obligations.ResetSetsTheStatedValues : Prop :=
  ∀ (s : State) (rest : List Event), s.holdsUnproduced = false → s.pending = .reset :: rest →
    ∃ t, step s = .next t
      ∧ t.cmd = 0 ∧ t.status = 0 ∧ t.errinfo = 0 ∧ t.bufLen = 0 ∧ t.arg0 = 0 ∧ t.arg1 = 0 ∧ t.flags.word = 0
      ∧ t.chr.base = 0 ∧ t.chr.len = 0 ∧ t.chr.cur = 0 ∧ t.chr.count = 0
      ∧ t.dis.base = 0 ∧ t.dis.len = 0 ∧ t.dis.cur = 0
      ∧ (∀ j, t.gg.char.get j = 0) ∧ t.gg.clen = 0 ∧ t.gg.addr = 0 ∧ t.gg.val = 0 ∧ t.gg.cmp = 0 ∧ t.gg.hasCmp = 0
      ∧ (∀ q : Reg, q.readable Flags.reset = false → hostRead q.number t = .error (.unreadableRegister q))
      ∧ (∀ a, t.ibuf.read a = none)
      ∧ t.cfg = s.cfg ∧ t.pending = rest ∧ t.reads = s.reads

/-- R291: after the reset event, whatever the state before, the first `CHR_NEXT`, `DIS_NEXT`, `PRNG_STEP` or
`PRNG_SET_IT` fails with `NotInitialised` and its own code, and changes nothing else. -/
def Obligations.FirstNextAfterResetFails : Prop :=
  ∀ s t : State, perform .reset s = .next t →
    t.flags.word = 0
    ∧ exec .chrNext t = .next { t with status := 9, errinfo := 0x11 }
    ∧ exec .disNext t = .next { t with status := 9, errinfo := 0x21 }
    ∧ exec .prngStep t = .next { t with status := 9, errinfo := 0x41 }
    ∧ exec .prngSetIt t = .next { t with status := 9, errinfo := 0x42 }

/-- R291: no access but reset clears `PRNG_VALID`, whatever command it performs; and `PRNG_VALID` is set only by a
`PRNG_INIT`, a write of a value with low byte 0x40 to `CMD` (R25). -/
def Obligations.OnlyResetClearsPrngValid : Prop :=
  ∀ (s t : State) (e : Event), perform e s = .next t →
    (e ≠ .reset → s.flags.prngValid = true → t.flags.prngValid = true)
    ∧ (s.flags.prngValid = false → t.flags.prngValid = true →
        ∃ v, e = .write 0x00 v ∧ v.setWidth 8 = (0x40 : Byte))

/-! ### HDR -/

/-- R102 to R106: on a good signature with regions within the image, `HDR_PARSE` writes the header registers, loads
the regions into `CHR` and `DIS`, closes both sequences, and changes nothing else. -/
def Obligations.HdrParseAcceptsAndLoadsTheRegions : Prop :=
  ∀ (s : State) (h4 h5 h6 h7 : Byte) (prgOff prgLen chrOff chrLen : Nat),
    s.holdsBytes 0 [0x4E, 0x45, 0x53, 0x1A, h4, h5, h6, h7] →
    prgOff = 16 + (if h6.getLsbD 2 = true then 512 else 0) →
    prgLen = h4.toNat * s.cfg.prgBankUnit →
    chrOff = prgOff + prgLen →
    chrLen = h5.toNat * s.cfg.chrBankUnit →
    chrOff + chrLen ≤ s.bufLen.toNat →
    exec .hdrParse s = .next { s with
      status := 0
      hdr := { prgBanks := h4, chrBanks := h5, trainer := BitVec.ofBool (h6.getLsbD 2)
               mapper := h7.extractLsb' 4 4 ++ h6.extractLsb' 4 4
               prgOff := BitVec.ofNat 32 prgOff, prgLen := BitVec.ofNat 32 prgLen
               chrOff := BitVec.ofNat 32 chrOff, chrLen := BitVec.ofNat 32 chrLen }
      chr := { s.chr with base := BitVec.ofNat 32 chrOff, len := BitVec.ofNat 32 chrLen }
      dis := { s.dis with base := BitVec.ofNat 32 prgOff, len := BitVec.ofNat 32 prgLen }
      flags := { s.flags with hdrValid := true, chrReady := false, chrEnd := false, tileValid := false
                              disReady := false, disEnd := false, disValid := false } }

/-- R105, R267, R270: `HDR_PARSE` rejects a short buffer, then the lowest signature byte that differs, then regions
past the image, each with its reason; it clears `HDR_VALID` and changes nothing else. -/
def Obligations.HdrParseRejectsInOrder : Prop :=
  ∀ s : State,
    (s.bufLen.toNat < 16 →
      exec .hdrParse s = .next { s with
        status := 1, errinfo := s.bufLen, flags := { s.flags with hdrValid := false } })
    ∧ (∀ (h : List Byte) (i : Nat), 16 ≤ s.bufLen.toNat → h.length = 8 → s.holdsBytes 0 h → i < 4 →
        h[i]? ≠ signature[i]? → (∀ j, j < i → h[j]? = signature[j]?) →
        exec .hdrParse s = .next { s with
          status := 1, errinfo := 0x40000000 + BitVec.ofNat 32 i, flags := { s.flags with hdrValid := false } })
    ∧ (∀ (h4 h5 h6 h7 : Byte) (stop : Nat), 16 ≤ s.bufLen.toNat →
        s.holdsBytes 0 [0x4E, 0x45, 0x53, 0x1A, h4, h5, h6, h7] →
        stop = 16 + (if h6.getLsbD 2 = true then 512 else 0) + h4.toNat * s.cfg.prgBankUnit
          + h5.toNat * s.cfg.chrBankUnit →
        s.bufLen.toNat < stop →
        exec .hdrParse s = .next { s with
          status := 1, errinfo := 0x80000000 + BitVec.ofNat 32 (stop % 2 ^ 30)
          flags := { s.flags with hdrValid := false } })

/-- R107: issuing `HDR_PARSE` twice with no host write in between leaves the same state both times, whether it
succeeds or fails. -/
def Obligations.HdrParseTwiceLeavesTheSameState : Prop :=
  ∀ s t : State, exec .hdrParse s = .next t → exec .hdrParse t = .next t

/-! ### CHR -/

/-- R118: `CHR_RESTART` checks the length, then the bounds (the sum formed without wrapping, reported mod 2^32), and
else opens the sequence; it always completes, and changes nothing else. -/
def Obligations.ChrRestartOpensOrRejects : Prop :=
  ∀ s : State,
    (s.chr.len.toNat % 16 ≠ 0 →
      exec .chrRestart s = .next { s with
        status := 2, errinfo := s.chr.len
        flags := { s.flags with chrReady := false, chrEnd := false, tileValid := false } })
    ∧ (s.chr.len.toNat % 16 = 0 → s.bufLen.toNat < s.chr.base.toNat + s.chr.len.toNat →
      exec .chrRestart s = .next { s with
        status := 10, errinfo := BitVec.ofNat 32 ((s.chr.base.toNat + s.chr.len.toNat) % 2 ^ 32)
        flags := { s.flags with chrReady := false, chrEnd := false, tileValid := false } })
    ∧ (s.chr.len.toNat % 16 = 0 → s.chr.base.toNat + s.chr.len.toNat ≤ s.bufLen.toNat →
      exec .chrRestart s = .next { s with
        status := 0
        chr := { s.chr with cur := 0, count := BitVec.ofNat 32 (s.chr.len.toNat / 16) }
        flags := { s.flags with chrReady := true, chrEnd := false, tileValid := false } })

/-- R116, R117, R119: `CHR_NEXT` with no open sequence fails; at the end it sets the end bit; else it delivers the
tile at the cursor: pixel (r, c) stands in bits [2c+1:2c] of row register r, its low bit from plane 0 and its high
bit from plane 1, bit 7 of a byte leftmost. Nothing else changes. -/
def Obligations.ChrNextDeliversTheTileAtTheCursor : Prop :=
  ∀ s : State,
    (s.flags.chrReady = false → exec .chrNext s = .next { s with status := 9, errinfo := 0x11 })
    ∧ (s.flags.chrReady = true → s.chr.cur = s.chr.count →
        exec .chrNext s = .next { s with
          status := 0, flags := { s.flags with chrEnd := true, tileValid := false } })
    ∧ (∀ b : List Byte, s.flags.chrReady = true → s.chr.cur ≠ s.chr.count → b.length = 16 →
        s.chr.base.toNat + 16 * s.chr.cur.toNat + 16 ≤ s.bufLen.toNat →
        s.holdsBytes (s.chr.base.toNat + 16 * s.chr.cur.toNat) b →
        ∃ rows : Bank8 Half,
          exec .chrNext s = .next { s with
            status := 0
            chr := { s.chr with row := rows, tileIdx := s.chr.cur, cur := s.chr.cur + 1 }
            flags := { s.flags with tileValid := true } }
          ∧ ∀ (r : Fin 8) (c : Nat), c < 8 →
              (rows.get r).extractLsb' (2 * c) 2
                = BitVec.ofBool ((b.getD (r.val + 8) 0).getLsbD (7 - c))
                  ++ BitVec.ofBool ((b.getD r.val 0).getLsbD (7 - c)))

/-- R120: after `CHR_RESTART` of a written region within the image, the k-th `CHR_NEXT` delivers tile k, from the 16
bytes at base + 16k; one more than there are tiles ends the sequence; and restarting from there delivers the
identical sequence again. -/
def Obligations.RestartedSequenceDeliversTileK : Prop :=
  ∀ s : State, s.chr.len.toNat % 16 = 0 → s.chr.base.toNat + s.chr.len.toNat ≤ s.bufLen.toNat →
    s.written s.chr.base.toNat s.chr.len.toNat →
    (∀ k, k < s.chr.len.toNat / 16 →
      ∃ t b, runCommands (.chrRestart :: List.replicate (k + 1) .chrNext) s = .next t
        ∧ b.length = 16 ∧ s.holdsBytes (s.chr.base.toNat + 16 * k) b
        ∧ t.status = 0 ∧ t.flags.tileValid = true ∧ t.flags.chrEnd = false
        ∧ t.chr.tileIdx.toNat = k ∧ t.chr.row = tileRows b
        ∧ runCommands (.chrRestart :: List.replicate (k + 1) .chrNext) t = .next t)
    ∧ ∃ t, runCommands (.chrRestart :: List.replicate (s.chr.len.toNat / 16 + 1) .chrNext) s = .next t
        ∧ t.status = 0 ∧ t.flags.chrEnd = true ∧ t.flags.tileValid = false

/-- R122: the CHR engine's procedure over a written region within the image returns every tile of it, in source
order, and their image, with no error. -/
def Obligations.ChrExecuteReturnsEveryTile : Prop :=
  ∀ s : State, s.chr.len.toNat % 16 = 0 → s.chr.base.toNat + s.chr.len.toNat ≤ s.bufLen.toNat →
    s.written s.chr.base.toNat s.chr.len.toNat →
    ∃ rep tiles, chrExecute s = .ok rep ∧ rep.error = none
      ∧ rep.artifact = some (tiles, image s.cfg.gridW tiles)
      ∧ tiles.length = s.chr.len.toNat / 16
      ∧ ∀ k b, k < s.chr.len.toNat / 16 → b.length = 16 → s.holdsBytes (s.chr.base.toNat + 16 * k) b →
          tiles[k]? = some (tileRows b)

/-- R121: the image is eight pixels wide for each grid column and eight high for each row of cells begun; pixel
(r, c) of tile t stands in the grid cell row-major order gives it; a cell past the last tile has index 0; with no
tile there is no line. -/
def Obligations.ImageTilesTheGridInSourceOrder : Prop :=
  ∀ (gridW : Nat) (tiles : List Tile), 0 < gridW →
    (∀ (k r c : Nat) (t : Tile), tiles[k]? = some t → r < 8 → c < 8 →
      imagePixel gridW tiles (8 * (k / gridW) + r) (8 * (k % gridW) + c) = tilePixel t r c
        ∧ 8 * (k / gridW) + r < imageHeight gridW tiles.length ∧ 8 * (k % gridW) + c < imageWidth gridW)
    ∧ (∀ (k r c : Nat), tiles.length ≤ k → r < 8 → c < 8 →
        imagePixel gridW tiles (8 * (k / gridW) + r) (8 * (k % gridW) + c) = 0)
    ∧ imageHeight gridW 0 = 0
    ∧ imageWidth gridW = 8 * gridW
    ∧ (∀ n, n ≤ gridW * (imageHeight gridW n / 8) ∧ imageHeight gridW n % 8 = 0
        ∧ (0 < n → gridW * (imageHeight gridW n / 8 - 1) < n))
    ∧ (image gridW tiles).length = imageHeight gridW tiles.length
    ∧ (∀ line ∈ image gridW tiles, line.length = imageWidth gridW)
    ∧ ∀ (y x : Nat), y < imageHeight gridW tiles.length → x < imageWidth gridW →
        ((image gridW tiles)[y]?.bind fun pixels => pixels[x]?) = some (imagePixel gridW tiles y x)

/-! ### DIS -/

/-- R140: `DIS_START` rejects a region past the image (the sum reported mod 2^32), and else opens the sequence at
`ARG0`, whatever offset it holds; it always completes, and changes nothing else. -/
def Obligations.DisStartOpensOrRejects : Prop :=
  ∀ s : State,
    (s.bufLen.toNat < s.dis.base.toNat + s.dis.len.toNat →
      exec .disStart s = .next { s with
        status := 10, errinfo := BitVec.ofNat 32 ((s.dis.base.toNat + s.dis.len.toNat) % 2 ^ 32)
        flags := { s.flags with disReady := false, disEnd := false, disValid := false } })
    ∧ (s.dis.base.toNat + s.dis.len.toNat ≤ s.bufLen.toNat →
      exec .disStart s = .next { s with
        status := 0
        dis := { s.dis with cur := s.arg0 }
        flags := { s.flags with disReady := true, disEnd := false, disValid := false } })

/-- R137, R141: `DIS_NEXT` fails with no open sequence, changes nothing but `STATUS` once stopped, ends at the region
end, stops on an entry the region cuts off without reading its operand bytes, and else delivers the entry of the
opcode table and moves the cursor past it. Nothing else changes. -/
def Obligations.DisNextDecodesTheEntryAtTheCursor : Prop :=
  ∀ s : State,
    (s.flags.disReady = false → exec .disNext s = .next { s with status := 9, errinfo := 0x21 })
    ∧ (s.flags.disReady = true → s.flags.disEnd = true → exec .disNext s = .next { s with status := 0 })
    ∧ (s.flags.disReady = true → s.flags.disEnd = false → s.dis.len.toNat ≤ s.dis.cur.toNat →
        exec .disNext s = .next { s with
          status := 0, flags := { s.flags with disEnd := true, disValid := false } })
    ∧ (∀ op : Byte, s.flags.disReady = true → s.flags.disEnd = false → s.dis.cur.toNat < s.dis.len.toNat →
        s.dis.base.toNat + s.dis.len.toNat ≤ s.bufLen.toNat →
        s.ibuf.read (s.dis.base.toNat + s.dis.cur.toNat) = some op →
        s.dis.len.toNat < s.dis.cur.toNat + 1 + (optable op).2.nopnd →
        exec .disNext s = .next { s with
          status := 3, errinfo := s.dis.cur
          flags := { s.flags with disEnd := true, disValid := false } })
    ∧ (∀ (op : Byte) (ob : List Byte), s.flags.disReady = true → s.flags.disEnd = false →
        s.dis.cur.toNat + 1 + (optable op).2.nopnd ≤ s.dis.len.toNat →
        s.dis.base.toNat + s.dis.len.toNat ≤ s.bufLen.toNat →
        ob.length = (optable op).2.nopnd →
        s.holdsBytes (s.dis.base.toNat + s.dis.cur.toNat) (op :: ob) →
        exec .disNext s = .next { s with
          status := 0
          dis := { s.dis with
            off := s.dis.cur, opc := op
            mnem := mnemonicNumber (optable op).1, mode := modeNumber (optable op).2
            nopnd := BitVec.ofNat 2 ob.length, opnd := ob.getD 1 0 ++ ob.getD 0 0
            elen := BitVec.ofNat 2 (1 + ob.length), cur := s.dis.cur + BitVec.ofNat 32 (1 + ob.length) }
          flags := { s.flags with disValid := true } })

/-- R155 to R211: each legal 6502 instruction, in each of its forms, whose bytes fit before the region end of an open
sequence, is delivered as its own entry: its opcode byte, the numbers of its mnemonic and mode, its operand bytes
with the first in bits 7:0, its length; the cursor moves past it and nothing else changes. It says so for
`opAdc`, `opAnd`, `opAsl`, `opBcc`, `opBcs`, `opBeq`, `opBit`, `opBmi`, `opBne`, `opBpl`, `opBrk`, `opBvc`,
`opBvs`, `opClc`, `opCld`, `opCli`, `opClv`, `opCmp`, `opCpx`, `opCpy`, `opDec`, `opDex`, `opDey`, `opEor`,
`opInc`, `opInx`, `opIny`, `opJmp`, `opJsr`, `opLda`, `opLdx`, `opLdy`, `opLsr`, `opNop`, `opOra`, `opPha`,
`opPhp`, `opPla`, `opPlp`, `opRol`, `opRor`, `opRti`, `opRts`, `opSbc`, `opSec`, `opSed`, `opSei`, `opSta`,
`opStx`, `opSty`, `opTax`, `opTay`, `opTsx`, `opTxa`, `opTxs`, `opTya`. -/
def Obligations.LegalInstructionIsDeliveredAsItsEntry : Prop :=
  ∀ (s : State) (i : Instr) (m : Mnemonic) (o : Operand) (op : Byte),
    i.entry? = some (m, o) → opcodeOf m o.mode = some op →
    s.flags.disReady = true → s.flags.disEnd = false →
    s.dis.cur.toNat + 1 + o.bytes.length ≤ s.dis.len.toNat →
    exec i s = .next { s with
      status := 0
      dis := { s.dis with
        off := s.dis.cur, opc := op, mnem := mnemonicNumber m, mode := modeNumber o.mode
        nopnd := BitVec.ofNat 2 o.bytes.length, opnd := o.bytes.getD 1 0 ++ o.bytes.getD 0 0
        elen := BitVec.ofNat 2 (1 + o.bytes.length), cur := s.dis.cur + BitVec.ofNat 32 (1 + o.bytes.length) }
      flags := { s.flags with disValid := true } }

/-- R138, R155: a legal instruction that begins before the region end and is cut off by it stops the sequence with
`TruncatedInstruction` at its offset, with no entry and the cursor in place; so does the `DIS_NEXT` that meets its
opcode byte, whatever stands after the region. A one-byte form is never cut off. -/
def Obligations.TruncatedEntryStopsTheSequence : Prop :=
  ∀ (s : State) (i : Instr) (m : Mnemonic) (o : Operand) (op : Byte),
    i.entry? = some (m, o) → opcodeOf m o.mode = some op →
    s.flags.disReady = true → s.flags.disEnd = false → s.dis.cur.toNat < s.dis.len.toNat →
    s.dis.len.toNat < s.dis.cur.toNat + 1 + o.bytes.length →
    o.bytes ≠ []
    ∧ exec i s = .next { s with
        status := 3, errinfo := s.dis.cur, flags := { s.flags with disEnd := true, disValid := false } }
    ∧ (s.dis.base.toNat + s.dis.len.toNat ≤ s.bufLen.toNat →
        s.ibuf.read (s.dis.base.toNat + s.dis.cur.toNat) = some op → exec .disNext s = exec i s)

/-- R212: an illegal opcode byte before the region end is its own one-byte entry with mnemonic 56 and mode 0, and no
error; decoding resumes at the next byte. -/
def Obligations.IllegalOpcodeIsItsOwnEntry : Prop :=
  ∀ (s : State) (op : Byte), op ∈ illegalOpcodes → s.flags.disReady = true → s.flags.disEnd = false →
    s.dis.cur.toNat < s.dis.len.toNat →
    exec (.opIllegal op) s = .next { s with
      status := 0
      dis := { s.dis with
        off := s.dis.cur, opc := op, mnem := 56, mode := 0, nopnd := 0, opnd := 0, elen := 1
        cur := s.dis.cur + 1 }
      flags := { s.flags with disValid := true } }
    ∧ (s.dis.base.toNat + s.dis.len.toNat ≤ s.bufLen.toNat →
        s.ibuf.read (s.dis.base.toNat + s.dis.cur.toNat) = some op →
        exec .disNext s = exec (.opIllegal op) s)

/-- The model's choice (log entry 5): a term of the syntax whose operand has a mode that its mnemonic does not have
in R156 to R211 is no instruction, and its meaning refuses it by name. -/
def Obligations.IllFormedOperandIsRefused : Prop :=
  ∀ (s : State) (i : Instr) (m : Mnemonic) (o : Operand),
    i.entry? = some (m, o) → i.wellFormed = false → exec i s = .refused (.illFormed i)

/-- R142: the entry a `DIS_NEXT` delivers begins at the cursor and ends at the new one, at least one byte on and
within the region, and the next entry begins where it ends. -/
def Obligations.EntriesAreContiguous : Prop :=
  ∀ s t : State, s.flags.disReady = true → s.flags.disEnd = false →
    exec .disNext s = .next t → t.flags.disValid = true → t.status = 0 → t.flags.disEnd = false →
    t.dis.off = s.dis.cur ∧ t.dis.cur.toNat = t.dis.off.toNat + t.dis.elen.toNat
      ∧ 1 ≤ t.dis.elen.toNat ∧ t.dis.cur.toNat ≤ t.dis.len.toNat
      ∧ ∀ u : State, exec .disNext t = .next u → u.flags.disValid = true → u.dis.off = t.dis.cur

/-- R137, R138: what `DIS_NEXT` does depends on the buffer only within the region: two stores that agree there give
the same outcome, each keeping its own buffer. -/
def Obligations.DisNextReadsOnlyItsRegion : Prop :=
  ∀ (s : State) (m : Memory),
    (∀ a, s.dis.base.toNat ≤ a → a < s.dis.base.toNat + s.dis.len.toNat → Memory.read m a = s.ibuf.read a) →
    exec .disNext { s with ibuf := m } = mapNext (fun t => { t with ibuf := m }) (exec .disNext s)

/-- R143: the branch target is `byte_offset + 2 + sext_8(b1)`, an unbounded integer from `byte_offset - 126` to
`byte_offset + 129`; both ends are reached. -/
def Obligations.BranchTargetIsUnbounded : Prop :=
  ∀ (off : Word) (d : Byte),
    branchTarget off d = (off.toNat : Int) + 2 + (if d.toNat < 128 then (d.toNat : Int) else (d.toNat : Int) - 256)
      ∧ (off.toNat : Int) - 126 ≤ branchTarget off d ∧ branchTarget off d ≤ (off.toNat : Int) + 129
      ∧ branchTarget off 0x80 = (off.toNat : Int) - 126 ∧ branchTarget off 0x7F = (off.toNat : Int) + 129

/-- R142, R145: the entries the disassembler's procedure returns lie one after another from the start offset to the
final cursor, whatever the region holds, and its text is their listing; its only error beside an artifact is
`TruncatedInstruction` at the final cursor. -/
def Obligations.DisassemblyIsContiguous : Prop :=
  ∀ (s : State) (start : Word) (rep : Report (List Entry × String)) (es : List Entry) (text : String),
    disExecute start s = .ok rep → rep.artifact = some (es, text) →
    contiguousFrom start.toNat es rep.final.dis.cur.toNat ∧ text = listing es
      ∧ (rep.error = none ∨ rep.error = some (3, rep.final.dis.cur))

/-- R303: the loops of the engine procedures end within the stated bounds, from every state: `CHR_COUNT + 1` for the
tiles, `max(0, DIS_LEN - start) + 1` for the entries. -/
def Obligations.EngineProceduresEndWithinTheirBounds : Prop :=
  (∀ s : State, chrExecute s ≠ .error .outOfFuel)
    ∧ ∀ (s : State) (start : Word), disExecute start s ≠ .error .outOfFuel

/-- R273, R292: a command whose read of the buffer meets, within the image, a byte nothing has written since reset
stops. That the stop names the lowest such byte is the model's choice, which the rules leave open (log entry 7). -/
def Obligations.CommandsStopAtAnUnwrittenByte : Prop :=
  ∀ s : State,
    (∀ k, 16 ≤ s.bufLen.toNat → k < 8 → s.written 0 k → s.ibuf.read k = none →
      exec .hdrParse s = .fault (.unwrittenByte k))
    ∧ (∀ a k, s.flags.chrReady = true → s.chr.cur ≠ s.chr.count →
        a = s.chr.base.toNat + 16 * s.chr.cur.toNat → a + 16 ≤ s.bufLen.toNat →
        k < 16 → s.written a k → s.ibuf.read (a + k) = none → exec .chrNext s = .fault (.unwrittenByte (a + k)))
    ∧ (∀ a, s.flags.disReady = true → s.flags.disEnd = false → s.dis.cur.toNat < s.dis.len.toNat →
        s.dis.base.toNat + s.dis.len.toNat ≤ s.bufLen.toNat → a = s.dis.base.toNat + s.dis.cur.toNat →
        (s.ibuf.read a = none → exec .disNext s = .fault (.unwrittenByte a))
        ∧ ∀ (op : Byte) (k : Nat), s.ibuf.read a = some op →
            s.dis.cur.toNat + 1 + (optable op).2.nopnd ≤ s.dis.len.toNat → k < (optable op).2.nopnd →
            s.written (a + 1) k → s.ibuf.read (a + 1 + k) = none →
            exec .disNext s = .fault (.unwrittenByte (a + 1 + k)))

/-! ### GG -/

/-- R216, R218: `GG_DECODE` of a code whose characters, folded where the implementation folds, are the letters of the
nibbles n0 to n5 (or n0 to n7) writes the triple whose bits stand where the table says; bit 3 of n2 is ignored; the
address has bit 15 set; nothing but the triple registers and `STATUS` changes. -/
def Obligations.GgDecodeFollowsTheBitLayout : Prop :=
  ∀ (s : State) (n0 n1 n2 n3 n4 n5 n6 n7 : Nibble) (address : Half),
    address = 1#1 ++ (n3.extractLsb' 0 3 ++ (n4.extractLsb' 3 1 ++ (n5.extractLsb' 0 3 ++ (n1.extractLsb' 3 1
      ++ (n2.extractLsb' 0 3 ++ (n3.extractLsb' 3 1 ++ n4.extractLsb' 0 3)))))) →
    (s.gg.clen = 6 →
      (s.gg.code 6).map (foldCase s.cfg.ggCaseFold) = [n0, n1, n2, n3, n4, n5].map ggLetter →
      exec .ggDecode s = .next { s with
        status := 0
        gg := { s.gg with
          addr := address
          val := n0.extractLsb' 3 1 ++ (n1.extractLsb' 0 3 ++ (n5.extractLsb' 3 1 ++ n0.extractLsb' 0 3))
          cmp := 0, hasCmp := 0 } })
    ∧ (s.gg.clen = 8 →
      (s.gg.code 8).map (foldCase s.cfg.ggCaseFold) = [n0, n1, n2, n3, n4, n5, n6, n7].map ggLetter →
      exec .ggDecode s = .next { s with
        status := 0
        gg := { s.gg with
          addr := address
          val := n0.extractLsb' 3 1 ++ (n1.extractLsb' 0 3 ++ (n7.extractLsb' 3 1 ++ n0.extractLsb' 0 3))
          cmp := n6.extractLsb' 3 1 ++ (n7.extractLsb' 0 3 ++ (n5.extractLsb' 3 1 ++ n6.extractLsb' 0 3))
          hasCmp := 1 } })

/-- R220, R267, R270: `GG_DECODE` of a length other than 6 and 8 reports the length; else, of a code with a character
outside the alphabet, the first such character and its index; no other register changes. -/
def Obligations.GgDecodeReportsTheFirstError : Prop :=
  ∀ s : State,
    (s.gg.clen ≠ 6 → s.gg.clen ≠ 8 →
      exec .ggDecode s = .next { s with status := 4, errinfo := BitVec.ofNat 32 s.gg.clen.toNat })
    ∧ (∀ i : Fin 8, s.gg.clen = 6 ∨ s.gg.clen = 8 → i.val < s.gg.clen.toNat →
        ¬ inAlphabet s.cfg.ggCaseFold (s.gg.char.get i) →
        (∀ j : Fin 8, j < i → inAlphabet s.cfg.ggCaseFold (s.gg.char.get j)) →
        exec .ggDecode s = .next { s with
          status := 5, errinfo := BitVec.ofNat 32 (256 * (s.gg.char.get i).toNat + i.val) })

/-- R218, R222: `GG_ENCODE` of an address below 0x8000 reports it and changes no code register; else it writes the
letters of the nibbles the table gives, the length bit canonical, 8 characters with a compare byte and 6 with the
last two 0x00 without; nothing else changes. -/
def Obligations.GgEncodeWritesTheCanonicalCode : Prop :=
  ∀ (s : State) (n0 n1 n3 n4 : Nibble),
    n0 = s.gg.val.extractLsb' 7 1 ++ s.gg.val.extractLsb' 0 3 →
    n1 = s.gg.addr.extractLsb' 7 1 ++ s.gg.val.extractLsb' 4 3 →
    n3 = s.gg.addr.extractLsb' 3 1 ++ s.gg.addr.extractLsb' 12 3 →
    n4 = s.gg.addr.extractLsb' 11 1 ++ s.gg.addr.extractLsb' 0 3 →
    (s.gg.addr.toNat < 0x8000 →
      exec .ggEncode s = .next { s with status := 7, errinfo := s.gg.addr.setWidth 32 })
    ∧ (0x8000 ≤ s.gg.addr.toNat → s.gg.hasCmp = 0 →
      exec .ggEncode s = .next { s with
        status := 0
        gg := { s.gg with
          char := { r0 := ggLetter n0, r1 := ggLetter n1
                    r2 := ggLetter (0#1 ++ s.gg.addr.extractLsb' 4 3)
                    r3 := ggLetter n3, r4 := ggLetter n4
                    r5 := ggLetter (s.gg.val.extractLsb' 3 1 ++ s.gg.addr.extractLsb' 8 3)
                    r6 := 0, r7 := 0 }
          clen := 6 } })
    ∧ (0x8000 ≤ s.gg.addr.toNat → s.gg.hasCmp = 1 →
      exec .ggEncode s = .next { s with
        status := 0
        gg := { s.gg with
          char := { r0 := ggLetter n0, r1 := ggLetter n1
                    r2 := ggLetter (1#1 ++ s.gg.addr.extractLsb' 4 3)
                    r3 := ggLetter n3, r4 := ggLetter n4
                    r5 := ggLetter (s.gg.cmp.extractLsb' 3 1 ++ s.gg.addr.extractLsb' 8 3)
                    r6 := ggLetter (s.gg.cmp.extractLsb' 7 1 ++ s.gg.cmp.extractLsb' 0 3)
                    r7 := ggLetter (s.gg.val.extractLsb' 3 1 ++ s.gg.cmp.extractLsb' 4 3) }
          clen := 8 } })

/-- R223: for every triple with an address in 0x8000 to 0xFFFF, `GG_ENCODE` then `GG_DECODE` restores it, the compare
byte where one is present and 0x00 where none is. -/
def Obligations.GgEncodeThenDecodeRestoresTheTriple : Prop :=
  ∀ s : State, 0x8000 ≤ s.gg.addr.toNat →
    ∃ t, runCommands [.ggEncode, .ggDecode] s = .next t ∧ t.status = 0
      ∧ t.gg.addr = s.gg.addr ∧ t.gg.val = s.gg.val ∧ t.gg.hasCmp = s.gg.hasCmp
      ∧ t.gg.cmp = (if s.gg.hasCmp = 1 then s.gg.cmp else 0)

/-- R217, R223: for every canonical code, one whose length bit (bit 3 of the third nibble) is 1 exactly when it has 8
characters, `GG_DECODE` then `GG_ENCODE` restores it, in its uppercase spelling where the implementation folds
case. -/
def Obligations.GgDecodeThenEncodeRestoresTheCode : Prop :=
  ∀ (s : State) (ns : List Nibble), ns.length = s.gg.clen.toNat → ns.length = 6 ∨ ns.length = 8 →
    (s.gg.code ns.length).map (foldCase s.cfg.ggCaseFold) = ns.map ggLetter →
    (ns.getD 2 0).getLsbD 3 = decide (ns.length = 8) →
    ∃ t, runCommands [.ggDecode, .ggEncode] s = .next t ∧ t.status = 0
      ∧ t.gg.clen = s.gg.clen ∧ t.gg.code ns.length = ns.map ggLetter

/-! ### PRNG -/

/-- R238: `PRNG_INIT` takes the low 16 bits of `ARG0` as seed and of `ARG1` as count, for every transition; it always
completes, and changes nothing else. -/
def Obligations.PrngInitIteratesFromTheSeed : Prop :=
  ∀ (s : State) (seed n : Half), seed.toNat = s.arg0.toNat % 65536 → n.toNat = s.arg1.toNat % 65536 →
    exec .prngInit s = .next { s with
      status := 0
      prng := { seed := seed, iter := n, state := iter (prngStep s.cfg) n.toNat seed }
      flags := { s.flags with prngValid := true } }

/-- R239: `PRNG_SET_IT` fails before the first `PRNG_INIT`, and else sets the state the low 16 bits of `ARG0` say,
counted from the seed whatever the old state; nothing else changes. -/
def Obligations.PrngSetItCountsFromTheSeed : Prop :=
  ∀ (s : State) (n : Half), n.toNat = s.arg0.toNat % 65536 →
    (s.flags.prngValid = false → exec .prngSetIt s = .next { s with status := 9, errinfo := 0x42 })
    ∧ (s.flags.prngValid = true →
        exec .prngSetIt s = .next { s with
          status := 0
          prng := { seed := s.prng.seed, iter := n, state := iter (prngStep s.cfg) n.toNat s.prng.seed } })

/-- R240: `PRNG_STEP` fails before the first `PRNG_INIT`, and else applies the transition once and counts it mod
2^16; nothing else changes. -/
def Obligations.PrngStepAppliesTheTransitionOnce : Prop :=
  ∀ s : State,
    (s.flags.prngValid = false → exec .prngStep s = .next { s with status := 9, errinfo := 0x41 })
    ∧ (s.flags.prngValid = true →
        exec .prngStep s = .next { s with
          status := 0
          prng := { seed := s.prng.seed, iter := BitVec.ofNat 16 ((s.prng.iter.toNat + 1) % 65536)
                    state := prngStep s.cfg s.prng.state } })

/-- R241: for every transition, from a state n0 transitions from the seed, k `PRNG_STEP`s with n0 + k below 65536
leave `PRNG_STATE` n0 + k transitions from the seed; and a `PRNG_SET_IT` of that count leaves the same state. -/
def Obligations.PrngStepsReproduceSetIt : Prop :=
  ∀ (s : State) (k : Nat), s.flags.prngValid = true →
    s.prng.state = iter (prngStep s.cfg) s.prng.iter.toNat s.prng.seed →
    s.prng.iter.toNat + k < 65536 →
    ∃ t, runCommands (List.replicate k .prngStep) s = .next t
      ∧ t.prng.seed = s.prng.seed ∧ t.prng.iter.toNat = s.prng.iter.toNat + k
      ∧ t.prng.state = iter (prngStep s.cfg) t.prng.iter.toNat s.prng.seed
      ∧ t.flags = s.flags
      ∧ ∃ u, exec .prngSetIt { s with arg0 := t.prng.iter.setWidth 32 } = .next u ∧ u.prng = t.prng

/-- R242: the enumeration of k values from a seed is the list of the 1st to the k-th iterate, the seed not among
them; the final value for (seed, n) is the n-th iterate. -/
def Obligations.PrngEnumerationListsTheIterates : Prop :=
  ∀ (s : State) (seed n : Half) (k : Nat),
    (∃ rep, prngEnumerate seed k s = .ok rep ∧ rep.error = none
      ∧ rep.artifact = some ((List.range k).map fun j => iter (prngStep s.cfg) (j + 1) seed))
    ∧ ∃ rep, prngFinal seed n s = .ok rep ∧ rep.artifact = some (iter (prngStep s.cfg) n.toNat seed)

/-! ### Host accesses -/

/-- R21, R25, R26, R56: a host read of a register gated by a valid bit that is 0 stops; any other host read returns
the register's value, or 0 for a reserved number, and changes nothing. -/
def Obligations.HostReadIsGatedByItsValidBit : Prop :=
  ∀ (s : State) (n : Byte) (rest : List Event), s.holdsUnproduced = false → s.pending = .read n :: rest →
    (((0x08 ≤ n.toNat ∧ n.toNat ≤ 0x0F ∧ s.flags.hdrValid = false)
        ∨ ((n.toNat = 0x14 ∨ (0x18 ≤ n.toNat ∧ n.toNat ≤ 0x1F)) ∧ s.flags.tileValid = false)
        ∨ (0x23 ≤ n.toNat ∧ n.toNat ≤ 0x29 ∧ s.flags.disValid = false)
        ∨ (0x40 ≤ n.toNat ∧ n.toNat ≤ 0x42 ∧ s.flags.prngValid = false)) →
      ∃ q : Reg, q.number = n ∧ step s = .fault (.unreadableRegister q))
    ∧ (¬ ((0x08 ≤ n.toNat ∧ n.toNat ≤ 0x0F ∧ s.flags.hdrValid = false)
        ∨ ((n.toNat = 0x14 ∨ (0x18 ≤ n.toNat ∧ n.toNat ≤ 0x1F)) ∧ s.flags.tileValid = false)
        ∨ (0x23 ≤ n.toNat ∧ n.toNat ≤ 0x29 ∧ s.flags.disValid = false)
        ∨ (0x40 ≤ n.toNat ∧ n.toNat ≤ 0x42 ∧ s.flags.prngValid = false)) →
      ∃ v, step s = .next { s with pending := rest, reads := v :: s.reads }
        ∧ (∀ q : Reg, q.number = n → v = q.value s)
        ∧ ((∀ q : Reg, q.number ≠ n) → v = 0))

/-- R26: the reserved register numbers read 0 and ignore writes; the read-only registers ignore writes. -/
def Obligations.ReservedAndReadOnlyIgnoreWrites : Prop :=
  ∀ (s : State) (n : Byte) (v : Word),
    ((n.toNat = 0x07 ∨ (0x15 ≤ n.toNat ∧ n.toNat ≤ 0x17) ∨ (0x2A ≤ n.toNat ∧ n.toNat ≤ 0x2F)
        ∨ (0x3D ≤ n.toNat ∧ n.toNat ≤ 0x3F) ∨ 0x43 ≤ n.toNat) →
      hostRead n s = .ok 0 ∧ hostWrite n v s = .next s)
    ∧ ((n.toNat = 0x01 ∨ n.toNat = 0x02 ∨ n.toNat = 0x06 ∨ (0x08 ≤ n.toNat ∧ n.toNat ≤ 0x0F)
        ∨ (0x12 ≤ n.toNat ∧ n.toNat ≤ 0x14) ∨ (0x18 ≤ n.toNat ∧ n.toNat ≤ 0x1F)
        ∨ (0x22 ≤ n.toNat ∧ n.toNat ≤ 0x29) ∨ (0x40 ≤ n.toNat ∧ n.toNat ≤ 0x42)) →
      hostWrite n v s = .next s)

/-- R29: a host write of a byte of `IBUF`, or of `BUF_LEN`, clears every flag derived from the buffer, even when it
writes the old value, and changes nothing else but what it writes. -/
def Obligations.BufferWritesInvalidateTheResults : Prop :=
  ∀ (s : State) (a v : Word) (b : Byte),
    (a.toNat < s.cfg.bufSize →
      perform (.writeBuf a b) s = .next { s with
        ibuf := s.ibuf.write a.toNat b
        flags := { Flags.reset with prngValid := s.flags.prngValid } })
    ∧ ∃ len, perform (.write 0x03 v) s = .next { s with
        bufLen := len, flags := { Flags.reset with prngValid := s.flags.prngValid } }

/-- R30, R31: a host write of a region register of `CHR` or `DIS` stores the value, closes that unit's sequence, and
changes nothing else. -/
def Obligations.RegionWritesCloseTheirSequence : Prop :=
  ∀ (s : State) (v : Word),
    perform (.write 0x10 v) s = .next { s with
      chr := { s.chr with base := v }
      flags := { s.flags with chrReady := false, chrEnd := false, tileValid := false } }
    ∧ perform (.write 0x11 v) s = .next { s with
      chr := { s.chr with len := v }
      flags := { s.flags with chrReady := false, chrEnd := false, tileValid := false } }
    ∧ perform (.write 0x20 v) s = .next { s with
      dis := { s.dis with base := v }
      flags := { s.flags with disReady := false, disEnd := false, disValid := false } }
    ∧ perform (.write 0x21 v) s = .next { s with
      dis := { s.dis with len := v }
      flags := { s.flags with disReady := false, disEnd := false, disValid := false } }

/-- R27: a host write of `BUF_LEN` stores the value or the capacity, whichever is less. -/
def Obligations.BufLenIsClampedToTheCapacity : Prop :=
  ∀ (s t : State) (v : Word), perform (.write 0x03 v) s = .next t →
    t.bufLen.toNat = min v.toNat s.cfg.bufSize ∧ hostRead 0x03 t = .ok t.bufLen

/-- R28, R32: a host write of `CMD`, `ARG0`, `ARG1` or a Game Genie register keeps the low bits of the value, as many
as the register is wide; a write of `CMD` then runs that code's command (R258), the others have no side effect. -/
def Obligations.NarrowRegistersKeepTheLowBits : Prop :=
  ∀ (s : State) (v : Word),
    perform (.write 0x00 v) s
        = exec (decodeCommand (BitVec.ofNat 8 (v.toNat % 256))) { s with cmd := BitVec.ofNat 8 (v.toNat % 256) }
    ∧ perform (.write 0x04 v) s = .next { s with arg0 := v }
    ∧ perform (.write 0x05 v) s = .next { s with arg1 := v }
    ∧ (∀ i : Fin 8, perform (.write (0x30 + BitVec.ofNat 8 i.val) v) s = .next { s with
        gg := { s.gg with char := s.gg.char.set i (BitVec.ofNat 8 (v.toNat % 256)) } })
    ∧ perform (.write 0x38 v) s = .next { s with gg := { s.gg with clen := BitVec.ofNat 4 (v.toNat % 16) } }
    ∧ perform (.write 0x39 v) s = .next { s with gg := { s.gg with addr := BitVec.ofNat 16 (v.toNat % 65536) } }
    ∧ perform (.write 0x3A v) s = .next { s with gg := { s.gg with val := BitVec.ofNat 8 (v.toNat % 256) } }
    ∧ perform (.write 0x3B v) s = .next { s with gg := { s.gg with cmp := BitVec.ofNat 8 (v.toNat % 256) } }
    ∧ perform (.write 0x3C v) s = .next { s with gg := { s.gg with hasCmp := BitVec.ofNat 1 (v.toNat % 2) } }

/-- R51: within the capacity a byte reads back as last written and every other byte as before; past it a write is
ignored and a read returns 0; a byte nothing has written stops a read. -/
def Obligations.BufferReadsBackWhatWasWritten : Prop :=
  ∀ (s : State) (a b : Word) (v : Byte),
    (a.toNat < s.cfg.bufSize → hostReadBuf a (hostWriteBuf a v s) = .ok (v.setWidth 32))
    ∧ (b ≠ a → hostReadBuf b (hostWriteBuf a v s) = hostReadBuf b s)
    ∧ (s.cfg.bufSize ≤ a.toNat → hostWriteBuf a v s = s ∧ hostReadBuf a s = .ok 0)
    ∧ (a.toNat < s.cfg.bufSize → s.ibuf.read a.toNat = none → hostReadBuf a s = .error (.unwrittenByte a.toNat))

/-- R25: each bit of `FLAGS` stands in its place, and a host read of register 0x06 returns them. -/
def Obligations.FlagsBitsStandInTheirPlaces : Prop :=
  ∀ s : State,
    hostRead 0x06 s = .ok (s.flags.word.setWidth 32)
    ∧ s.flags.word.getLsbD 0 = s.flags.hdrValid ∧ s.flags.word.getLsbD 1 = s.flags.chrReady
    ∧ s.flags.word.getLsbD 2 = s.flags.chrEnd ∧ s.flags.word.getLsbD 3 = s.flags.tileValid
    ∧ s.flags.word.getLsbD 4 = s.flags.disReady ∧ s.flags.word.getLsbD 5 = s.flags.disEnd
    ∧ s.flags.word.getLsbD 6 = s.flags.disValid ∧ s.flags.word.getLsbD 7 = s.flags.prngValid

/-! ### The whole machine -/

/-- R23, R54: no instruction, of either code space, writes a byte of `IBUF`, `BUF_LEN`, `CMD`, `ARG0` or `ARG1`; nor
the parameters, the pending accesses or the values read. -/
def Obligations.InstructionsLeaveTheHostsStateAlone : Prop :=
  ∀ (i : Instr) (s t : State), exec i s = .next t →
    (∀ a, t.ibuf.read a = s.ibuf.read a) ∧ t.ibuf = s.ibuf ∧ t.bufLen = s.bufLen ∧ t.cmd = s.cmd ∧ t.arg0 = s.arg0
      ∧ t.arg1 = s.arg1 ∧ t.cfg = s.cfg ∧ t.pending = s.pending ∧ t.reads = s.reads

/-- R282: a command of one unit never changes another unit's registers or flags, but for `HDR_PARSE`, which writes
the region registers of `CHR` and `DIS` and closes their sequences. -/
def Obligations.CommandsKeepToTheirUnit : Prop :=
  ∀ (i : Instr) (s t : State), exec i s = .next t →
    (i ≠ .hdrParse → t.hdr = s.hdr ∧ t.flags.hdrValid = s.flags.hdrValid)
    ∧ (i ≠ .hdrParse → i ≠ .chrRestart → i ≠ .chrNext →
        t.chr = s.chr ∧ t.flags.chrReady = s.flags.chrReady ∧ t.flags.chrEnd = s.flags.chrEnd
          ∧ t.flags.tileValid = s.flags.tileValid)
    ∧ (i = .hdrParse → t.chr = { s.chr with base := t.chr.base, len := t.chr.len }
        ∧ t.dis = { s.dis with base := t.dis.base, len := t.dis.len })
    ∧ (i.space = .command → i ≠ .hdrParse → i ≠ .disStart → i ≠ .disNext →
        t.dis = s.dis ∧ t.flags.disReady = s.flags.disReady ∧ t.flags.disEnd = s.flags.disEnd
          ∧ t.flags.disValid = s.flags.disValid)
    ∧ (i ≠ .ggDecode → i ≠ .ggEncode → t.gg = s.gg)
    ∧ (i ≠ .prngInit → i ≠ .prngStep → i ≠ .prngSetIt → t.prng = s.prng)
    ∧ (i ≠ .prngInit → t.flags.prngValid = s.flags.prngValid)

/-- R265, R266, R268: every instruction that ends leaves one of the status codes 0 to 10 other than 6, each raised
only by the commands its row names; with status 0 `ERRINFO` is as before. -/
def Obligations.StatusIsWrittenByTheRuleOfEachCommand : Prop :=
  ∀ (i : Instr) (s t : State), exec i s = .next t →
    t.status.toNat ≤ 10 ∧ t.status ≠ 6
    ∧ (t.status = 0 → t.errinfo = s.errinfo)
    ∧ (t.status = 1 → i = .hdrParse)
    ∧ (t.status = 2 → i = .chrRestart)
    ∧ (t.status = 3 → i = .disNext ∨ i.space = .opcode)
    ∧ (t.status = 4 ∨ t.status = 5 → i = .ggDecode)
    ∧ (t.status = 7 → i = .ggEncode)
    ∧ (t.status = 8 → ∃ code, i = .illegalCommand code)
    ∧ (t.status = 9 → i = .chrNext ∨ i = .disNext ∨ i.space = .opcode ∨ i = .prngStep ∨ i = .prngSetIt)
    ∧ (t.status = 10 → i = .chrRestart ∨ i = .disStart)

/-- R15, R271: a failing command writes no output register: it changes only `STATUS`, `ERRINFO` and `FLAGS`, and
`FLAGS` only where it is `HDR_PARSE`, `CHR_RESTART` or `DIS_START` or a truncated decode; it sets no flag but the end
bit of a truncated decode. -/
def Obligations.FailingCommandWritesNoOutput : Prop :=
  ∀ (i : Instr) (s t : State), exec i s = .next t → t.status ≠ 0 →
    t = { s with status := t.status, errinfo := t.errinfo, flags := t.flags }
    ∧ (i ≠ .hdrParse → i ≠ .chrRestart → i ≠ .disStart → t.status ≠ 3 → t.flags = s.flags)
    ∧ t.flags.prngValid = s.flags.prngValid
    ∧ (t.flags.hdrValid = true → s.flags.hdrValid = true)
    ∧ (t.flags.chrReady = true → s.flags.chrReady = true)
    ∧ (t.flags.chrEnd = true → s.flags.chrEnd = true)
    ∧ (t.flags.tileValid = true → s.flags.tileValid = true)
    ∧ (t.flags.disReady = true → s.flags.disReady = true)
    ∧ (t.flags.disEnd = true → s.flags.disEnd = true ∨ t.status = 3)
    ∧ (t.flags.disValid = true → s.flags.disValid = true)

/-- R272, R141: a command that failed, issued again with no host write in between, fails again and leaves the same
state; but a truncated decode has stopped its sequence, and then finishes with status 0 and changes nothing else.
R272 says of every failed command that it fails again: that a truncated decode does not is the model's choice, which
follows R141 where the two rules part (log entry 15, DEDUCED). -/
def Obligations.FailedCommandFailsAgain : Prop :=
  ∀ (i : Instr) (s t : State), exec i s = .next t → t.status ≠ 0 →
    (t.status ≠ 3 → exec i t = .next t)
    ∧ (t.status = 3 → exec i t = .next { t with status := 0 })

/-- R33, R37, R50, R118, R119, R140 to R142, R265: every step keeps the invariant: the buffer in canonical form
within its capacity and `BUF_LEN` within it, a valid header's regions within the image, open sequences within the
image and their cursors within them, a valid tile or entry the one before the cursor, the PRNG state some number of
transitions from the seed that agrees with its count, no reserved status and no value never produced. -/
def Obligations.StepKeepsTheInvariant : Prop :=
  ∀ s t : State, s.Inv → step s = .next t → t.Inv

/-- R290: the state after reset has the invariant. (Its `BUF_SIZE` is the model's choice, log entry 1: the statement
holds the bounds of R6 for it.) -/
def Obligations.ResetHasTheInvariant : Prop := State.reset.Inv

/-- R273: with the invariant, a step stops only where a register is read while its valid bit is 0, or where a byte of
`IBUF` is read that nothing has written; no command reaches `MemRead` out of bounds. -/
def Obligations.StepStopsOnlyWhereNoValueIs : Prop :=
  ∀ (s : State) (f : Fault), s.Inv → step s = .fault f →
    (∃ q : Reg, f = .unreadableRegister q ∧ q.readable s.flags = false)
    ∨ ∃ a, f = .unwrittenByte a ∧ s.ibuf.read a = none

/-- With the invariant no step is refused: no instruction the machine meets is without a meaning. (The refusals
themselves are the model's, log entry 5 and 93_implementation_defined.md U6.) -/
def Obligations.StepIsNeverRefused : Prop :=
  ∀ (s : State) (r : Refusal), s.Inv → step s ≠ .refused r
end

