-- ==== Sys2Proof/Laws/Memory.lean ====
section
/-! SUPPORT. The laws of `IBUF`: read after write, the canonical form kept, and what reading several bytes can
answer. -/
namespace Sys2Proof.Machine

@[simp] theorem Memory.read_nil (a : Nat) : Memory.read [] a = none := rfl

@[simp] theorem Memory.read_cons (b : Nat) (w : Byte) (m : Memory) (a : Nat) :
    Memory.read ((b, w) :: m) a = if a = b then some w else Memory.read m a := rfl

@[simp] theorem Memory.read_write_same (m : Memory) (a : Nat) (v : Byte) :
    Memory.read (Memory.write m a v) a = some v := by
  induction m with
  | nil => simp [Memory.write]
  | cons c m ih =>
    obtain ⟨b, w⟩ := c
    simp only [Memory.write]
    split
    · simp
    · split
      · simp
      · simp_all

theorem Memory.read_write_other (m : Memory) {a b : Nat} (v : Byte) (h : b ≠ a) :
    Memory.read (Memory.write m a v) b = Memory.read m b := by
  induction m with
  | nil => simp [Memory.write, h]
  | cons c m ih =>
    obtain ⟨d, w⟩ := c
    simp only [Memory.write]
    split
    · simp [h]
    · split
      · rename_i e
        subst e
        simp [h]
      · simp [ih]

/-- An entry of the written store is the written one or an old one. -/
theorem Memory.mem_write {m : Memory} {a : Nat} {v : Byte} {c : Host.Cell} (h : c ∈ Memory.write m a v) :
    c = (a, v) ∨ c ∈ m := by
  induction m with
  | nil => simpa [Memory.write] using h
  | cons d m ih =>
    obtain ⟨b, w⟩ := d
    simp only [Memory.write] at h
    split at h
    · simpa using h
    · split at h
      · simp only [List.mem_cons] at h ⊢
        tauto
      · simp only [List.mem_cons] at h ⊢
        rcases h with h | h
        · exact .inr (.inl h)
        · rcases ih h with h | h
          · exact .inl h
          · exact .inr (.inr h)

theorem Memory.wf_nil : Memory.wf [] := List.Pairwise.nil

/-- A write keeps the canonical form. -/
theorem Memory.write_wf {m : Memory} (a : Nat) (v : Byte) (h : m.wf) : (Memory.write m a v).wf := by
  induction m with
  | nil => simp [Memory.write, Memory.wf]
  | cons c m ih =>
    obtain ⟨b, w⟩ := c
    have hm : Memory.wf m := (List.pairwise_cons.mp h).2
    have hb := (List.pairwise_cons.mp h).1
    simp only [Memory.write]
    split
    · rename_i hab
      refine List.pairwise_cons.mpr ⟨fun d hd => ?_, h⟩
      rcases List.mem_cons.mp hd with rfl | hd
      · exact hab
      · exact Nat.lt_trans hab (hb d hd)
    · split
      · rename_i hab
        subst hab
        exact List.pairwise_cons.mpr ⟨fun d hd => hb d hd, hm⟩
      · refine List.pairwise_cons.mpr ⟨fun d hd => ?_, ih hm⟩
        rcases Memory.mem_write hd with rfl | hd
        · simp only
          omega
        · exact hb d hd

/-- Writing several bytes keeps the canonical form. -/
theorem Memory.writeList_wf (bs : List Byte) {m : Memory} (a : Nat) (h : m.wf) : (Memory.writeList m a bs).wf := by
  induction bs generalizing m a with
  | nil => exact h
  | cons b bs ih => exact ih (a + 1) (Memory.write_wf a b h)

/-- Reading bytes succeeds exactly with the bytes that stand there. -/
theorem Memory.readBytes_ok {m : Memory} {a n : Nat} {bs : List Byte} :
    Memory.readBytes m a n = .ok bs ↔ bs.length = n ∧ ∀ k, k < n → Memory.read m (a + k) = bs[k]? := by
  induction n generalizing a bs with
  | zero =>
    simp only [Memory.readBytes, Except.ok.injEq]
    constructor
    · rintro rfl
      simp
    · rintro ⟨h, -⟩
      exact (List.length_eq_zero_iff.mp h).symm
  | succ n ih =>
    simp only [Memory.readBytes]
    constructor
    · intro h
      split at h
      · cases h
      · rename_i b hb
        split at h
        · rename_i bs' hbs
          cases h
          obtain ⟨hl, hr⟩ := ih.mp hbs
          refine ⟨by simp [hl], fun k hk => ?_⟩
          cases k with
          | zero => simpa using hb
          | succ k => simpa [Nat.add_comm, Nat.add_left_comm] using hr k (by omega)
        · cases h
    · rintro ⟨hl, hr⟩
      cases bs with
      | nil => simp at hl
      | cons b bs =>
        have hb : Memory.read m a = some b := by simpa using hr 0 (by omega)
        have hbs : Memory.readBytes m (a + 1) n = .ok bs :=
          ih.mpr ⟨by simpa using hl, fun k hk => by
            simpa [Nat.add_comm, Nat.add_left_comm] using hr (k + 1) (by omega)⟩
        simp [hb, hbs]

/-- Reading bytes fails exactly at the lowest one nothing has written. -/
theorem Memory.readBytes_error {m : Memory} {a n : Nat} {f : Fault} :
    Memory.readBytes m a n = .error f ↔
      ∃ k, k < n ∧ f = .unwrittenByte (a + k) ∧ Memory.read m (a + k) = none
        ∧ ∀ j, j < k → (Memory.read m (a + j)).isSome := by
  induction n generalizing a with
  | zero => simp [Memory.readBytes]
  | succ n ih =>
    simp only [Memory.readBytes]
    constructor
    · intro h
      split at h
      · rename_i hb
        cases h
        exact ⟨0, by omega, rfl, hb, fun j hj => by omega⟩
      · rename_i b hb
        split at h
        · cases h
        · rename_i f' hf
          cases h
          obtain ⟨k, hk, rfl, hn, hj⟩ := ih.mp hf
          refine ⟨k + 1, by omega, by simp [Nat.add_comm, Nat.add_left_comm],
            by simpa [Nat.add_comm, Nat.add_left_comm] using hn, fun j hjk => ?_⟩
          cases j with
          | zero => simp [hb]
          | succ j => simpa [Nat.add_comm, Nat.add_left_comm] using hj j (by omega)
    · rintro ⟨k, hk, rfl, hn, hj⟩
      cases k with
      | zero => simp only [Nat.add_zero] at hn ⊢; simp [hn]
      | succ k =>
        obtain ⟨b, hb⟩ := Option.isSome_iff_exists.mp (hj 0 (by omega))
        have he : Memory.readBytes m (a + 1) n = .error (.unwrittenByte (a + (k + 1))) :=
          (ih (a := a + 1)).mpr ⟨k, by omega, by simp [Nat.add_comm, Nat.add_left_comm], by simpa [Nat.add_comm, Nat.add_left_comm] using hn, fun j hjk => by
            simpa [Nat.add_comm, Nat.add_left_comm] using hj (j + 1) (by omega)⟩
        simp only [Nat.add_zero] at hb
        simp [hb, he]

/-- Two stores that agree on the bytes read give the same answer. -/
theorem Memory.readBytes_congr {m m' : Memory} {a n : Nat}
    (h : ∀ k, k < n → Memory.read m' (a + k) = Memory.read m (a + k)) :
    Memory.readBytes m' a n = Memory.readBytes m a n := by
  induction n generalizing a with
  | zero => rfl
  | succ n ih =>
    have h0 : Memory.read m' a = Memory.read m a := by simpa using h 0 (by omega)
    have h1 : Memory.readBytes m' (a + 1) n = Memory.readBytes m (a + 1) n :=
      ih fun k hk => by simpa [Nat.add_comm, Nat.add_left_comm] using h (k + 1) (by omega)
    simp only [Memory.readBytes, h0, h1]

end Sys2Proof.Machine
end

