-- ==== Sys2Proof/Laws/Ops.lean ====
section
/-! SUPPORT. What each shared operation, and each meaning, can do: one lemma each, said once, for later proofs to cite
instead of unfolding. -/
namespace Sys2Proof.Machine

section
variable {s t : State} {f : Fault} {r : Refusal}

@[simp] theorem finish_next : finish s = .next t ↔ t = { s with status := 0 } := by
  simp [finish, StatusCode.number, eq_comm]

@[simp] theorem finish_ne_fault : finish s ≠ .fault f := by simp [finish]

@[simp] theorem finish_ne_refused : finish s ≠ .refused r := by simp [finish]

@[simp] theorem raise_next {c : StatusCode} {info : Word} :
    raise c info s = .next t ↔ t = { s with status := c.number, errinfo := info } := by
  simp [raise, eq_comm]

@[simp] theorem raise_ne_fault {c : StatusCode} {info : Word} : raise c info s ≠ .fault f := by simp [raise]

@[simp] theorem raise_ne_refused {c : StatusCode} {info : Word} : raise c info s ≠ .refused r := by simp [raise]

/-- `MemRead` answers the bytes that stand there, within the image. -/
theorem memRead_ok {a n : Nat} {bs : List Byte} :
    memRead a n s = .ok bs ↔
      a + n ≤ s.bufLen.toNat ∧ bs.length = n ∧ ∀ k, k < n → s.ibuf.read (a + k) = bs[k]? := by
  simp only [memRead]
  split
  · rename_i h
    simp [h, Memory.readBytes_ok]
  · rename_i h
    simp [h]

/-- `MemRead` stops past the image, or at the lowest byte nothing has written. -/
theorem memRead_error {a n : Nat} :
    memRead a n s = .error f ↔
      (s.bufLen.toNat < a + n ∧ f = .memReadBound a n)
        ∨ (a + n ≤ s.bufLen.toNat ∧ ∃ k, k < n ∧ f = .unwrittenByte (a + k) ∧ s.ibuf.read (a + k) = none
            ∧ ∀ j, j < k → (s.ibuf.read (a + j)).isSome) := by
  simp only [memRead]
  split
  · rename_i h
    simp only [Memory.readBytes_error, h, true_and]
    constructor
    · exact .inr
    · rintro (⟨h', -⟩ | h')
      · omega
      · exact h'
  · rename_i h
    simp only [Except.error.injEq]
    constructor
    · rintro rfl
      exact .inl ⟨by omega, rfl⟩
    · rintro (⟨-, rfl⟩ | ⟨h', -⟩)
      · rfl
      · omega

theorem withBytes_of_ok {a n : Nat} {bs : List Byte} {k : List Byte → Result} (h : memRead a n s = .ok bs) :
    withBytes a n s k = k bs := by
  simp [withBytes, h]

theorem withBytes_of_error {a n : Nat} {k : List Byte → Result} (h : memRead a n s = .error f) :
    withBytes a n s k = .fault f := by
  simp [withBytes, h]

theorem withBytes_next {a n : Nat} {k : List Byte → Result} :
    withBytes a n s k = .next t ↔ ∃ bs, memRead a n s = .ok bs ∧ k bs = .next t := by
  simp only [withBytes]
  split <;> simp_all

theorem withBytes_fault {a n : Nat} {k : List Byte → Result} :
    withBytes a n s k = .fault f ↔ memRead a n s = .error f ∨ ∃ bs, memRead a n s = .ok bs ∧ k bs = .fault f := by
  simp only [withBytes]
  split <;> simp_all

theorem withBytes_refused {a n : Nat} {k : List Byte → Result} :
    withBytes a n s k = .refused r ↔ ∃ bs, memRead a n s = .ok bs ∧ k bs = .refused r := by
  simp only [withBytes]
  split <;> simp_all

/-! ### Control -/

@[simp] theorem execNop_next : execNop s = .next t ↔ t = { s with status := 0 } := finish_next

@[simp] theorem execIllegalCommand_next {code : Byte} :
    execIllegalCommand code s = .next t ↔ t = { s with status := 8, errinfo := code.setWidth 32 } := raise_next

/-! ### The header -/

@[simp] theorem rejectHeader_next {reason : BitVec 2} {v : Nat} :
    rejectHeader reason v s = .next t ↔
      t = { s with flags := s.flags.dropHeader, status := 1, errinfo := headerInfo reason v } := raise_next

@[simp] theorem acceptHeader_next {h : List Byte} {g : Regions} :
    acceptHeader h g s = .next t ↔
      t = { s with
        hdr := headerRegs h g
        chr := { s.chr with base := BitVec.ofNat 32 g.chrOff, len := BitVec.ofNat 32 g.chrLen }
        dis := { s.dis with base := BitVec.ofNat 32 g.prgOff, len := BitVec.ofNat 32 g.prgLen }
        flags := { s.flags with hdrValid := true }.closeChr.closeDis
        status := 0 } := finish_next

/-- A header parse that ends: rejected for one of the three reasons, or accepted with regions within the image. -/
theorem execHdrParse_next (h : execHdrParse s = .next t) :
    (∃ reason v, reason ≠ 3#2
        ∧ t = { s with flags := s.flags.dropHeader, status := 1, errinfo := headerInfo reason v })
      ∨ (∃ bs, 16 ≤ s.bufLen.toNat ∧ memRead 0 8 s = .ok bs ∧ firstMismatch 0 bs signature = none
          ∧ (headerRegions s.cfg bs).stop ≤ s.bufLen.toNat
          ∧ acceptHeader bs (headerRegions s.cfg bs) s = .next t) := by
  simp only [execHdrParse] at h
  split at h
  · exact .inl ⟨0, s.bufLen.toNat, by decide, rejectHeader_next.mp h⟩
  · rename_i hl
    obtain ⟨bs, hbs, hp⟩ := withBytes_next.mp h
    simp only [parseHeader] at hp
    split at hp
    · rename_i i _
      exact .inl ⟨1, i, by decide, rejectHeader_next.mp hp⟩
    · rename_i hm
      split at hp
      · rename_i he
        exact .inr ⟨bs, by omega, hbs, hm, he, hp⟩
      · exact .inl ⟨2, _, by decide, rejectHeader_next.mp hp⟩

/-- A header parse stops only where its read of the eight bytes does. -/
theorem execHdrParse_fault (h : execHdrParse s = .fault f) :
    16 ≤ s.bufLen.toNat ∧ memRead 0 8 s = .error f := by
  simp only [execHdrParse] at h
  split at h
  · simp [rejectHeader] at h
  · refine ⟨by omega, ?_⟩
    rcases withBytes_fault.mp h with h | ⟨bs, -, h⟩
    · exact h
    · simp only [parseHeader] at h
      split at h
      · simp [rejectHeader] at h
      · split at h <;> simp [rejectHeader, acceptHeader] at h

theorem execHdrParse_ne_refused : execHdrParse s ≠ .refused r := by
  intro h
  simp only [execHdrParse] at h
  split at h
  · simp [rejectHeader] at h
  · obtain ⟨bs, -, h⟩ := withBytes_refused.mp h
    simp only [parseHeader] at h
    split at h
    · simp [rejectHeader] at h
    · split at h <;> simp [rejectHeader, acceptHeader] at h

/-! ### The tiles -/

theorem inBuffer_true {b l : Word} : inBuffer b l s = true ↔ b.toNat + l.toNat ≤ s.bufLen.toNat := by
  simp [inBuffer]

theorem inBuffer_false {b l : Word} : inBuffer b l s = false ↔ s.bufLen.toNat < b.toNat + l.toNat := by
  simp [inBuffer]

/-- A restart ends: rejected with the sequence closed, or opened over a region within the image. -/
theorem execChrRestart_next (h : execChrRestart s = .next t) :
    (∃ (c : StatusCode) (info : Word), (c = .truncatedChrData ∨ c = .regionOutOfBounds)
        ∧ t = { s with flags := s.flags.closeChr, status := c.number, errinfo := info })
      ∨ (s.chr.len.toNat % 16 = 0 ∧ s.chr.base.toNat + s.chr.len.toNat ≤ s.bufLen.toNat
          ∧ t = { s with
              chr := { s.chr with cur := 0, count := BitVec.ofNat 32 (s.chr.len.toNat / 16) }
              flags := { s.flags with chrReady := true, chrEnd := false, tileValid := false }
              status := 0 }) := by
  simp only [execChrRestart] at h
  split at h
  · exact .inl ⟨.truncatedChrData, _, .inl rfl, raise_next.mp h⟩
  · rename_i hm
    split at h
    · exact .inl ⟨.regionOutOfBounds, _, .inr rfl, raise_next.mp h⟩
    · rename_i hb
      exact .inr ⟨by omega, inBuffer_true.mp (by simpa using hb), finish_next.mp h⟩

theorem execChrRestart_ne_fault : execChrRestart s ≠ .fault f := by
  simp only [execChrRestart]
  split
  · simp [rejectRegion]
  · split <;> simp [rejectRegion]

theorem execChrRestart_ne_refused : execChrRestart s ≠ .refused r := by
  simp only [execChrRestart]
  split
  · simp [rejectRegion]
  · split <;> simp [rejectRegion]

@[simp] theorem deliverTile_next {b : List Byte} :
    deliverTile b s = .next t ↔
      t = { s with
        chr := { s.chr with row := tileRows b, tileIdx := s.chr.cur, cur := s.chr.cur + 1 }
        flags := { s.flags with tileValid := true }
        status := 0 } := finish_next

/-- A `CHR_NEXT` ends: no open sequence, the end of it, or the next tile. -/
theorem execChrNext_next (h : execChrNext s = .next t) :
    (s.flags.chrReady = false ∧ t = { s with status := 9, errinfo := 0x11 })
      ∨ (s.flags.chrReady = true ∧ s.chr.cur = s.chr.count
          ∧ t = { s with flags := { s.flags with chrEnd := true, tileValid := false }, status := 0 })
      ∨ (s.flags.chrReady = true ∧ s.chr.cur ≠ s.chr.count
          ∧ ∃ b, memRead (s.chr.base.toNat + 16 * s.chr.cur.toNat) 16 s = .ok b ∧ deliverTile b s = .next t) := by
  simp only [execChrNext] at h
  split at h
  · rename_i hr
    exact .inl ⟨hr, raise_next.mp h⟩
  · rename_i hr
    have hr : s.flags.chrReady = true := by simpa using hr
    split at h
    · rename_i hc
      exact .inr (.inl ⟨hr, hc, finish_next.mp h⟩)
    · rename_i hc
      exact .inr (.inr ⟨hr, hc, withBytes_next.mp h⟩)

/-- A `CHR_NEXT` stops only where its read of the tile does. -/
theorem execChrNext_fault (h : execChrNext s = .fault f) :
    s.flags.chrReady = true ∧ s.chr.cur ≠ s.chr.count
      ∧ memRead (s.chr.base.toNat + 16 * s.chr.cur.toNat) 16 s = .error f := by
  simp only [execChrNext] at h
  split at h
  · simp at h
  · rename_i hr
    split at h
    · simp at h
    · rename_i hc
      rcases withBytes_fault.mp h with h | ⟨b, -, h⟩
      · exact ⟨by simpa using hr, hc, h⟩
      · simp [deliverTile] at h

theorem execChrNext_ne_refused : execChrNext s ≠ .refused r := by
  intro h
  simp only [execChrNext] at h
  split at h
  · simp at h
  · split at h
    · simp at h
    · obtain ⟨b, -, h⟩ := withBytes_refused.mp h
      simp [deliverTile] at h

/-! ### The decoder -/

theorem whenDecoding_notReady {k : Result} (h : s.flags.disReady = false) :
    whenDecoding s k = raise .notInitialised 0x21 s := by
  simp [whenDecoding, h]

theorem whenDecoding_stopped {k : Result} (h : s.flags.disReady = true) (he : s.flags.disEnd = true) :
    whenDecoding s k = finish s := by
  simp [whenDecoding, h, he]

theorem whenDecoding_open {k : Result} (h : s.flags.disReady = true) (he : s.flags.disEnd = false) :
    whenDecoding s k = k := by
  simp [whenDecoding, h, he]

/-- What a decode command answers: the error of no open sequence, nothing once stopped, or its decode. -/
theorem whenDecoding_next {k : Result} (h : whenDecoding s k = .next t) :
    (s.flags.disReady = false ∧ t = { s with status := 9, errinfo := 0x21 })
      ∨ (s.flags.disReady = true ∧ s.flags.disEnd = true ∧ t = { s with status := 0 })
      ∨ (s.flags.disReady = true ∧ s.flags.disEnd = false ∧ k = .next t) := by
  simp only [whenDecoding] at h
  split at h
  · rename_i hr
    exact .inl ⟨hr, raise_next.mp h⟩
  · rename_i hr
    have hr : s.flags.disReady = true := by simpa using hr
    split at h
    · rename_i he
      exact .inr (.inl ⟨hr, he, finish_next.mp h⟩)
    · rename_i he
      exact .inr (.inr ⟨hr, by simpa using he, h⟩)

@[simp] theorem disFinish_stop_next :
    disFinish .stop s = .next t ↔
      t = { s with flags := { s.flags with disEnd := true, disValid := false }, status := 0 } := finish_next

@[simp] theorem disFinish_truncated_next {c : Word} :
    disFinish (.truncated c) s = .next t ↔
      t = { s with flags := { s.flags with disEnd := true, disValid := false }, status := 3, errinfo := c } :=
  raise_next

@[simp] theorem disFinish_entry_next {e : Entry} :
    disFinish (.entry e) s = .next t ↔
      t = { s with dis := entryRegs e s.dis, flags := { s.flags with disValid := true }, status := 0 } :=
  finish_next

@[simp] theorem disFinish_ne_fault {d : Decoded} : disFinish d s ≠ .fault f := by
  cases d <;> simp [disFinish]

@[simp] theorem disFinish_ne_refused {d : Decoded} : disFinish d s ≠ .refused r := by
  cases d <;> simp [disFinish]

/-- What the decode step can find: the end of the region; or an opcode byte before it, whose operands the region
cuts off or which is the entry of the opcode table's mnemonic and mode. -/
theorem disDecode_ok {base len cur : Word} {d : Decoded} (h : disDecode base len cur s = .ok d) :
    (len.toNat ≤ cur.toNat ∧ d = .stop)
      ∨ (cur.toNat < len.toNat ∧ ∃ op, memRead (base.toNat + cur.toNat) 1 s = .ok [op]
          ∧ ((len.toNat < cur.toNat + 1 + (optable op).2.nopnd ∧ d = .truncated cur)
              ∨ (cur.toNat + 1 + (optable op).2.nopnd ≤ len.toNat ∧ ∃ ob,
                  memRead (base.toNat + cur.toNat + 1) (optable op).2.nopnd s = .ok ob
                    ∧ d = .entry { byteOffset := cur, opcode := op, mnemonic := (optable op).1
                                   mode := (optable op).2, operandBytes := ob }))) := by
  simp only [disDecode] at h
  split at h
  · rename_i hl
    exact .inl ⟨hl, by simpa using h.symm⟩
  · rename_i hl
    refine .inr ⟨by omega, ?_⟩
    split at h
    · cases h
    · rename_i ops hops
      obtain ⟨-, hlen, -⟩ := memRead_ok.mp hops
      obtain ⟨op, rfl⟩ := List.length_eq_one_iff.mp hlen
      refine ⟨op, hops, ?_⟩
      simp only [List.getD_cons_zero] at h
      split at h
      · rename_i ht
        exact .inl ⟨ht, by simpa using h.symm⟩
      · rename_i ht
        refine .inr ⟨by omega, ?_⟩
        split at h
        · cases h
        · rename_i ob hob
          exact ⟨ob, hob, by simpa using h.symm⟩

/-- The decode step stops only where one of its two reads does, both within the region. -/
theorem disDecode_error {base len cur : Word} (h : disDecode base len cur s = .error f) :
    cur.toNat < len.toNat ∧
      (memRead (base.toNat + cur.toNat) 1 s = .error f
        ∨ ∃ n, cur.toNat + 1 + n ≤ len.toNat ∧ memRead (base.toNat + cur.toNat + 1) n s = .error f) := by
  simp only [disDecode] at h
  split at h
  · cases h
  · rename_i hl
    refine ⟨by omega, ?_⟩
    split at h
    · rename_i f' hf
      cases h
      exact .inl hf
    · split at h
      · cases h
      · rename_i ht
        split at h
        · rename_i f' hf
          cases h
          exact .inr ⟨_, by omega, hf⟩
        · cases h

/-- A start ends: rejected with the sequence closed, or opened over a region within the image. -/
theorem execDisStart_next (h : execDisStart s = .next t) :
    (s.bufLen.toNat < s.dis.base.toNat + s.dis.len.toNat
        ∧ t = { s with flags := s.flags.closeDis, status := 10, errinfo := s.dis.base + s.dis.len })
      ∨ (s.dis.base.toNat + s.dis.len.toNat ≤ s.bufLen.toNat
          ∧ t = { s with
              dis := { s.dis with cur := s.arg0 }
              flags := { s.flags with disReady := true, disEnd := false, disValid := false }
              status := 0 }) := by
  simp only [execDisStart] at h
  split at h
  · rename_i hb
    exact .inl ⟨inBuffer_false.mp hb, raise_next.mp h⟩
  · rename_i hb
    exact .inr ⟨inBuffer_true.mp (by simpa using hb), finish_next.mp h⟩

theorem execDisStart_ne_fault : execDisStart s ≠ .fault f := by
  simp only [execDisStart]
  split <;> simp

theorem execDisStart_ne_refused : execDisStart s ≠ .refused r := by
  simp only [execDisStart]
  split <;> simp

/-- A `DIS_NEXT` ends: no open sequence, a stopped one, or what its decode step found. -/
theorem execDisNext_next (h : execDisNext s = .next t) :
    (s.flags.disReady = false ∧ t = { s with status := 9, errinfo := 0x21 })
      ∨ (s.flags.disReady = true ∧ s.flags.disEnd = true ∧ t = { s with status := 0 })
      ∨ (s.flags.disReady = true ∧ s.flags.disEnd = false
          ∧ ∃ d, disDecode s.dis.base s.dis.len s.dis.cur s = .ok d ∧ disFinish d s = .next t) := by
  rcases whenDecoding_next h with h | h | ⟨hr, he, h⟩
  · exact .inl h
  · exact .inr (.inl h)
  · refine .inr (.inr ⟨hr, he, ?_⟩)
    split at h
    · rename_i d hd
      exact ⟨d, hd, h⟩
    · cases h

/-- A `DIS_NEXT` stops only where its decode step does. -/
theorem execDisNext_fault (h : execDisNext s = .fault f) :
    s.flags.disReady = true ∧ disDecode s.dis.base s.dis.len s.dis.cur s = .error f := by
  simp only [execDisNext, whenDecoding] at h
  split at h
  · simp at h
  · rename_i hr
    split at h
    · simp at h
    · split at h
      · simp at h
      · rename_i f' hf
        cases h
        exact ⟨by simpa using hr, hf⟩

theorem execDisNext_ne_refused : execDisNext s ≠ .refused r := by
  intro h
  simp only [execDisNext, whenDecoding] at h
  split at h
  · simp at h
  · split at h
    · simp at h
    · split at h
      · simp at h
      · cases h

/-- What the template of a 6502 instruction can do. -/
theorem decodeAs_next {op : Byte} {m : Mnemonic} {mode : Mode} {bytes : List Byte}
    (h : decodeAs op m mode bytes s = .next t) :
    (s.flags.disReady = false ∧ t = { s with status := 9, errinfo := 0x21 })
      ∨ (s.flags.disReady = true ∧ s.flags.disEnd = true ∧ t = { s with status := 0 })
      ∨ (s.flags.disReady = true ∧ s.flags.disEnd = false
          ∧ ∃ d, disFinish d s = .next t
            ∧ (d = .stop ∨ d = .truncated s.dis.cur
                ∨ d = .entry { byteOffset := s.dis.cur, opcode := op, mnemonic := m, mode := mode
                               operandBytes := bytes })) := by
  rcases whenDecoding_next h with h | h | ⟨hr, he, h⟩
  · exact .inl h
  · exact .inr (.inl h)
  · refine .inr (.inr ⟨hr, he, ?_⟩)
    split at h
    · exact ⟨_, h, .inl rfl⟩
    · split at h
      · exact ⟨_, h, .inr (.inl rfl)⟩
      · exact ⟨_, h, .inr (.inr rfl)⟩

theorem decodeAs_ne_fault {op : Byte} {m : Mnemonic} {mode : Mode} {bytes : List Byte} :
    decodeAs op m mode bytes s ≠ .fault f := by
  simp only [decodeAs, whenDecoding]
  repeat' split
  all_goals simp

theorem decodeAs_ne_refused {op : Byte} {m : Mnemonic} {mode : Mode} {bytes : List Byte} :
    decodeAs op m mode bytes s ≠ .refused r := by
  simp only [decodeAs, whenDecoding]
  repeat' split
  all_goals simp

theorem decodeForm_of_opcode {m : Mnemonic} {o : Operand} {i : Instr} {op : Byte}
    (h : opcodeOf m o.mode = some op) : decodeForm m o i s = decodeAs op m o.mode o.bytes s := by
  simp [decodeForm, h]

/-- A form that ends has an opcode byte, and ends as its template does. -/
theorem decodeForm_next {m : Mnemonic} {o : Operand} {i : Instr} (h : decodeForm m o i s = .next t) :
    ∃ op, opcodeOf m o.mode = some op ∧ decodeAs op m o.mode o.bytes s = .next t := by
  simp only [decodeForm] at h
  split at h
  · rename_i op ho
    exact ⟨op, ho, h⟩
  · cases h

theorem decodeForm_ne_fault {m : Mnemonic} {o : Operand} {i : Instr} : decodeForm m o i s ≠ .fault f := by
  simp only [decodeForm]
  split
  · exact decodeAs_ne_fault
  · simp

/-- Every legal 6502 instruction runs through its mnemonic's form. -/
theorem exec_of_entry {i : Instr} {m : Mnemonic} {o : Operand} (h : i.entry? = some (m, o)) :
    exec i s = decodeForm m o i s := by
  cases i <;> simp only [Instr.entry?, Option.some.injEq, Prod.mk.injEq, reduceCtorEq] at h <;>
    obtain ⟨rfl, rfl⟩ := h <;> rfl

/-! ### Game Genie -/

/-- A decode ends: a bad length, a bad character, or the triple. -/
theorem execGgDecode_next (h : execGgDecode s = .next t) :
    (s.gg.clen ≠ 6 ∧ s.gg.clen ≠ 8 ∧ t = { s with status := 4, errinfo := s.gg.clen.setWidth 32 })
      ∨ ((s.gg.clen = 6 ∨ s.gg.clen = 8) ∧
          ((∃ i ch, ggNibbles s.cfg.ggCaseFold 0 (s.gg.code s.gg.clen.toNat) = .error (i, ch)
              ∧ t = { s with status := 5, errinfo := characterInfo i ch })
            ∨ (∃ ns, ggNibbles s.cfg.ggCaseFold 0 (s.gg.code s.gg.clen.toNat) = .ok ns
              ∧ t = { s with gg := s.gg.withTriple (ggFields ns), status := 0 }))) := by
  simp only [execGgDecode] at h
  split at h
  · rename_i hl
    exact .inl ⟨hl.1, hl.2, raise_next.mp h⟩
  · rename_i hl
    refine .inr ⟨by tauto, ?_⟩
    split at h
    · rename_i i ch hn
      exact .inl ⟨i, ch, hn, raise_next.mp h⟩
    · rename_i ns hn
      exact .inr ⟨ns, hn, finish_next.mp h⟩

theorem execGgDecode_ne_fault : execGgDecode s ≠ .fault f := by
  simp only [execGgDecode]
  split
  · simp
  · split <;> simp

theorem execGgDecode_ne_refused : execGgDecode s ≠ .refused r := by
  simp only [execGgDecode]
  split
  · simp
  · split <;> simp

/-- An encode ends: a low address, or the code. -/
theorem execGgEncode_next (h : execGgEncode s = .next t) :
    (s.gg.addr.getLsbD 15 = false ∧ t = { s with status := 7, errinfo := s.gg.addr.setWidth 32 })
      ∨ (s.gg.addr.getLsbD 15 = true
          ∧ t = { s with
              gg := s.gg.withCode
                (ggEncodeNibbles s.gg.triple.address s.gg.triple.value s.gg.triple.compare)
              status := 0 }) := by
  simp only [execGgEncode] at h
  split at h
  · rename_i ha
    exact .inl ⟨ha, raise_next.mp h⟩
  · rename_i ha
    exact .inr ⟨by simpa using ha, finish_next.mp h⟩

theorem execGgEncode_ne_fault : execGgEncode s ≠ .fault f := by
  simp only [execGgEncode]
  split <;> simp

theorem execGgEncode_ne_refused : execGgEncode s ≠ .refused r := by
  simp only [execGgEncode]
  split <;> simp

/-! ### The PRNG -/

@[simp] theorem execPrngInit_next :
    execPrngInit s = .next t ↔
      t = { s with
        prng := prngFrom s.cfg (s.arg0.setWidth 16) (s.arg1.setWidth 16)
        flags := { s.flags with prngValid := true }
        status := 0 } := finish_next

theorem execPrngSetIt_next (h : execPrngSetIt s = .next t) :
    (s.flags.prngValid = false ∧ t = { s with status := 9, errinfo := 0x42 })
      ∨ (s.flags.prngValid = true
          ∧ t = { s with prng := prngFrom s.cfg s.prng.seed (s.arg0.setWidth 16), status := 0 }) := by
  simp only [execPrngSetIt] at h
  split at h
  · rename_i hv
    exact .inl ⟨hv, raise_next.mp h⟩
  · rename_i hv
    exact .inr ⟨by simpa using hv, finish_next.mp h⟩

theorem execPrngStep_next (h : execPrngStep s = .next t) :
    (s.flags.prngValid = false ∧ t = { s with status := 9, errinfo := 0x41 })
      ∨ (s.flags.prngValid = true
          ∧ t = { s with
              prng := { s.prng with state := prngStep s.cfg s.prng.state, iter := s.prng.iter + 1 }
              status := 0 }) := by
  simp only [execPrngStep] at h
  split at h
  · rename_i hv
    exact .inl ⟨hv, raise_next.mp h⟩
  · rename_i hv
    exact .inr ⟨by simpa using hv, finish_next.mp h⟩

theorem execPrngSetIt_ne_fault : execPrngSetIt s ≠ .fault f := by
  simp only [execPrngSetIt]
  split <;> simp

theorem execPrngStep_ne_fault : execPrngStep s ≠ .fault f := by
  simp only [execPrngStep]
  split <;> simp

theorem execPrngSetIt_ne_refused : execPrngSetIt s ≠ .refused r := by
  simp only [execPrngSetIt]
  split <;> simp

theorem execPrngStep_ne_refused : execPrngStep s ≠ .refused r := by
  simp only [execPrngStep]
  split <;> simp

end

end Sys2Proof.Machine
end

