-- ==== Sys2Proof/Laws/State.lean ====
section
/-! SUPPORT. The small lemmas of the state's updates: one for each field that a named update may have changed, true
by `rfl`. -/
namespace Sys2Proof.Machine

@[simp] theorem Flags.dropHeader_hdrValid (f : Flags) : f.dropHeader.hdrValid = false := rfl
@[simp] theorem Flags.dropHeader_chrReady (f : Flags) : f.dropHeader.chrReady = f.chrReady := rfl
@[simp] theorem Flags.dropHeader_chrEnd (f : Flags) : f.dropHeader.chrEnd = f.chrEnd := rfl
@[simp] theorem Flags.dropHeader_tileValid (f : Flags) : f.dropHeader.tileValid = f.tileValid := rfl
@[simp] theorem Flags.dropHeader_disReady (f : Flags) : f.dropHeader.disReady = f.disReady := rfl
@[simp] theorem Flags.dropHeader_disEnd (f : Flags) : f.dropHeader.disEnd = f.disEnd := rfl
@[simp] theorem Flags.dropHeader_disValid (f : Flags) : f.dropHeader.disValid = f.disValid := rfl
@[simp] theorem Flags.dropHeader_prngValid (f : Flags) : f.dropHeader.prngValid = f.prngValid := rfl

@[simp] theorem Flags.closeChr_hdrValid (f : Flags) : f.closeChr.hdrValid = f.hdrValid := rfl
@[simp] theorem Flags.closeChr_chrReady (f : Flags) : f.closeChr.chrReady = false := rfl
@[simp] theorem Flags.closeChr_chrEnd (f : Flags) : f.closeChr.chrEnd = false := rfl
@[simp] theorem Flags.closeChr_tileValid (f : Flags) : f.closeChr.tileValid = false := rfl
@[simp] theorem Flags.closeChr_disReady (f : Flags) : f.closeChr.disReady = f.disReady := rfl
@[simp] theorem Flags.closeChr_disEnd (f : Flags) : f.closeChr.disEnd = f.disEnd := rfl
@[simp] theorem Flags.closeChr_disValid (f : Flags) : f.closeChr.disValid = f.disValid := rfl
@[simp] theorem Flags.closeChr_prngValid (f : Flags) : f.closeChr.prngValid = f.prngValid := rfl

@[simp] theorem Flags.closeDis_hdrValid (f : Flags) : f.closeDis.hdrValid = f.hdrValid := rfl
@[simp] theorem Flags.closeDis_chrReady (f : Flags) : f.closeDis.chrReady = f.chrReady := rfl
@[simp] theorem Flags.closeDis_chrEnd (f : Flags) : f.closeDis.chrEnd = f.chrEnd := rfl
@[simp] theorem Flags.closeDis_tileValid (f : Flags) : f.closeDis.tileValid = f.tileValid := rfl
@[simp] theorem Flags.closeDis_disReady (f : Flags) : f.closeDis.disReady = false := rfl
@[simp] theorem Flags.closeDis_disEnd (f : Flags) : f.closeDis.disEnd = false := rfl
@[simp] theorem Flags.closeDis_disValid (f : Flags) : f.closeDis.disValid = false := rfl
@[simp] theorem Flags.closeDis_prngValid (f : Flags) : f.closeDis.prngValid = f.prngValid := rfl

@[simp] theorem Flags.invalidate_hdrValid (f : Flags) : f.invalidate.hdrValid = false := rfl
@[simp] theorem Flags.invalidate_chrReady (f : Flags) : f.invalidate.chrReady = false := rfl
@[simp] theorem Flags.invalidate_chrEnd (f : Flags) : f.invalidate.chrEnd = false := rfl
@[simp] theorem Flags.invalidate_tileValid (f : Flags) : f.invalidate.tileValid = false := rfl
@[simp] theorem Flags.invalidate_disReady (f : Flags) : f.invalidate.disReady = false := rfl
@[simp] theorem Flags.invalidate_disEnd (f : Flags) : f.invalidate.disEnd = false := rfl
@[simp] theorem Flags.invalidate_disValid (f : Flags) : f.invalidate.disValid = false := rfl
@[simp] theorem Flags.invalidate_prngValid (f : Flags) : f.invalidate.prngValid = f.prngValid := rfl

@[simp] theorem resetBlock_cfg (s : State) : (resetBlock s).cfg = s.cfg := rfl
@[simp] theorem resetBlock_ibuf (s : State) : (resetBlock s).ibuf = State.reset.ibuf := rfl
@[simp] theorem resetBlock_bufLen (s : State) : (resetBlock s).bufLen = State.reset.bufLen := rfl
@[simp] theorem resetBlock_cmd (s : State) : (resetBlock s).cmd = State.reset.cmd := rfl
@[simp] theorem resetBlock_status (s : State) : (resetBlock s).status = State.reset.status := rfl
@[simp] theorem resetBlock_errinfo (s : State) : (resetBlock s).errinfo = State.reset.errinfo := rfl
@[simp] theorem resetBlock_arg0 (s : State) : (resetBlock s).arg0 = State.reset.arg0 := rfl
@[simp] theorem resetBlock_arg1 (s : State) : (resetBlock s).arg1 = State.reset.arg1 := rfl
@[simp] theorem resetBlock_flags (s : State) : (resetBlock s).flags = State.reset.flags := rfl
@[simp] theorem resetBlock_hdr (s : State) : (resetBlock s).hdr = State.reset.hdr := rfl
@[simp] theorem resetBlock_chr (s : State) : (resetBlock s).chr = State.reset.chr := rfl
@[simp] theorem resetBlock_dis (s : State) : (resetBlock s).dis = State.reset.dis := rfl
@[simp] theorem resetBlock_gg (s : State) : (resetBlock s).gg = State.reset.gg := rfl
@[simp] theorem resetBlock_prng (s : State) : (resetBlock s).prng = State.reset.prng := rfl
@[simp] theorem resetBlock_pending (s : State) : (resetBlock s).pending = s.pending := rfl
@[simp] theorem resetBlock_reads (s : State) : (resetBlock s).reads = s.reads := rfl

@[simp] theorem placeCommand_cfg (v : Word) (s : State) : (placeCommand v s).cfg = s.cfg := rfl
@[simp] theorem placeCommand_ibuf (v : Word) (s : State) : (placeCommand v s).ibuf = s.ibuf := rfl
@[simp] theorem placeCommand_bufLen (v : Word) (s : State) : (placeCommand v s).bufLen = s.bufLen := rfl
@[simp] theorem placeCommand_cmd (v : Word) (s : State) : (placeCommand v s).cmd = s.cmd := rfl
@[simp] theorem placeCommand_status (v : Word) (s : State) : (placeCommand v s).status = s.status := rfl
@[simp] theorem placeCommand_errinfo (v : Word) (s : State) : (placeCommand v s).errinfo = s.errinfo := rfl
@[simp] theorem placeCommand_arg0 (v : Word) (s : State) : (placeCommand v s).arg0 = s.arg0 := rfl
@[simp] theorem placeCommand_arg1 (v : Word) (s : State) : (placeCommand v s).arg1 = s.arg1 := rfl
@[simp] theorem placeCommand_flags (v : Word) (s : State) : (placeCommand v s).flags = s.flags := rfl
@[simp] theorem placeCommand_hdr (v : Word) (s : State) : (placeCommand v s).hdr = s.hdr := rfl
@[simp] theorem placeCommand_chr (v : Word) (s : State) : (placeCommand v s).chr = s.chr := rfl
@[simp] theorem placeCommand_dis (v : Word) (s : State) : (placeCommand v s).dis = s.dis := rfl
@[simp] theorem placeCommand_gg (v : Word) (s : State) : (placeCommand v s).gg = s.gg := rfl
@[simp] theorem placeCommand_prng (v : Word) (s : State) : (placeCommand v s).prng = s.prng := rfl
@[simp] theorem placeCommand_pending (v : Word) (s : State) : (placeCommand v s).pending = .write 0x00 v :: s.pending := rfl
@[simp] theorem placeCommand_reads (v : Word) (s : State) : (placeCommand v s).reads = s.reads := rfl

@[simp] theorem entryRegs_base (e : Entry) (d : DisRegs) : (entryRegs e d).base = d.base := rfl
@[simp] theorem entryRegs_len (e : Entry) (d : DisRegs) : (entryRegs e d).len = d.len := rfl
@[simp] theorem entryRegs_cur (e : Entry) (d : DisRegs) : (entryRegs e d).cur = d.cur + BitVec.ofNat 32 e.encodedLength := rfl
@[simp] theorem entryRegs_off (e : Entry) (d : DisRegs) : (entryRegs e d).off = e.byteOffset := rfl
@[simp] theorem entryRegs_opc (e : Entry) (d : DisRegs) : (entryRegs e d).opc = e.opcode := rfl
@[simp] theorem entryRegs_mnem (e : Entry) (d : DisRegs) : (entryRegs e d).mnem = mnemonicNumber e.mnemonic := rfl
@[simp] theorem entryRegs_mode (e : Entry) (d : DisRegs) : (entryRegs e d).mode = modeNumber e.mode := rfl
@[simp] theorem entryRegs_nopnd (e : Entry) (d : DisRegs) : (entryRegs e d).nopnd = BitVec.ofNat 2 e.operandBytes.length := rfl
@[simp] theorem entryRegs_opnd (e : Entry) (d : DisRegs) : (entryRegs e d).opnd = packOperands e.operandBytes := rfl
@[simp] theorem entryRegs_elen (e : Entry) (d : DisRegs) : (entryRegs e d).elen = BitVec.ofNat 2 e.encodedLength := rfl

@[simp] theorem GgRegs.withTriple_char (g : GgRegs) (t : Triple) : (g.withTriple t).char = g.char := rfl
@[simp] theorem GgRegs.withTriple_clen (g : GgRegs) (t : Triple) : (g.withTriple t).clen = g.clen := rfl
@[simp] theorem GgRegs.withTriple_addr (g : GgRegs) (t : Triple) : (g.withTriple t).addr = t.address := rfl
@[simp] theorem GgRegs.withTriple_val (g : GgRegs) (t : Triple) : (g.withTriple t).val = t.value := rfl
@[simp] theorem GgRegs.withTriple_cmp (g : GgRegs) (t : Triple) : (g.withTriple t).cmp = t.compare.getD 0 := rfl
@[simp] theorem GgRegs.withTriple_hasCmp (g : GgRegs) (t : Triple) : (g.withTriple t).hasCmp = if t.compare.isSome then 1 else 0 := rfl

@[simp] theorem GgRegs.withCode_char (g : GgRegs) (ns : List Nibble) : (g.withCode ns).char = Bank8.ofFn fun i => (ns.map ggLetter).getD i.val 0 := rfl
@[simp] theorem GgRegs.withCode_clen (g : GgRegs) (ns : List Nibble) : (g.withCode ns).clen = BitVec.ofNat 4 ns.length := rfl
@[simp] theorem GgRegs.withCode_addr (g : GgRegs) (ns : List Nibble) : (g.withCode ns).addr = g.addr := rfl
@[simp] theorem GgRegs.withCode_val (g : GgRegs) (ns : List Nibble) : (g.withCode ns).val = g.val := rfl
@[simp] theorem GgRegs.withCode_cmp (g : GgRegs) (ns : List Nibble) : (g.withCode ns).cmp = g.cmp := rfl
@[simp] theorem GgRegs.withCode_hasCmp (g : GgRegs) (ns : List Nibble) : (g.withCode ns).hasCmp = g.hasCmp := rfl

@[simp] theorem prngFrom_seed (c : Config) (seed n : Half) : (prngFrom c seed n).seed = seed := rfl
@[simp] theorem prngFrom_iter (c : Config) (seed n : Half) : (prngFrom c seed n).iter = n := rfl
@[simp] theorem prngFrom_state (c : Config) (seed n : Half) : (prngFrom c seed n).state = Machine.iter (prngStep c) n.toNat seed := rfl

@[simp] theorem iter_zero (f : Half → Half) (s : Half) : iter f 0 s = s := rfl

@[simp] theorem iter_succ (f : Half → Half) (k : Nat) (s : Half) : iter f (k + 1) s = f (iter f k s) := rfl

@[simp] theorem Bank8.get_ofFn {α : Type} (f : Fin 8 → α) (i : Fin 8) : (Bank8.ofFn f).get i = f i := by
  fin_cases i <;> rfl

@[simp] theorem Bank8.get_set_same {α : Type} (b : Bank8 α) (i : Fin 8) (v : α) : (b.set i v).get i = v := by
  fin_cases i <;> rfl

theorem Bank8.get_set_other {α : Type} (b : Bank8 α) {i j : Fin 8} (v : α) (h : j ≠ i) :
    (b.set i v).get j = b.get j := by
  fin_cases i <;> fin_cases j <;> first | rfl | exact absurd rfl h

@[simp] theorem Bank8.toList_length {α : Type} (b : Bank8 α) : b.toList.length = 8 := rfl

/-- A register write other than of `BUF_LEN` or a region register leaves `FLAGS` alone (R32). -/
theorem writeReg_flags (v : Word) (s : State) (r : Reg)
    (h : r ≠ .bufLen ∧ r ≠ .chrBase ∧ r ≠ .chrLen ∧ r ≠ .disBase ∧ r ≠ .disLen) :
    (writeReg v s r).flags = s.flags := by
  obtain ⟨h1, h2, h3, h4, h5⟩ := h
  cases r <;> first | rfl | contradiction

/-- What a register write can touch: nothing but the length, the arguments, the unit registers and `FLAGS`. -/
theorem writeReg_frame (v : Word) (s : State) (r : Reg) :
    (writeReg v s r).cfg = s.cfg ∧ (writeReg v s r).ibuf = s.ibuf ∧ (writeReg v s r).cmd = s.cmd
      ∧ (writeReg v s r).status = s.status ∧ (writeReg v s r).errinfo = s.errinfo ∧ (writeReg v s r).hdr = s.hdr
      ∧ (writeReg v s r).prng = s.prng ∧ (writeReg v s r).pending = s.pending
      ∧ (writeReg v s r).reads = s.reads := by
  cases r <;> exact ⟨rfl, rfl, rfl, rfl, rfl, rfl, rfl, rfl, rfl⟩

end Sys2Proof.Machine
end

