-- ==== Sys2Proof/Laws/Access.lean ====
section
/-! SUPPORT. What a host access and a step can do: one lemma for each, for later proofs to cite instead of
unfolding. -/
namespace Sys2Proof.Machine

section
variable {s t : State} {f : Fault} {r : Refusal}

theorem step_idle (hu : s.holdsUnproduced = false) (hp : s.pending = []) : step s = .next s := by
  simp [step, nextAccess, hu, hp]

theorem step_perform {e : Event} {rest : List Event} (hu : s.holdsUnproduced = false)
    (hp : s.pending = e :: rest) : step s = perform e { s with pending := rest } := by
  simp [step, nextAccess, hu, hp]

theorem step_unproduced (hu : s.holdsUnproduced = true) : step s = .refused .neverProduced := by
  simp [step, nextAccess, hu]

/-- What a step can do: hold the state with no access pending, or perform the next access. -/
theorem step_next (h : step s = .next t) :
    s.holdsUnproduced = false ∧
      ((s.pending = [] ∧ t = s)
        ∨ ∃ e rest, s.pending = e :: rest ∧ perform e { s with pending := rest } = .next t) := by
  simp only [step, nextAccess] at h
  split at h
  · cases h
  · rename_i hu
    refine ⟨by simpa using hu, ?_⟩
    split at h
    · rename_i hp
      cases h
      exact .inl ⟨hp, rfl⟩
    · rename_i e rest hp
      exact .inr ⟨e, rest, hp, h⟩

theorem step_fault (h : step s = .fault f) :
    s.holdsUnproduced = false ∧ ∃ e rest, s.pending = e :: rest ∧ perform e { s with pending := rest } = .fault f := by
  simp only [step, nextAccess] at h
  split at h
  · cases h
  · rename_i hu
    split at h
    · cases h
    · rename_i e rest hp
      exact ⟨by simpa using hu, e, rest, hp, h⟩

theorem step_refused (h : step s = .refused r) :
    s.holdsUnproduced = true ∨ ∃ e rest, s.pending = e :: rest ∧ perform e { s with pending := rest } = .refused r := by
  simp only [step, nextAccess] at h
  split at h
  · rename_i hu
    exact .inl hu
  · split at h
    · cases h
    · rename_i e rest hp
      exact .inr ⟨e, rest, hp, h⟩

@[simp] theorem recordRead_next {x : Except Fault Word} :
    recordRead s x = .next t ↔ ∃ v, x = .ok v ∧ t = { s with reads := v :: s.reads } := by
  cases x <;> simp [recordRead, eq_comm]

@[simp] theorem recordRead_fault {x : Except Fault Word} : recordRead s x = .fault f ↔ x = .error f := by
  cases x <;> simp [recordRead]

@[simp] theorem recordRead_ne_refused {x : Except Fault Word} : recordRead s x ≠ .refused r := by
  cases x <;> simp [recordRead]

theorem regOf_cmd : regOf 0x00 = some .cmd := by decide

/-- The number of every register leads back to it. -/
theorem regOf_number (q : Reg) : regOf q.number = some q := by
  cases q <;> first | decide | (rename_i i; fin_cases i <;> decide)

/-- What a host write can do: nothing for a reserved number, a command for register 0x00, or a register write. -/
theorem hostWrite_cases (n : Byte) (v : Word) (s : State) :
    (regOf n = none ∧ hostWrite n v s = .next s)
      ∨ (regOf n = some .cmd ∧ hostWrite n v s = commandCycle v s)
      ∨ ∃ q, q ≠ .cmd ∧ regOf n = some q ∧ hostWrite n v s = .next (writeReg v s q) := by
  unfold hostWrite
  cases h : regOf n with
  | none => exact .inl ⟨rfl, rfl⟩
  | some q =>
    by_cases hq : q = .cmd
    · subst hq
      exact .inr (.inl ⟨rfl, rfl⟩)
    · refine .inr (.inr ⟨q, hq, rfl, ?_⟩)
      cases q <;> first | rfl | exact absurd rfl hq

theorem hostWrite_cmd (v : Word) (s : State) : hostWrite 0x00 v s = commandCycle v s := by
  unfold hostWrite
  rw [regOf_cmd]

/-- A host read that answers has found a reserved number, or a register that may be read. -/
theorem hostRead_ok {n : Byte} {v : Word} (h : hostRead n s = .ok v) :
    (regOf n = none ∧ v = 0) ∨ ∃ q, regOf n = some q ∧ q.readable s.flags = true ∧ v = q.value s := by
  simp only [hostRead] at h
  split at h
  · rename_i hn
    exact .inl ⟨hn, by simpa using h.symm⟩
  · rename_i q hq
    split at h
    · rename_i hr
      exact .inr ⟨q, hq, hr, by simpa using h.symm⟩
    · cases h

/-- A host read stops only at a register whose valid bit is 0. -/
theorem hostRead_error {n : Byte} (h : hostRead n s = .error f) :
    ∃ q, regOf n = some q ∧ q.readable s.flags = false ∧ f = .unreadableRegister q := by
  simp only [hostRead] at h
  split at h
  · cases h
  · rename_i q hq
    split at h
    · cases h
    · rename_i hr
      exact ⟨q, hq, by simpa using hr, by simpa using h.symm⟩

/-- A host read of the buffer stops only at a byte nothing has written. -/
theorem hostReadBuf_error {a : Word} (h : hostReadBuf a s = .error f) :
    f = .unwrittenByte a.toNat ∧ s.ibuf.read a.toNat = none := by
  simp only [hostReadBuf] at h
  split at h
  · split at h
    · cases h
    · rename_i hn
      exact ⟨by simpa using h.symm, hn⟩
  · cases h

/-- The decoder answers only the block's own commands for a code. -/
theorem decodeCommand_cases (code : Byte) :
    decodeCommand code ∈ ([.nop, .hdrParse, .chrRestart, .chrNext, .disStart, .disNext, .ggDecode, .ggEncode,
      .prngInit, .prngStep, .prngSetIt] : List Instr) ∨ decodeCommand code = .illegalCommand code := by
  unfold decodeCommand
  repeat' split
  all_goals simp

/-- The memory of every field a `writeReg` may touch stays in canonical form: it writes no memory. -/
theorem writeReg_ibuf (v : Word) (s : State) (q : Reg) : (writeReg v s q).ibuf = s.ibuf := (writeReg_frame v s q).2.1

/-- The memory operations of an access keep the canonical form. -/
theorem hostWriteBuf_wf (a : Word) (v : Byte) (h : s.ibuf.wf) : (hostWriteBuf a v s).ibuf.wf := by
  unfold hostWriteBuf
  split
  · exact Memory.write_wf _ _ h
  · exact h

theorem placeEntry_wf (bs : List Byte) (h : s.ibuf.wf) : (placeEntry bs s).ibuf.wf :=
  Memory.writeList_wf bs 0 h

theorem reset_wf : State.reset.ibuf.wf := Memory.wf_nil

theorem resetBlock_wf (s : State) : (resetBlock s).ibuf.wf := Memory.wf_nil

end

end Sys2Proof.Machine
end

