-- ==== Sys2Proof/Laws/Decode.lean ====
section
/-! SUPPORT. The opcode map of R79 and the tables of R156 to R211 say the same, and what that gives the decoder and
the encoder. -/
namespace Sys2Proof

theorem mem_allModes (mode : Mode) : mode ∈ Machine.allModes := by cases mode <;> decide

theorem mem_allMnemonics (m : Mnemonic) : m ∈ Machine.allMnemonics := by cases m <;> decide

/-- Every byte the map gives a mnemonic is that mnemonic's opcode in that mode. -/
theorem opcodeOf_optable (op : Byte) (h : (optable op).1 ≠ .illegal) :
    opcodeOf (optable op).1 (optable op).2 = some op := by
  revert op
  decide

/-- Every opcode of a mnemonic's table is that entry of the map. -/
theorem optable_of_opcodeOf {m : Mnemonic} {mode : Mode} {op : Byte} (h : opcodeOf m mode = some op) :
    optable op = (m, mode) := by
  have key : ∀ m ∈ Machine.allMnemonics, ∀ mode ∈ Machine.allModes,
      (opcodeOf m mode).all (fun op => optable op == (m, mode)) = true := by decide
  have := key m (mem_allMnemonics m) mode (mem_allModes mode)
  rw [h] at this
  simpa using this

/-- The illegal bytes of R80 are those the map marks illegal. -/
theorem optable_illegal (op : Byte) : illegalOpcodes.contains op = true ↔ optable op = (.illegal, .imp) := by
  revert op
  decide

theorem optable_mnemonic_illegal (op : Byte) : (optable op).1 = .illegal ↔ optable op = (.illegal, .imp) := by
  revert op
  decide

/-- A mnemonic admits an operand exactly when it has an opcode byte in the operand's mode. -/
theorem admits_iff (m : Mnemonic) (o : Operand) : m.admits o = true ↔ (opcodeOf m o.mode).isSome := by
  have key : ∀ m ∈ Machine.allMnemonics, ∀ mode ∈ Machine.allModes,
      m.modes.contains mode = (opcodeOf m mode).isSome := by decide
  rw [Mnemonic.admits, key m (mem_allMnemonics m) o.mode (mem_allModes o.mode)]

@[simp] theorem Operand.bytes_length (o : Operand) : o.bytes.length = o.mode.nopnd := by
  cases o <;> rfl

@[simp] theorem Operand.ofBytes_mode (mode : Mode) (b1 b2 : Byte) : (Operand.ofBytes mode b1 b2).mode = mode := by
  cases mode <;> rfl

/-- No mode takes more than two operand bytes (R73). -/
theorem Mode.nopnd_le (mode : Mode) : mode.nopnd ≤ 2 := by
  cases mode <;> decide

/-- The instruction of a legal mnemonic keeps the mnemonic and operand. -/
theorem Instr.entry?_ofEntry (op : Byte) {m : Mnemonic} (o : Operand) (h : m ≠ .illegal) :
    (Instr.ofEntry op m o).entry? = some (m, o) := by
  cases m <;> first | rfl | exact absurd rfl h

/-- A legal instruction is the one its mnemonic and operand stand for, under any byte. -/
theorem Instr.ofEntry_of_entry? {i : Instr} {m : Mnemonic} {o : Operand} (op : Byte) (h : i.entry? = some (m, o)) :
    Instr.ofEntry op m o = i ∧ m ≠ .illegal ∧ i.space = .opcode ∧ i.wellFormed = m.admits o
      ∧ encode i = encodeEntry m o := by
  cases i <;> simp only [Instr.entry?, Option.some.injEq, Prod.mk.injEq, reduceCtorEq] at h <;>
    obtain ⟨rfl, rfl⟩ := h <;> exact ⟨rfl, by decide, rfl, rfl, rfl⟩

theorem encodeEntry_of_opcode {m : Mnemonic} {o : Operand} {op : Byte} (h : opcodeOf m o.mode = some op) :
    encodeEntry m o = op :: o.bytes := by
  simp [encodeEntry, h]

end Sys2Proof
end

