-- ==== Sys2Proof/Laws/Engine.lean ====
section
/-! SUPPORT. What the accesses of a host program line are (30_encoding.md R84): said once, for later proofs to cite
instead of unfolding `writeEvents`. -/
namespace Sys2Proof.Machine

@[simp] theorem writeEvents_nil (a : Nat) : writeEvents a [] = [] := rfl

/-- Within the 32-bit addresses a byte is one access, at its own address. -/
theorem writeEvents_cons {a : Nat} (h : a < 2 ^ 32) (b : Byte) (bs : List Byte) :
    writeEvents a (b :: bs) = .writeBuf (BitVec.ofNat 32 a) b :: writeEvents (a + 1) bs := if_pos h

/-- Past the 32-bit addresses no byte is an access (R51). -/
theorem writeEvents_past {a : Nat} (h : 2 ^ 32 ≤ a) (bs : List Byte) : writeEvents a bs = [] := by
  cases bs with
  | nil => rfl
  | cons b bs => exact if_neg (Nat.not_lt.2 h)

/-- The accesses in order: access `k` writes byte `k` at the unbounded sum `a + k`, and stands in the list exactly where
that sum is a 32-bit address. -/
theorem writeEvents_getElem? (a : Nat) (bs : List Byte) (k : Nat) :
    (writeEvents a bs)[k]?
      = if a + k < 2 ^ 32 then bs[k]?.map (Event.writeBuf (BitVec.ofNat 32 (a + k))) else none := by
  induction bs generalizing a k with
  | nil => simp
  | cons b bs ih =>
    by_cases h : a < 2 ^ 32
    · rw [writeEvents_cons h]
      cases k with
      | zero => exact (if_pos h).symm
      | succ k => simp [ih, Nat.add_right_comm a 1 k, Nat.add_assoc]
    · have hk : ¬ a + k < 2 ^ 32 := by omega
      rw [writeEvents_past (Nat.not_lt.1 h), if_neg hk]
      rfl

/-- An access of the list writes the 32 bits of its own address: no write wraps to a lower address. -/
theorem writeEvents_toNat {a k : Nat} {bs : List Byte} {w : Word} {b : Byte}
    (h : (writeEvents a bs)[k]? = some (.writeBuf w b)) : w.toNat = a + k ∧ bs[k]? = some b := by
  rw [writeEvents_getElem?] at h
  split at h
  · next hlt =>
    obtain ⟨c, hc, he⟩ := Option.map_eq_some_iff.1 h
    cases he
    exact ⟨Nat.mod_eq_of_lt hlt, hc⟩
  · cases h

end Sys2Proof.Machine
end

