-- ==== Sys2Proof/Laws/PerInstr.lean ====
section
/-! SUPPORT. The statements made for each instruction, one lemma per constructor. -/
namespace Sys2Proof.Laws

/-- A well-formed instruction's encoding is one byte and its operand bytes long (R70, R77). -/
def EncodeLength.Statement (i : Instr) : Prop :=
  i.wellFormed = true →
    (encode i).length = match i.entry? with
      | some (_, o) => Machine.encodedLength o.mode
      | none => 1

/-- The length of a legal 6502 instruction's encoding. -/
theorem encodeEntry_length {m : Mnemonic} {o : Operand} (h : m.admits o = true) :
    (encodeEntry m o).length = Machine.encodedLength o.mode := by
  obtain ⟨op, ho⟩ := Option.isSome_iff_exists.mp ((admits_iff m o).mp h)
  simp [encodeEntry_of_opcode ho, Machine.encodedLength, Nat.add_comm]

theorem EncodeLength.nop : EncodeLength.Statement .nop := fun _ => rfl

theorem EncodeLength.hdrParse : EncodeLength.Statement .hdrParse := fun _ => rfl

theorem EncodeLength.chrRestart : EncodeLength.Statement .chrRestart := fun _ => rfl

theorem EncodeLength.chrNext : EncodeLength.Statement .chrNext := fun _ => rfl

theorem EncodeLength.disStart : EncodeLength.Statement .disStart := fun _ => rfl

theorem EncodeLength.disNext : EncodeLength.Statement .disNext := fun _ => rfl

theorem EncodeLength.ggDecode : EncodeLength.Statement .ggDecode := fun _ => rfl

theorem EncodeLength.ggEncode : EncodeLength.Statement .ggEncode := fun _ => rfl

theorem EncodeLength.prngInit : EncodeLength.Statement .prngInit := fun _ => rfl

theorem EncodeLength.prngStep : EncodeLength.Statement .prngStep := fun _ => rfl

theorem EncodeLength.prngSetIt : EncodeLength.Statement .prngSetIt := fun _ => rfl

theorem EncodeLength.illegalCommand (code : Byte) : EncodeLength.Statement (.illegalCommand code) := fun _ => rfl

theorem EncodeLength.opAdc (o : Operand) : EncodeLength.Statement (.opAdc o) := fun h => encodeEntry_length h

theorem EncodeLength.opAnd (o : Operand) : EncodeLength.Statement (.opAnd o) := fun h => encodeEntry_length h

theorem EncodeLength.opAsl (o : Operand) : EncodeLength.Statement (.opAsl o) := fun h => encodeEntry_length h

theorem EncodeLength.opBcc (o : Operand) : EncodeLength.Statement (.opBcc o) := fun h => encodeEntry_length h

theorem EncodeLength.opBcs (o : Operand) : EncodeLength.Statement (.opBcs o) := fun h => encodeEntry_length h

theorem EncodeLength.opBeq (o : Operand) : EncodeLength.Statement (.opBeq o) := fun h => encodeEntry_length h

theorem EncodeLength.opBit (o : Operand) : EncodeLength.Statement (.opBit o) := fun h => encodeEntry_length h

theorem EncodeLength.opBmi (o : Operand) : EncodeLength.Statement (.opBmi o) := fun h => encodeEntry_length h

theorem EncodeLength.opBne (o : Operand) : EncodeLength.Statement (.opBne o) := fun h => encodeEntry_length h

theorem EncodeLength.opBpl (o : Operand) : EncodeLength.Statement (.opBpl o) := fun h => encodeEntry_length h

theorem EncodeLength.opBrk (o : Operand) : EncodeLength.Statement (.opBrk o) := fun h => encodeEntry_length h

theorem EncodeLength.opBvc (o : Operand) : EncodeLength.Statement (.opBvc o) := fun h => encodeEntry_length h

theorem EncodeLength.opBvs (o : Operand) : EncodeLength.Statement (.opBvs o) := fun h => encodeEntry_length h

theorem EncodeLength.opClc (o : Operand) : EncodeLength.Statement (.opClc o) := fun h => encodeEntry_length h

theorem EncodeLength.opCld (o : Operand) : EncodeLength.Statement (.opCld o) := fun h => encodeEntry_length h

theorem EncodeLength.opCli (o : Operand) : EncodeLength.Statement (.opCli o) := fun h => encodeEntry_length h

theorem EncodeLength.opClv (o : Operand) : EncodeLength.Statement (.opClv o) := fun h => encodeEntry_length h

theorem EncodeLength.opCmp (o : Operand) : EncodeLength.Statement (.opCmp o) := fun h => encodeEntry_length h

theorem EncodeLength.opCpx (o : Operand) : EncodeLength.Statement (.opCpx o) := fun h => encodeEntry_length h

theorem EncodeLength.opCpy (o : Operand) : EncodeLength.Statement (.opCpy o) := fun h => encodeEntry_length h

theorem EncodeLength.opDec (o : Operand) : EncodeLength.Statement (.opDec o) := fun h => encodeEntry_length h

theorem EncodeLength.opDex (o : Operand) : EncodeLength.Statement (.opDex o) := fun h => encodeEntry_length h

theorem EncodeLength.opDey (o : Operand) : EncodeLength.Statement (.opDey o) := fun h => encodeEntry_length h

theorem EncodeLength.opEor (o : Operand) : EncodeLength.Statement (.opEor o) := fun h => encodeEntry_length h

theorem EncodeLength.opInc (o : Operand) : EncodeLength.Statement (.opInc o) := fun h => encodeEntry_length h

theorem EncodeLength.opInx (o : Operand) : EncodeLength.Statement (.opInx o) := fun h => encodeEntry_length h

theorem EncodeLength.opIny (o : Operand) : EncodeLength.Statement (.opIny o) := fun h => encodeEntry_length h

theorem EncodeLength.opJmp (o : Operand) : EncodeLength.Statement (.opJmp o) := fun h => encodeEntry_length h

theorem EncodeLength.opJsr (o : Operand) : EncodeLength.Statement (.opJsr o) := fun h => encodeEntry_length h

theorem EncodeLength.opLda (o : Operand) : EncodeLength.Statement (.opLda o) := fun h => encodeEntry_length h

theorem EncodeLength.opLdx (o : Operand) : EncodeLength.Statement (.opLdx o) := fun h => encodeEntry_length h

theorem EncodeLength.opLdy (o : Operand) : EncodeLength.Statement (.opLdy o) := fun h => encodeEntry_length h

theorem EncodeLength.opLsr (o : Operand) : EncodeLength.Statement (.opLsr o) := fun h => encodeEntry_length h

theorem EncodeLength.opNop (o : Operand) : EncodeLength.Statement (.opNop o) := fun h => encodeEntry_length h

theorem EncodeLength.opOra (o : Operand) : EncodeLength.Statement (.opOra o) := fun h => encodeEntry_length h

theorem EncodeLength.opPha (o : Operand) : EncodeLength.Statement (.opPha o) := fun h => encodeEntry_length h

theorem EncodeLength.opPhp (o : Operand) : EncodeLength.Statement (.opPhp o) := fun h => encodeEntry_length h

theorem EncodeLength.opPla (o : Operand) : EncodeLength.Statement (.opPla o) := fun h => encodeEntry_length h

theorem EncodeLength.opPlp (o : Operand) : EncodeLength.Statement (.opPlp o) := fun h => encodeEntry_length h

theorem EncodeLength.opRol (o : Operand) : EncodeLength.Statement (.opRol o) := fun h => encodeEntry_length h

theorem EncodeLength.opRor (o : Operand) : EncodeLength.Statement (.opRor o) := fun h => encodeEntry_length h

theorem EncodeLength.opRti (o : Operand) : EncodeLength.Statement (.opRti o) := fun h => encodeEntry_length h

theorem EncodeLength.opRts (o : Operand) : EncodeLength.Statement (.opRts o) := fun h => encodeEntry_length h

theorem EncodeLength.opSbc (o : Operand) : EncodeLength.Statement (.opSbc o) := fun h => encodeEntry_length h

theorem EncodeLength.opSec (o : Operand) : EncodeLength.Statement (.opSec o) := fun h => encodeEntry_length h

theorem EncodeLength.opSed (o : Operand) : EncodeLength.Statement (.opSed o) := fun h => encodeEntry_length h

theorem EncodeLength.opSei (o : Operand) : EncodeLength.Statement (.opSei o) := fun h => encodeEntry_length h

theorem EncodeLength.opSta (o : Operand) : EncodeLength.Statement (.opSta o) := fun h => encodeEntry_length h

theorem EncodeLength.opStx (o : Operand) : EncodeLength.Statement (.opStx o) := fun h => encodeEntry_length h

theorem EncodeLength.opSty (o : Operand) : EncodeLength.Statement (.opSty o) := fun h => encodeEntry_length h

theorem EncodeLength.opTax (o : Operand) : EncodeLength.Statement (.opTax o) := fun h => encodeEntry_length h

theorem EncodeLength.opTay (o : Operand) : EncodeLength.Statement (.opTay o) := fun h => encodeEntry_length h

theorem EncodeLength.opTsx (o : Operand) : EncodeLength.Statement (.opTsx o) := fun h => encodeEntry_length h

theorem EncodeLength.opTxa (o : Operand) : EncodeLength.Statement (.opTxa o) := fun h => encodeEntry_length h

theorem EncodeLength.opTxs (o : Operand) : EncodeLength.Statement (.opTxs o) := fun h => encodeEntry_length h

theorem EncodeLength.opTya (o : Operand) : EncodeLength.Statement (.opTya o) := fun h => encodeEntry_length h

theorem EncodeLength.opIllegal (op : Byte) : EncodeLength.Statement (.opIllegal op) := fun _ => rfl

end Sys2Proof.Laws
end

