-- ==== Sys2Proof/Tests/Slice0.lean ====
section
/-! SUPPORT. Tests on small states. Their expected values come from the spec: the worked examples and vectors of
95_test_vectors.md, the tables of 40_header.md to 45_prng.md, or a hand calculation from the rule named. After
them, for each statement with hypotheses, a state and operands that meet them. -/
namespace Sys2Proof.Tests
open Sys2Proof Sys2Proof.Machine

/-! ### Helpers -/

/-- Every word of the list decodes, whole, to the instruction beside it. -/
def decodesAll (sp : Space) (l : List (List Byte × Instr)) : Bool :=
  l.all fun p => match decode sp p.1 with
    | .ok (i, []) => decide (i = p.2)
    | _ => false

/-- The state after reset with these bytes at the start of the buffer, `BUF_LEN` their number, on the reference
transition. -/
def loaded (bytes : List Byte) : State :=
  { State.reset with
    cfg := { Config.standard with prng := .reference }
    ibuf := Memory.writeList [] 0 bytes
    bufLen := BitVec.ofNat 32 bytes.length }

/-- A next state of which the test holds. -/
def nextHas (r : Result) (p : State → Bool) : Bool :=
  match r with
  | .next t => p t
  | _ => false

/-- The bytes of a header whose bytes 4 to 7 are these. -/
def header (h4 h5 h6 h7 : Byte) : List Byte :=
  [0x4E, 0x45, 0x53, 0x1A, h4, h5, h6, h7, 0, 0, 0, 0, 0, 0, 0, 0]

/-- The full tile of 95_test_vectors.md. -/
def fullTile : List Byte :=
  [0x41, 0xC2, 0x44, 0x48, 0x10, 0x20, 0x40, 0x80, 0x01, 0x02, 0x04, 0x08, 0x16, 0x21, 0x42, 0x87]

/-- An open tile sequence over the whole image. -/
def tiles (bytes : List Byte) (cur : Word) : State :=
  { loaded bytes with
    chr := { State.reset.chr with
      len := BitVec.ofNat 32 bytes.length, count := BitVec.ofNat 32 (bytes.length / 16), cur := cur }
    flags := { Flags.reset with chrReady := true } }

/-- An open decode sequence over the whole image. -/
def code (bytes : List Byte) (cur : Word) : State :=
  { loaded bytes with
    dis := { State.reset.dis with len := BitVec.ofNat 32 bytes.length, cur := cur }
    flags := { Flags.reset with disReady := true } }

/-- The Game Genie registers with a code of `clen` characters. -/
def ggCode (cs : List Byte) (clen : BitVec 4) : State :=
  { State.reset with
    gg := { State.reset.gg with char := Bank8.ofFn fun i => cs.getD i.val 0, clen := clen } }

/-- The Game Genie registers with a triple. -/
def ggTriple (a : Half) (v c : Byte) (h : BitVec 1) : State :=
  { State.reset with gg := { State.reset.gg with addr := a, val := v, cmp := c, hasCmp := h } }

/-- The PRNG on its reference instance, with the arguments in `ARG0` and `ARG1`. -/
def prngArgs (a0 a1 : Word) : State := { loaded [] with arg0 := a0, arg1 := a1 }

/-- The PRNG initialised with seed 0x8988, its count `n` and state `v`. -/
def prngAt (n v : Half) : State :=
  { loaded [] with
    prng := { seed := 0x8988, iter := n, state := v }, flags := { Flags.reset with prngValid := true } }

/-! ### Decoding (R70, R79, R156 to R212) -/

/-- The command codes of R70, and two codes that are none. -/
theorem test_decode_commands : decodesAll .command
    [([0x00], .nop), ([0x01], .hdrParse), ([0x10], .chrRestart), ([0x11], .chrNext), ([0x20], .disStart),
     ([0x21], .disNext), ([0x30], .ggDecode), ([0x31], .ggEncode), ([0x40], .prngInit), ([0x41], .prngStep),
     ([0x42], .prngSetIt), ([0x43], .illegalCommand 0x43), ([0xFF], .illegalCommand 0xFF)] = true := by decide

/-- The example bytes of R156 to R169. -/
theorem test_decode_examples_1 : decodesAll .opcode
    [([0x6D, 0x34, 0x12], .opAdc (.abs 0x1234)), ([0x2D, 0x34, 0x12], .opAnd (.abs 0x1234)), ([0x0E, 0x34, 0x12], .opAsl (.abs 0x1234)),
     ([0x90, 0x10], .opBcc (.rel 0x10)), ([0xB0, 0x10], .opBcs (.rel 0x10)), ([0xF0, 0x10], .opBeq (.rel 0x10)),
     ([0x2C, 0x34, 0x12], .opBit (.abs 0x1234)), ([0x30, 0x10], .opBmi (.rel 0x10)), ([0xD0, 0x10], .opBne (.rel 0x10)),
     ([0x10, 0x10], .opBpl (.rel 0x10)), ([0x00], .opBrk .imp), ([0x50, 0x10], .opBvc (.rel 0x10)),
     ([0x70, 0x10], .opBvs (.rel 0x10)), ([0x18], .opClc .imp)] = true := by decide

/-- The example bytes of R170 to R183. -/
theorem test_decode_examples_2 : decodesAll .opcode
    [([0xD8], .opCld .imp), ([0x58], .opCli .imp), ([0xB8], .opClv .imp),
     ([0xCD, 0x34, 0x12], .opCmp (.abs 0x1234)), ([0xEC, 0x34, 0x12], .opCpx (.abs 0x1234)), ([0xCC, 0x34, 0x12], .opCpy (.abs 0x1234)),
     ([0xCE, 0x34, 0x12], .opDec (.abs 0x1234)), ([0xCA], .opDex .imp), ([0x88], .opDey .imp),
     ([0x4D, 0x34, 0x12], .opEor (.abs 0x1234)), ([0xEE, 0x34, 0x12], .opInc (.abs 0x1234)), ([0xE8], .opInx .imp),
     ([0xC8], .opIny .imp), ([0x4C, 0x34, 0x12], .opJmp (.abs 0x1234))] = true := by decide

/-- The example bytes of R184 to R197. -/
theorem test_decode_examples_3 : decodesAll .opcode
    [([0x20, 0x34, 0x12], .opJsr (.abs 0x1234)), ([0xAD, 0x34, 0x12], .opLda (.abs 0x1234)), ([0xAE, 0x34, 0x12], .opLdx (.abs 0x1234)),
     ([0xAC, 0x34, 0x12], .opLdy (.abs 0x1234)), ([0x4E, 0x34, 0x12], .opLsr (.abs 0x1234)), ([0xEA], .opNop .imp),
     ([0x0D, 0x34, 0x12], .opOra (.abs 0x1234)), ([0x48], .opPha .imp), ([0x08], .opPhp .imp),
     ([0x68], .opPla .imp), ([0x28], .opPlp .imp), ([0x2E, 0x34, 0x12], .opRol (.abs 0x1234)),
     ([0x6E, 0x34, 0x12], .opRor (.abs 0x1234)), ([0x40], .opRti .imp)] = true := by decide

/-- The example bytes of R198 to R211. -/
theorem test_decode_examples_4 : decodesAll .opcode
    [([0x60], .opRts .imp), ([0xED, 0x34, 0x12], .opSbc (.abs 0x1234)), ([0x38], .opSec .imp),
     ([0xF8], .opSed .imp), ([0x78], .opSei .imp), ([0x8D, 0x34, 0x12], .opSta (.abs 0x1234)),
     ([0x8E, 0x34, 0x12], .opStx (.abs 0x1234)), ([0x8C, 0x34, 0x12], .opSty (.abs 0x1234)), ([0xAA], .opTax .imp),
     ([0xA8], .opTay .imp), ([0xBA], .opTsx .imp), ([0x8A], .opTxa .imp),
     ([0x9A], .opTxs .imp), ([0x98], .opTya .imp)] = true := by decide

/-- The opcode bytes of the other modes, for the mnemonics that have the most (R79). -/
theorem test_decode_modes : decodesAll .opcode
    [([0x69, 0x05], .opAdc (.imm 5)), ([0x65, 0x05], .opAdc (.zp 5)), ([0x75, 0x05], .opAdc (.zpx 5)),
     ([0x7D, 0x34, 0x12], .opAdc (.absx 0x1234)), ([0x79, 0x34, 0x12], .opAdc (.absy 0x1234)),
     ([0x61, 0x05], .opAdc (.indx 5)), ([0x71, 0x05], .opAdc (.indy 5)), ([0xB6, 0x10], .opLdx (.zpy 0x10)),
     ([0x6C, 0x34, 0x12], .opJmp (.ind 0x1234)), ([0x0A], .opAsl .acc), ([0xFF], .opIllegal 0xFF)] = true := by
  decide

/-- An operand byte that is missing is refused by name. -/
theorem test_decode_short : decode .opcode [0xAD, 0x34] = .error (.missingOperand 0xAD)
    ∧ decode .command [] = .error .noByte := by
  decide

/-! ### Well-formedness -/

/-- An operand in a mode the mnemonic does not have is refused. -/
theorem test_illFormed_modes : ([
     .opAdc (.rel 0), .opAnd (.rel 0), .opAsl (.rel 0), .opBcc .acc, .opBcs .acc,
     .opBeq .acc, .opBit (.rel 0), .opBmi .acc, .opBne .acc, .opBpl .acc,
     .opBrk (.rel 0), .opBvc .acc, .opBvs .acc, .opClc (.rel 0), .opCld (.rel 0),
     .opCli (.rel 0), .opClv (.rel 0), .opCmp (.rel 0), .opCpx (.rel 0), .opCpy (.rel 0),
     .opDec (.rel 0), .opDex (.rel 0), .opDey (.rel 0), .opEor (.rel 0), .opInc (.rel 0),
     .opInx (.rel 0), .opIny (.rel 0), .opJmp (.rel 0), .opJsr (.rel 0), .opLda (.rel 0),
     .opLdx (.rel 0), .opLdy (.rel 0), .opLsr (.rel 0), .opNop (.rel 0), .opOra (.rel 0),
     .opPha (.rel 0), .opPhp (.rel 0), .opPla (.rel 0), .opPlp (.rel 0), .opRol (.rel 0),
     .opRor (.rel 0), .opRti (.rel 0), .opRts (.rel 0), .opSbc (.rel 0), .opSec (.rel 0),
     .opSed (.rel 0), .opSei (.rel 0), .opSta (.rel 0), .opStx (.rel 0), .opSty (.rel 0),
     .opTax (.rel 0), .opTay (.rel 0), .opTsx (.rel 0), .opTxa (.rel 0), .opTxs (.rel 0),
     .opTya (.rel 0)
     ] : List Instr).all (fun i => !i.wellFormed) = true := by decide

/-- An assigned code is no illegal command, and a legal byte no illegal opcode. -/
theorem test_illFormed_bytes :
    (Instr.illegalCommand 0x21).wellFormed = false ∧ (Instr.opIllegal 0xEA).wellFormed = false := by decide

/-! ### The commands, one step each -/

/-- A `DIS_NEXT` on these bytes delivers mnemonic, mode, operand and length as listed, and so does the instruction they
decode to. -/
def delivers (bs : List Byte) (mnem mode opnd elen : Nat) : Bool :=
  let ok := fun t : State => decide (t.status = 0) && t.flags.disValid && decide (t.dis.mnem.toNat = mnem)
    && decide (t.dis.mode.toNat = mode) && decide (t.dis.opnd.toNat = opnd) && decide (t.dis.elen.toNat = elen)
    && decide (t.dis.cur.toNat = elen) && decide (t.dis.opc = bs.getD 0 0)
  nextHas (exec .disNext (code bs 0)) ok
    && match decode .opcode bs with
      | .ok (i, []) => nextHas (exec i (code bs 0)) ok
      | _ => false

/-- The examples of R156 to R169: mnemonic, mode, operand, length. -/
theorem test_entries_1 :
    delivers [0x6D, 0x34, 0x12] 0 6 0x1234 3
    && delivers [0x2D, 0x34, 0x12] 1 6 0x1234 3
    && delivers [0x0E, 0x34, 0x12] 2 6 0x1234 3
    && delivers [0x90, 0x10] 3 12 0x0010 2
    && delivers [0xB0, 0x10] 4 12 0x0010 2
    && delivers [0xF0, 0x10] 5 12 0x0010 2
    && delivers [0x2C, 0x34, 0x12] 6 6 0x1234 3
    && delivers [0x30, 0x10] 7 12 0x0010 2
    && delivers [0xD0, 0x10] 8 12 0x0010 2
    && delivers [0x10, 0x10] 9 12 0x0010 2
    && delivers [0x00] 10 0 0x0000 1
    && delivers [0x50, 0x10] 11 12 0x0010 2
    && delivers [0x70, 0x10] 12 12 0x0010 2
    && delivers [0x18] 13 0 0x0000 1 = true := by decide

/-- The examples of R170 to R183: mnemonic, mode, operand, length. -/
theorem test_entries_2 :
    delivers [0xD8] 14 0 0x0000 1
    && delivers [0x58] 15 0 0x0000 1
    && delivers [0xB8] 16 0 0x0000 1
    && delivers [0xCD, 0x34, 0x12] 17 6 0x1234 3
    && delivers [0xEC, 0x34, 0x12] 18 6 0x1234 3
    && delivers [0xCC, 0x34, 0x12] 19 6 0x1234 3
    && delivers [0xCE, 0x34, 0x12] 20 6 0x1234 3
    && delivers [0xCA] 21 0 0x0000 1
    && delivers [0x88] 22 0 0x0000 1
    && delivers [0x4D, 0x34, 0x12] 23 6 0x1234 3
    && delivers [0xEE, 0x34, 0x12] 24 6 0x1234 3
    && delivers [0xE8] 25 0 0x0000 1
    && delivers [0xC8] 26 0 0x0000 1
    && delivers [0x4C, 0x34, 0x12] 27 6 0x1234 3 = true := by decide

/-- The examples of R184 to R197: mnemonic, mode, operand, length. -/
theorem test_entries_3 :
    delivers [0x20, 0x34, 0x12] 28 6 0x1234 3
    && delivers [0xAD, 0x34, 0x12] 29 6 0x1234 3
    && delivers [0xAE, 0x34, 0x12] 30 6 0x1234 3
    && delivers [0xAC, 0x34, 0x12] 31 6 0x1234 3
    && delivers [0x4E, 0x34, 0x12] 32 6 0x1234 3
    && delivers [0xEA] 33 0 0x0000 1
    && delivers [0x0D, 0x34, 0x12] 34 6 0x1234 3
    && delivers [0x48] 35 0 0x0000 1
    && delivers [0x08] 36 0 0x0000 1
    && delivers [0x68] 37 0 0x0000 1
    && delivers [0x28] 38 0 0x0000 1
    && delivers [0x2E, 0x34, 0x12] 39 6 0x1234 3
    && delivers [0x6E, 0x34, 0x12] 40 6 0x1234 3
    && delivers [0x40] 41 0 0x0000 1 = true := by decide

/-- The examples of R198 to R212: mnemonic, mode, operand, length. -/
theorem test_entries_4 :
    delivers [0x60] 42 0 0x0000 1
    && delivers [0xED, 0x34, 0x12] 43 6 0x1234 3
    && delivers [0x38] 44 0 0x0000 1
    && delivers [0xF8] 45 0 0x0000 1
    && delivers [0x78] 46 0 0x0000 1
    && delivers [0x8D, 0x34, 0x12] 47 6 0x1234 3
    && delivers [0x8E, 0x34, 0x12] 48 6 0x1234 3
    && delivers [0x8C, 0x34, 0x12] 49 6 0x1234 3
    && delivers [0xAA] 50 0 0x0000 1
    && delivers [0xA8] 51 0 0x0000 1
    && delivers [0xBA] 52 0 0x0000 1
    && delivers [0x8A] 53 0 0x0000 1
    && delivers [0x9A] 54 0 0x0000 1
    && delivers [0x98] 55 0 0x0000 1
    && delivers [0x02] 56 0 0x0000 1 = true := by decide

/-- R255: `NOP` clears `STATUS` and leaves `ERRINFO`. -/
theorem test_nop : nextHas (exec .nop { State.reset with status := 5, errinfo := 0x6902 })
    (fun t => decide (t.status = 0 ∧ t.errinfo = 0x6902)) = true := by decide

/-- "CMD <- 0x43": status 8 with the code, and `CMD` reads it back. -/
theorem test_illegalCommand : nextHas (hostWrite 0x00 0x43 State.reset)
    (fun t => decide (t.status = 8 ∧ t.errinfo = 0x43 ∧ hostRead 0x00 t = .ok 0x43)) = true := by decide

/-- "CMD <- 0x141" runs `PRNG_STEP` (bits 31:8 ignored). -/
theorem test_cmd_lowBits : nextHas (hostWrite 0x00 0x141 (prngAt 0 0x8988))
    (fun t => decide (t.cmd = 0x41 ∧ t.status = 0 ∧ t.prng.state = 0x44C4)) = true := by decide

/-- `h4..h7` = 02 01 00 00 with `BUF_LEN` 40976: the regions; with 40975, the end in the error detail. -/
theorem test_hdrParse_regions :
    nextHas (exec .hdrParse { loaded (header 2 1 0 0) with bufLen := 40976 }) (fun t => decide (t.status = 0
      ∧ t.hdr.prgOff = 16 ∧ t.hdr.prgLen = 32768 ∧ t.hdr.chrOff = 32784 ∧ t.hdr.chrLen = 8192
      ∧ t.dis.base = 16 ∧ t.dis.len = 32768 ∧ t.chr.base = 32784 ∧ t.chr.len = 8192)) = true
    ∧ nextHas (exec .hdrParse { loaded (header 2 1 0 0) with bufLen := 40975 }) (fun t => decide (t.status = 1
      ∧ t.errinfo = 0x8000A010 ∧ t.flags.hdrValid = false)) = true := by decide

/-- `h4..h7` = 00 00 F0 A0: mapper 0xAF; signature `4E 45 53 00`: byte 3 in the error detail. -/
theorem test_hdrParse_mapper :
    nextHas (exec .hdrParse (loaded (header 0 0 0xF0 0xA0))) (fun t => decide (t.hdr.mapper = 0xAF)) = true
    ∧ nextHas (exec .hdrParse (loaded ([0x4E, 0x45, 0x53, 0x00] ++ List.replicate 12 0)))
      (fun t => decide (t.status = 1 ∧ t.errinfo = 0x40000003)) = true := by decide

/-- `CHR_LEN` 32 opens two tiles; 17 is no multiple of 16; `CHR_BASE` 16, `CHR_LEN` 32, `BUF_LEN` 32 ends at 48. -/
theorem test_chrRestart :
    nextHas (exec .chrRestart { loaded [] with bufLen := 32, chr := { State.reset.chr with len := 32 } })
      (fun t => decide (t.status = 0 ∧ t.chr.count = 2 ∧ t.chr.cur = 0 ∧ t.flags.chrReady = true)) = true
    ∧ nextHas (exec .chrRestart { loaded [] with bufLen := 32, chr := { State.reset.chr with len := 17 } })
      (fun t => decide (t.status = 2 ∧ t.errinfo = 17)) = true
    ∧ nextHas (exec .chrRestart { loaded [] with bufLen := 32, chr := { State.reset.chr with base := 16, len := 32 } })
      (fun t => decide (t.status = 10 ∧ t.errinfo = 48)) = true := by decide

/-- The full tile, row by row. -/
theorem test_chrNext_rows : nextHas (exec .chrNext (tiles fullTile 0)) (fun t => decide (t.status = 0
    ∧ t.chr.row.toList = [0xC004, 0x3005, 0x0C04, 0x0304, 0x28C0, 0x8030, 0x200C, 0xA803]
    ∧ t.chr.tileIdx = 0 ∧ t.chr.cur = 1 ∧ t.flags.tileValid = true)) = true := by decide

/-- At the end: `STATUS` 0, `CHR_END` 1, the cursor in place. -/
theorem test_chrNext_end : nextHas (exec .chrNext (tiles fullTile 1)) (fun t => decide (t.status = 0
    ∧ t.flags.chrEnd = true ∧ t.flags.tileValid = false ∧ t.chr.cur = 1)) = true := by decide

/-- `DIS_START` at an offset past the region opens; a region past the image does not. -/
theorem test_disStart :
    nextHas (exec .disStart { loaded [0xEA, 0xEA] with arg0 := 5, dis := { State.reset.dis with len := 2 } })
      (fun t => decide (t.status = 0 ∧ t.dis.cur = 5 ∧ t.flags.disReady = true)) = true
    ∧ nextHas (exec .disStart { loaded [0xEA, 0xEA] with dis := { State.reset.dis with base := 1, len := 2 } })
      (fun t => decide (t.status = 10 ∧ t.errinfo = 3)) = true := by decide

/-- `A9` alone: truncated at 0. `EA A9` at the end of the region: end, no error. -/
theorem test_disNext_stops :
    nextHas (exec .disNext (code [0xA9] 0)) (fun t => decide (t.status = 3 ∧ t.errinfo = 0
      ∧ t.flags.disEnd = true ∧ t.flags.disValid = false ∧ t.dis.cur = 0)) = true
    ∧ nextHas (exec .disNext (code [0xEA] 1)) (fun t => decide (t.status = 0 ∧ t.flags.disEnd = true)) = true := by
  decide

/-- `SXIOPO` and `SXSOPPIE`. -/
theorem test_ggDecode :
    nextHas (exec .ggDecode (ggCode [0x53, 0x58, 0x49, 0x4F, 0x50, 0x4F] 6)) (fun t => decide (t.status = 0
      ∧ t.gg.addr = 0x91D9 ∧ t.gg.val = 0xAD ∧ t.gg.hasCmp = 0 ∧ t.gg.cmp = 0)) = true
    ∧ nextHas (exec .ggDecode (ggCode [0x53, 0x58, 0x53, 0x4F, 0x50, 0x50, 0x49, 0x45] 8)) (fun t => decide (
      t.status = 0 ∧ t.gg.addr = 0x91D9 ∧ t.gg.val = 0xAD ∧ t.gg.hasCmp = 1 ∧ t.gg.cmp = 0x05)) = true := by decide

/-- `GG_CLEN` 7, and 'i' at index 2. -/
theorem test_ggDecode_errors :
    nextHas (exec .ggDecode (ggCode [] 7)) (fun t => decide (t.status = 4 ∧ t.errinfo = 7)) = true
    ∧ nextHas (exec .ggDecode (ggCode [0x53, 0x58, 0x69, 0x4F, 0x50, 0x4F] 6))
      (fun t => decide (t.status = 5 ∧ t.errinfo = 0x6902)) = true := by decide

/-- (0xC0DE, 0x42, 0x99) is `ZKSKTEOP`; (0xFFFF, 0xFF) is `NNYNNN`. -/
theorem test_ggEncode :
    nextHas (exec .ggEncode (ggTriple 0xC0DE 0x42 0x99 1)) (fun t => decide (t.status = 0 ∧ t.gg.clen = 8
      ∧ t.gg.char.toList = [0x5A, 0x4B, 0x53, 0x4B, 0x54, 0x45, 0x4F, 0x50])) = true
    ∧ nextHas (exec .ggEncode (ggTriple 0xFFFF 0xFF 0 0)) (fun t => decide (t.status = 0 ∧ t.gg.clen = 6
      ∧ t.gg.char.toList = [0x4E, 0x4E, 0x59, 0x4E, 0x4E, 0x4E, 0, 0])) = true := by decide

/-- An address below 0x8000. -/
theorem test_ggEncode_address : nextHas (exec .ggEncode (ggTriple 0x7FFF 0 0 0))
    (fun t => decide (t.status = 7 ∧ t.errinfo = 0x7FFF)) = true := by decide

/-- "PRNG_INIT(0x8988, 3)", with bit 16 of `ARG0` set and ignored. -/
theorem test_prngInit : nextHas (exec .prngInit (prngArgs 0x18988 3)) (fun t => decide (t.prng.seed = 0x8988
    ∧ t.prng.state = 0x1131 ∧ t.prng.iter = 3 ∧ t.flags.prngValid = true)) = true := by decide

/-- A step from count 65535: the count wraps; after reset: status 9. -/
theorem test_prngStep :
    nextHas (exec .prngStep (prngAt 65535 0x44C4)) (fun t => decide (t.prng.state = 0x2262 ∧ t.prng.iter = 0)) = true
    ∧ nextHas (exec .prngStep (loaded [])) (fun t => decide (t.status = 9 ∧ t.errinfo = 0x41)) = true := by decide

/-- "PRNG_SET_IT(5)" counts from the seed. -/
theorem test_prngSetIt : nextHas (exec .prngSetIt { prngAt 6 0x0226 with arg0 := 5 })
    (fun t => decide (t.prng.state = 0x044C ∧ t.prng.iter = 5 ∧ t.prng.seed = 0x8988)) = true := by decide

/-! ### Host accesses and the step -/

/-- `HostWrite(0x38, 0x16)` keeps 6; `HostWrite(0x12, 5)` is ignored; 0x07 and 0x80 read 0. -/
theorem test_host_registers :
    nextHas (hostWrite 0x38 0x16 State.reset) (fun t => decide (t.gg.clen = 6)) = true
    ∧ nextHas (hostWrite 0x12 5 State.reset) (fun t => decide (t = State.reset)) = true
    ∧ hostRead 0x07 State.reset = .ok 0 ∧ hostRead 0x80 State.reset = .ok 0 := by decide

/-- `HostWrite(0x03, 0xFFFFFFFF)` stores the capacity. -/
theorem test_host_bufLen : nextHas (hostWrite 0x03 0xFFFFFFFF { State.reset with
    cfg := { Config.standard with bufSize := 65536 } }) (fun t => decide (t.bufLen = 65536)) = true := by decide

/-- A read of `DIS_MNEM` after reset stops; so does a read of a byte nothing has written. -/
theorem test_host_faults :
    step { State.reset with pending := [.read 0x25] } = .fault (.unreadableRegister .disMnem)
    ∧ step { State.reset with pending := [.readBuf 7] } = .fault (.unwrittenByte 7) := ⟨rfl, rfl⟩

/-- One byte written between two `CHR_NEXT` closes the sequence. -/
theorem test_host_writeBuf_closes : nextHas (exec .chrNext (hostWriteBuf 0 0 (tiles fullTile 0)))
    (fun t => decide (t.status = 9 ∧ t.errinfo = 0x11)) = true := by decide

/-- `FILL 0xFFFFFFFF, 2, b` writes no byte 0: the second address is 2^32, past every capacity (R51, R84). -/
theorem test_fill_past_addresses :
    (HostLine.fill 0xFFFFFFFF 2 0xEA).events = [.writeBuf 0xFFFFFFFF 0xEA]
    ∧ (HostLine.wb 5 [0xA9, 0x05]).events = [.writeBuf 5 0xA9, .writeBuf 6 0x05] := by decide

/-- A placed command word and a placed opcode word run as the next step. -/
theorem test_withFetchWord :
    nextHas (step (State.reset.withFetchWord 8 0x41)) (fun t => decide (t.status = 9 ∧ t.errinfo = 0x41)) = true
    ∧ nextHas (step (State.reset.withFetchWord 8 0xAD)) (fun t => decide (t.status = 0 ∧ t.dis.opc = 0xAD
      ∧ t.dis.elen = 3)) = true := by decide

/-- An image of 17 tiles is 128 x 16, one of none 128 x 0. -/
theorem test_image_size : imageWidth 16 = 128 ∧ imageHeight 16 17 = 16 ∧ imageHeight 16 0 = 0 := by decide

/-- The listing lines `A9 05` at 0 and a `BNE` to -126. -/
theorem test_listing :
    listingLine { byteOffset := 0, opcode := 0xA9, mnemonic := .lda, mode := .imm, operandBytes := [5] }
      = "0000  A9 05     LDA #$05"
    ∧ listingLine { byteOffset := 0, opcode := 0xD0, mnemonic := .bne, mode := .rel, operandBytes := [0x80] }
      = "0000  D0 80     BNE -$007E" := by decide

/-! ### States and operands that meet the hypotheses of each statement -/

theorem witness_IllegalCommandReportsItsCode :
    ((0x143#32).setWidth 8 : Byte) ∉ commandCodes ∧ ((0xFF#32).setWidth 8 : Byte) ∉ commandCodes := by decide

theorem witness_CmdWriteRunsTheDecodedCommand :
    (placeCommand 0x121 State.reset).holdsUnproduced = false
    ∧ (placeCommand 0x121 State.reset).pending = .write 0x00 0x121 :: []
    ∧ decode .command [(0x121#32).setWidth 8] = .ok (.disNext, []) := by decide

/-- The instruction ends with the region, the region with the image. -/
theorem witness_DisNextRunsTheDecodedInstruction :
    let s := placeCommand 0x121 (code [0xA9, 0x05] 0)
    s.holdsUnproduced = false ∧ s.pending = .write 0x00 0x121 :: [] ∧ (0x121#32).setWidth 8 = (0x21 : Byte)
    ∧ s.flags.disReady = true ∧ s.flags.disEnd = false ∧ s.dis.cur.toNat + [0xA9#8, 0x05#8].length ≤ s.dis.len.toNat
    ∧ s.dis.base.toNat + s.dis.len.toNat ≤ s.bufLen.toNat
    ∧ s.holdsBytes (s.dis.base.toNat + s.dis.cur.toNat) [0xA9, 0x05]
    ∧ decode .opcode [0xA9, 0x05] = .ok (.opLda (.imm 5), []) := by unfold State.holdsBytes; decide

theorem witness_IdleBlockHoldsItsState :
    (prngAt 3 0x1131).holdsUnproduced = false ∧ (prngAt 3 0x1131).pending = [] := by decide

theorem witness_DecodeOfEncodeGivesTheInstruction : (Instr.opJmp (.ind 0xFFFF)).wellFormed = true
    ∧ (Instr.illegalCommand 0x43).wellFormed = true ∧ (Instr.opIllegal 0xFF).wellFormed = true := by decide

theorem witness_DecodedInstructionEncodesToItsBytes :
    decode .opcode [0x6C, 0x34, 0x12, 0xEA] = .ok (.opJmp (.ind 0x1234), [0xEA])
    ∧ decode .command [0x43, 0xEA] = .ok (.illegalCommand 0x43, [0xEA]) := by decide

theorem witness_IllegalOpcodeBytesAreTheListed : 0x02#8 ∈ illegalOpcodes ∧ 0xFF#8 ∈ illegalOpcodes
    ∧ 0x00#8 ∉ illegalOpcodes ∧ 0xFE#8 ∉ illegalOpcodes := by decide

theorem witness_ResetSetsTheStatedValues :
    let s := { prngAt 3 0x1131 with pending := [.reset, .read 0x42] }
    s.holdsUnproduced = false ∧ s.pending = .reset :: [.read 0x42]
    ∧ Reg.readable Flags.reset .hdrPrgBanks = false ∧ Reg.readable Flags.reset (.chrRow 7) = false := by decide

theorem witness_FirstNextAfterResetFails :
    perform .reset (prngAt 3 0x1131) = .next (resetBlock (prngAt 3 0x1131)) := rfl

theorem witness_OnlyResetClearsPrngValid :
    perform (.write 0x00 0x41) (prngAt 0 0x8988) = .next { prngAt 1 0x44C4 with cmd := 0x41 }
    ∧ (prngAt 0 0x8988).flags.prngValid = true
    ∧ nextHas (perform (.write 0x00 0x140) (prngArgs 0x8988 0)) (fun t => t.flags.prngValid) = true
    ∧ (prngArgs 0x8988 0).flags.prngValid = false := ⟨rfl, by decide⟩

/-- A header of no banks whose region end is `BUF_LEN`, and one with a trainer. -/
theorem witness_HdrParseAcceptsAndLoadsTheRegions :
    (loaded (header 0 0 0xF0 0xA0)).holdsBytes 0 [0x4E, 0x45, 0x53, 0x1A, 0, 0, 0xF0, 0xA0]
    ∧ 16 + 0 * 16384 + 0 * 8192 ≤ (loaded (header 0 0 0xF0 0xA0)).bufLen.toNat
    ∧ (let s := { loaded (header 1 1 4 0) with bufLen := 25104 }
       s.holdsBytes 0 [0x4E, 0x45, 0x53, 0x1A, 1, 1, 4, 0] ∧ (4#8).getLsbD 2 = true
        ∧ 16 + 512 + 1 * s.cfg.prgBankUnit + 1 * s.cfg.chrBankUnit ≤ s.bufLen.toNat) := by
  unfold State.holdsBytes; decide

/-- Fifteen bytes; byte 0 and byte 3 wrong; a region end of 528 with `BUF_LEN` 16. -/
theorem witness_HdrParseRejectsInOrder :
    { loaded [] with bufLen := 15 }.bufLen.toNat < 16
    ∧ (let h : List Byte := [0x6E, 0x45, 0x53, 0x1A, 0, 0, 0, 0]
       let s := loaded (h ++ List.replicate 8 0)
       16 ≤ s.bufLen.toNat ∧ h.length = 8 ∧ s.holdsBytes 0 h ∧ 0 < 4 ∧ h[0]? ≠ signature[0]?)
    ∧ (let h : List Byte := [0x4E, 0x45, 0x53, 0x00, 0, 0, 0, 0]
       let s := loaded (h ++ List.replicate 8 0)
       16 ≤ s.bufLen.toNat ∧ h.length = 8 ∧ s.holdsBytes 0 h ∧ 3 < 4 ∧ h[3]? ≠ signature[3]?
        ∧ ∀ j, j < 3 → h[j]? = signature[j]?)
    ∧ (let s := loaded (header 0 0 4 0)
       16 ≤ s.bufLen.toNat ∧ s.holdsBytes 0 [0x4E, 0x45, 0x53, 0x1A, 0, 0, 4, 0]
        ∧ 528 = 16 + (if (4#8).getLsbD 2 = true then 512 else 0) + (0#8).toNat * s.cfg.prgBankUnit
          + (0#8).toNat * s.cfg.chrBankUnit ∧ s.bufLen.toNat < 528) := by
  unfold State.holdsBytes; decide

theorem witness_HdrParseTwiceLeavesTheSameState :
    nextHas (exec .hdrParse (loaded (header 0 0 0 0))) (fun t => decide (t.status = 0)) = true
    ∧ nextHas (exec .hdrParse (loaded (header 0 0 4 0))) (fun t => decide (t.status = 1)) = true := by decide

/-- A length of 17; an end one byte past the image, at and above 2^32; an end at the image's end. -/
theorem witness_ChrRestartOpensOrRejects :
    (17#32).toNat % 16 ≠ 0
    ∧ ((16#32).toNat % 16 = 0 ∧ (15#32).toNat < (0#32).toNat + (16#32).toNat)
    ∧ ((16#32).toNat % 16 = 0 ∧ (0xFF#32).toNat < (0xFFFFFFFF#32).toNat + (16#32).toNat)
    ∧ ((tiles fullTile 0).chr.len.toNat % 16 = 0
      ∧ (tiles fullTile 0).chr.base.toNat + (tiles fullTile 0).chr.len.toNat ≤ (tiles fullTile 0).bufLen.toNat) := by
  decide

/-- No open sequence; the end; the one tile, ending with the image. -/
theorem witness_ChrNextDeliversTheTileAtTheCursor :
    State.reset.flags.chrReady = false
    ∧ ((tiles fullTile 1).flags.chrReady = true ∧ (tiles fullTile 1).chr.cur = (tiles fullTile 1).chr.count)
    ∧ (let s := tiles fullTile 0
       s.flags.chrReady = true ∧ s.chr.cur ≠ s.chr.count ∧ fullTile.length = 16
        ∧ s.chr.base.toNat + 16 * s.chr.cur.toNat + 16 ≤ s.bufLen.toNat
        ∧ s.holdsBytes (s.chr.base.toNat + 16 * s.chr.cur.toNat) fullTile) := by
  unfold State.holdsBytes; decide

theorem witness_RestartedSequenceDeliversTileK :
    let s := tiles fullTile 0
    s.chr.len.toNat % 16 = 0 ∧ s.chr.base.toNat + s.chr.len.toNat ≤ s.bufLen.toNat
    ∧ s.written s.chr.base.toNat s.chr.len.toNat ∧ 0 < s.chr.len.toNat / 16 := by unfold State.written; decide

theorem witness_ChrExecuteReturnsEveryTile :
    let s := tiles (fullTile ++ fullTile) 0
    s.chr.len.toNat % 16 = 0 ∧ s.chr.base.toNat + s.chr.len.toNat ≤ s.bufLen.toNat
    ∧ s.written s.chr.base.toNat s.chr.len.toNat
    ∧ 1 < s.chr.len.toNat / 16 ∧ fullTile.length = 16 ∧ s.holdsBytes (s.chr.base.toNat + 16 * 1) fullTile := by
  unfold State.written State.holdsBytes; decide

/-- Two tiles in a grid one wide: the last pixel of the last tile; the first cell past it; a line and a pixel. -/
theorem witness_ImageTilesTheGridInSourceOrder :
    let ts : List Tile := [tileRows fullTile, tileRows []]
    0 < 1 ∧ ts[1]? = some (tileRows []) ∧ 7 < 8 ∧ ts.length ≤ 2 ∧ 0 < 1
    ∧ (image 1 ts).length = 16 ∧ 15 < imageHeight 1 ts.length ∧ 7 < imageWidth 1 := by decide

theorem witness_DisStartOpensOrRejects :
    (15#32).toNat < (0#32).toNat + (16#32).toNat ∧ (15#32).toNat < (0xFFFFFFFF#32).toNat + (1#32).toNat
    ∧ (code [0xEA] 0).dis.base.toNat + (code [0xEA] 0).dis.len.toNat ≤ (code [0xEA] 0).bufLen.toNat := by decide

/-- No open sequence; a stopped one; the region end; an entry one byte too long; one that ends with the region. -/
theorem witness_DisNextDecodesTheEntryAtTheCursor :
    State.reset.flags.disReady = false
    ∧ (let s := { code [0xEA] 1 with flags := { Flags.reset with disReady := true, disEnd := true } }
       s.flags.disReady = true ∧ s.flags.disEnd = true)
    ∧ (let s := code [0xEA] 1
       s.flags.disReady = true ∧ s.flags.disEnd = false ∧ s.dis.len.toNat ≤ s.dis.cur.toNat)
    ∧ (let s := code [0xAD, 0x34] 0
       s.flags.disReady = true ∧ s.flags.disEnd = false ∧ s.dis.cur.toNat < s.dis.len.toNat
        ∧ s.dis.base.toNat + s.dis.len.toNat ≤ s.bufLen.toNat
        ∧ s.ibuf.read (s.dis.base.toNat + s.dis.cur.toNat) = some 0xAD
        ∧ s.dis.len.toNat < s.dis.cur.toNat + 1 + (optable 0xAD).2.nopnd)
    ∧ (let s := code [0xAD, 0x34, 0x12] 0
       s.flags.disReady = true ∧ s.flags.disEnd = false
        ∧ s.dis.cur.toNat + 1 + (optable 0xAD).2.nopnd ≤ s.dis.len.toNat
        ∧ s.dis.base.toNat + s.dis.len.toNat ≤ s.bufLen.toNat ∧ [0x34#8, 0x12#8].length = (optable 0xAD).2.nopnd
        ∧ s.holdsBytes (s.dis.base.toNat + s.dis.cur.toNat) [0xAD, 0x34, 0x12]) := by
  unfold State.holdsBytes; decide

theorem witness_LegalInstructionIsDeliveredAsItsEntry :
    let s := code [0xAD, 0x34, 0x12] 0
    (Instr.opLda (.abs 0x1234)).entry? = some (.lda, .abs 0x1234) ∧ opcodeOf .lda (Operand.abs 0x1234).mode = some 0xAD
    ∧ s.flags.disReady = true ∧ s.flags.disEnd = false
    ∧ s.dis.cur.toNat + 1 + (Operand.abs 0x1234).bytes.length ≤ s.dis.len.toNat := by decide

theorem witness_TruncatedEntryStopsTheSequence :
    let s := code [0xAD, 0x34] 0
    (Instr.opLda (.abs 0x1234)).entry? = some (.lda, .abs 0x1234) ∧ opcodeOf .lda (Operand.abs 0x1234).mode = some 0xAD
    ∧ s.flags.disReady = true ∧ s.flags.disEnd = false ∧ s.dis.cur.toNat < s.dis.len.toNat
    ∧ s.dis.len.toNat < s.dis.cur.toNat + 1 + (Operand.abs 0x1234).bytes.length
    ∧ s.dis.base.toNat + s.dis.len.toNat ≤ s.bufLen.toNat
    ∧ s.ibuf.read (s.dis.base.toNat + s.dis.cur.toNat) = some 0xAD := by decide

theorem witness_IllegalOpcodeIsItsOwnEntry :
    let s := code [0xFF] 0
    0xFF#8 ∈ illegalOpcodes ∧ s.flags.disReady = true ∧ s.flags.disEnd = false ∧ s.dis.cur.toNat < s.dis.len.toNat
    ∧ s.dis.base.toNat + s.dis.len.toNat ≤ s.bufLen.toNat
    ∧ s.ibuf.read (s.dis.base.toNat + s.dis.cur.toNat) = some 0xFF := by decide

theorem witness_IllFormedOperandIsRefused :
    (Instr.opNop (.rel 0)).entry? = some (.nop, .rel 0) ∧ (Instr.opNop (.rel 0)).wellFormed = false := by decide

/-- An entry, then the next one, which ends with the region. -/
theorem witness_EntriesAreContiguous :
    let s := code [0xEA, 0xA9, 0x05] 0
    s.flags.disReady = true ∧ s.flags.disEnd = false
    ∧ nextHas (exec .disNext s) (fun t => t.flags.disValid && decide (t.status = 0) && !t.flags.disEnd
      && nextHas (exec .disNext t) (fun u => u.flags.disValid)) = true := by decide

/-- Two stores that agree on the region and differ just past it. -/
theorem witness_DisNextReadsOnlyItsRegion :
    let s := code [0xAD, 0x34] 0
    let m := Memory.writeList [] 0 [0xAD, 0x34, 0x12]
    (∀ a, a < s.dis.base.toNat + s.dis.len.toNat → s.dis.base.toNat ≤ a → Memory.read m a = s.ibuf.read a)
    ∧ Memory.read m 2 ≠ s.ibuf.read 2 := by decide

/-- A listing of one entry, and one cut off. -/
theorem witness_DisassemblyIsContiguous :
    (∃ rep es text, disExecute 0 (code [0xEA] 0) = .ok rep ∧ rep.artifact = some (es, text) ∧ es.length = 1)
    ∧ ∃ rep es text, disExecute 0 (code [0xA9] 0) = .ok rep ∧ rep.artifact = some (es, text) ∧ rep.error = some (3, 0) :=
  ⟨⟨_, _, _, rfl, rfl, rfl⟩, ⟨_, _, _, rfl, rfl, rfl⟩⟩

/-- The first and the last byte each command may find unwritten. -/
theorem witness_CommandsStopAtAnUnwrittenByte :
    (let s := { loaded [] with bufLen := 16 }
     16 ≤ s.bufLen.toNat ∧ 0 < 8 ∧ s.written 0 0 ∧ s.ibuf.read 0 = none)
    ∧ (let s := { loaded (List.replicate 7 0) with bufLen := 16 }
       16 ≤ s.bufLen.toNat ∧ 7 < 8 ∧ s.written 0 7 ∧ s.ibuf.read 7 = none)
    ∧ (let s := { tiles fullTile 0 with ibuf := Memory.writeList [] 0 (fullTile.take 15) }
       s.flags.chrReady = true ∧ s.chr.cur ≠ s.chr.count
        ∧ 0 = s.chr.base.toNat + 16 * s.chr.cur.toNat ∧ 0 + 16 ≤ s.bufLen.toNat
        ∧ 15 < 16 ∧ s.written 0 15 ∧ s.ibuf.read (0 + 15) = none)
    ∧ (let s := { code [0xAD, 0x34, 0x12] 0 with ibuf := [] }
       s.flags.disReady = true ∧ s.flags.disEnd = false ∧ s.dis.cur.toNat < s.dis.len.toNat
        ∧ s.dis.base.toNat + s.dis.len.toNat ≤ s.bufLen.toNat ∧ 0 = s.dis.base.toNat + s.dis.cur.toNat
        ∧ s.ibuf.read 0 = none)
    ∧ (let s := { code [0xAD, 0x34, 0x12] 0 with ibuf := Memory.writeList [] 0 [0xAD, 0x34] }
       s.flags.disReady = true ∧ s.flags.disEnd = false ∧ s.dis.cur.toNat < s.dis.len.toNat
        ∧ s.dis.base.toNat + s.dis.len.toNat ≤ s.bufLen.toNat ∧ 0 = s.dis.base.toNat + s.dis.cur.toNat
        ∧ s.ibuf.read 0 = some 0xAD ∧ s.dis.cur.toNat + 1 + (optable 0xAD).2.nopnd ≤ s.dis.len.toNat
        ∧ 1 < (optable 0xAD).2.nopnd ∧ s.written (0 + 1) 1 ∧ s.ibuf.read (0 + 1 + 1) = none) := by
  unfold State.written; decide

/-- `SXIOPO` and `SXSOPPIE` as letters of nibbles. -/
theorem witness_GgDecodeFollowsTheBitLayout :
    (let s := ggCode [0x53, 0x58, 0x49, 0x4F, 0x50, 0x4F] 6
     s.gg.clen = 6 ∧ (s.gg.code 6).map (foldCase s.cfg.ggCaseFold)
      = [0xD#4, 0xA#4, 0x5#4, 0x9#4, 0x1#4, 0x9#4].map ggLetter)
    ∧ (let s := ggCode [0x53, 0x58, 0x53, 0x4F, 0x50, 0x50, 0x49, 0x45] 8
       s.gg.clen = 8 ∧ (s.gg.code 8).map (foldCase s.cfg.ggCaseFold)
        = [0xD#4, 0xA#4, 0xD#4, 0x9#4, 0x1#4, 0x1#4, 0x5#4, 0x8#4].map ggLetter) := by decide

/-- The lengths around 6 and 8; a bad character first and a bad character last. -/
theorem witness_GgDecodeReportsTheFirstError :
    ([0, 5, 7, 9, 15] : List (BitVec 4)).all (fun n => decide (n ≠ 6 ∧ n ≠ 8)) = true
    ∧ (let s := ggCode [0x42, 0x58, 0x49, 0x4F, 0x50, 0x4F] 6
       s.gg.clen = 6 ∧ (0 : Fin 8).val < s.gg.clen.toNat ∧ ¬ inAlphabet s.cfg.ggCaseFold (s.gg.char.get 0))
    ∧ (let s := ggCode [0x53, 0x58, 0x53, 0x4F, 0x50, 0x50, 0x49, 0x65] 8
       s.gg.clen = 8 ∧ (7 : Fin 8).val < s.gg.clen.toNat ∧ ¬ inAlphabet s.cfg.ggCaseFold (s.gg.char.get 7)
        ∧ ∀ j : Fin 8, j < 7 → inAlphabet s.cfg.ggCaseFold (s.gg.char.get j)) := by
  unfold inAlphabet; decide

/-- The addresses on both sides of 0x8000, without and with a compare byte. -/
theorem witness_GgEncodeWritesTheCanonicalCode :
    (ggTriple 0x7FFF 0 0 0).gg.addr.toNat < 0x8000
    ∧ (0x8000 ≤ (ggTriple 0x8000 0 0 0).gg.addr.toNat ∧ (ggTriple 0x8000 0 0 0).gg.hasCmp = 0)
    ∧ (0x8000 ≤ (ggTriple 0xFFFF 0 5 1).gg.addr.toNat ∧ (ggTriple 0xFFFF 0 5 1).gg.hasCmp = 1) := by decide

theorem witness_GgEncodeThenDecodeRestoresTheTriple :
    0x8000 ≤ (ggTriple 0x8000 0xAD 5 1).gg.addr.toNat ∧ 0x8000 ≤ (ggTriple 0xFFFF 0xAD 5 0).gg.addr.toNat := by decide

/-- `SXIOPO`, and `sxsoppie` where the implementation folds. -/
theorem witness_GgDecodeThenEncodeRestoresTheCode :
    (let s := ggCode [0x53, 0x58, 0x49, 0x4F, 0x50, 0x4F] 6
     let ns : List Nibble := [0xD, 0xA, 0x5, 0x9, 0x1, 0x9]
     ns.length = s.gg.clen.toNat ∧ ns.length = 6
      ∧ (s.gg.code ns.length).map (foldCase s.cfg.ggCaseFold) = ns.map ggLetter
      ∧ (ns.getD 2 0).getLsbD 3 = decide (ns.length = 8))
    ∧ (let s := { ggCode [0x73, 0x78, 0x73, 0x6F, 0x70, 0x70, 0x69, 0x65] 8 with
         cfg := { Config.standard with ggCaseFold := true } }
       let ns : List Nibble := [0xD, 0xA, 0xD, 0x9, 0x1, 0x1, 0x5, 0x8]
       ns.length = s.gg.clen.toNat ∧ ns.length = 8
        ∧ (s.gg.code ns.length).map (foldCase s.cfg.ggCaseFold) = ns.map ggLetter
        ∧ (ns.getD 2 0).getLsbD 3 = decide (ns.length = 8)) := by decide

theorem witness_PrngInitIteratesFromTheSeed :
    (0x8988#16).toNat = (prngArgs 0x18988 0xFFFFFFFF).arg0.toNat % 65536
    ∧ (0xFFFF#16).toNat = (prngArgs 0x18988 0xFFFFFFFF).arg1.toNat % 65536 := by decide

theorem witness_PrngSetItCountsFromTheSeed :
    (5#16).toNat = (prngArgs 0x10005 0).arg0.toNat % 65536 ∧ (prngArgs 0x10005 0).flags.prngValid = false
    ∧ (prngAt 3 0x1131).flags.prngValid = true := by decide

theorem witness_PrngStepAppliesTheTransitionOnce :
    (prngArgs 0 0).flags.prngValid = false ∧ (prngAt 65535 0x44C4).flags.prngValid = true := by decide

/-- The largest number of steps from the seed, and from its third iterate. -/
theorem witness_PrngStepsReproduceSetIt :
    (let s := prngAt 0 0x8988
     s.flags.prngValid = true ∧ s.prng.state = iter (prngStep s.cfg) s.prng.iter.toNat s.prng.seed
      ∧ s.prng.iter.toNat + 65535 < 65536)
    ∧ (let s := prngAt 3 0x1131
       s.flags.prngValid = true ∧ s.prng.state = iter (prngStep s.cfg) s.prng.iter.toNat s.prng.seed
        ∧ s.prng.iter.toNat + 65532 < 65536) := by decide

/-- A host read of register `n` is the next access. -/
def readNext (n : Byte) (s : State) : State := { s with pending := [.read n] }

/-- The first hypothesis of `HostReadIsGatedByItsValidBit`. -/
abbrev gated (s : State) (n : Byte) : Prop :=
  (0x08 ≤ n.toNat ∧ n.toNat ≤ 0x0F ∧ s.flags.hdrValid = false)
    ∨ ((n.toNat = 0x14 ∨ (0x18 ≤ n.toNat ∧ n.toNat ≤ 0x1F)) ∧ s.flags.tileValid = false)
    ∨ (0x23 ≤ n.toNat ∧ n.toNat ≤ 0x29 ∧ s.flags.disValid = false)
    ∨ (0x40 ≤ n.toNat ∧ n.toNat ≤ 0x42 ∧ s.flags.prngValid = false)

/-- The ends of each gated range after reset, and the numbers beside them, which are not gated. -/
theorem witness_HostReadIsGatedByItsValidBit :
    (∀ n ∈ [0x08#8, 0x0F#8, 0x14#8, 0x18#8, 0x1F#8, 0x23#8, 0x29#8, 0x40#8, 0x42#8], gated (readNext n State.reset) n)
    ∧ (∀ n ∈ [0x07#8, 0x10#8, 0x13#8, 0x15#8, 0x17#8, 0x20#8, 0x22#8, 0x2A#8, 0x3F#8, 0x43#8, 0xFF#8],
        ¬ gated (readNext n State.reset) n)
    ∧ ¬ gated (readNext 0x42 (prngAt 0 0x8988)) 0x42
    ∧ (readNext 0x42 (prngAt 0 0x8988)).holdsUnproduced = false
    ∧ ∀ n ∈ [0x08#8, 0x42#8, 0xFF#8], (readNext n State.reset).holdsUnproduced = false
        ∧ (readNext n State.reset).pending = .read n :: [] :=
  ⟨by decide, by decide, by decide, by decide, by decide⟩

/-- The ends of each range. -/
theorem witness_ReservedAndReadOnlyIgnoreWrites :
    (∀ n ∈ [0x07#8, 0x15#8, 0x17#8, 0x2A#8, 0x2F#8, 0x3D#8, 0x3F#8, 0x43#8, 0xFF#8],
      n.toNat = 0x07 ∨ (0x15 ≤ n.toNat ∧ n.toNat ≤ 0x17) ∨ (0x2A ≤ n.toNat ∧ n.toNat ≤ 0x2F)
        ∨ (0x3D ≤ n.toNat ∧ n.toNat ≤ 0x3F) ∨ 0x43 ≤ n.toNat)
    ∧ ∀ n ∈ [0x01#8, 0x02#8, 0x06#8, 0x08#8, 0x0F#8, 0x12#8, 0x14#8, 0x18#8, 0x1F#8, 0x22#8, 0x29#8, 0x40#8, 0x42#8],
      n.toNat = 0x01 ∨ n.toNat = 0x02 ∨ n.toNat = 0x06 ∨ (0x08 ≤ n.toNat ∧ n.toNat ≤ 0x0F)
        ∨ (0x12 ≤ n.toNat ∧ n.toNat ≤ 0x14) ∨ (0x18 ≤ n.toNat ∧ n.toNat ≤ 0x1F)
        ∨ (0x22 ≤ n.toNat ∧ n.toNat ≤ 0x29) ∨ (0x40 ≤ n.toNat ∧ n.toNat ≤ 0x42) := by decide

theorem witness_BufferWritesInvalidateTheResults :
    (0#32).toNat < State.reset.cfg.bufSize ∧ (0x7FFFFFFF#32).toNat < State.reset.cfg.bufSize := by decide

theorem witness_BufLenIsClampedToTheCapacity :
    perform (.write 0x03 0xFFFFFFFF) State.reset = .next { State.reset with bufLen := 0x80000000 }
    ∧ perform (.write 0x03 5) State.reset = .next { State.reset with bufLen := 5 } := ⟨rfl, rfl⟩

theorem witness_BufferReadsBackWhatWasWritten :
    (0x7FFFFFFF#32).toNat < State.reset.cfg.bufSize ∧ (1#32) ≠ 0 ∧ State.reset.cfg.bufSize ≤ (0x80000000#32).toNat
    ∧ State.reset.ibuf.read (0x7FFFFFFF#32).toNat = none := by decide

theorem witness_InstructionsLeaveTheHostsStateAlone :
    nextHas (exec (.opLda (.imm 5)) (code [0xA9, 0x05] 0)) (fun _ => true) = true
    ∧ nextHas (exec .chrNext (tiles fullTile 0)) (fun _ => true) = true := by decide

/-- For each clause an instruction that meets it and answers a next state. -/
theorem witness_CommandsKeepToTheirUnit :
    nextHas (exec .chrNext (tiles fullTile 0)) (fun _ => true) = true
    ∧ nextHas (exec .hdrParse (loaded (header 0 0 0 0))) (fun _ => true) = true
    ∧ Instr.prngInit.space = .command ∧ nextHas (exec .prngInit (prngArgs 0 1)) (fun _ => true) = true
    ∧ nextHas (exec .ggDecode (ggCode [] 7)) (fun _ => true) = true
    ∧ nextHas (exec .disNext (code [0xEA] 0)) (fun _ => true) = true := by decide

/-- An instruction that ends with each status but 6. -/
theorem witness_StatusIsWrittenByTheRuleOfEachCommand :
    let ends := fun (i : Instr) (s : State) (c : Byte) => nextHas (exec i s) (fun t => decide (t.status = c))
    ends .nop State.reset 0 ∧ ends .hdrParse State.reset 1
    ∧ ends .chrRestart { State.reset with chr := { State.reset.chr with len := 17 } } 2
    ∧ ends .disNext (code [0xA9] 0) 3 ∧ ends (.opLda (.imm 5)) (code [0xA9] 0) 3
    ∧ ends .ggDecode (ggCode [] 7) 4 ∧ ends .ggDecode (ggCode [] 6) 5 ∧ ends .ggEncode State.reset 7
    ∧ ends (.illegalCommand 0x43) State.reset 8 ∧ ends .prngStep State.reset 9 ∧ ends (.opNop .imp) State.reset 9
    ∧ ends .disStart { State.reset with dis := { State.reset.dis with len := 1 } } 10 := by decide

theorem witness_FailingCommandWritesNoOutput :
    nextHas (exec .ggEncode State.reset) (fun t => decide (t.status ≠ 0 ∧ t.status ≠ 3)) = true
    ∧ nextHas (exec .disNext (code [0xA9] 0)) (fun t => decide (t.status = 3 ∧ t.flags.disReady = true)) = true := by
  decide

theorem witness_FailedCommandFailsAgain :
    nextHas (exec .hdrParse State.reset) (fun t => decide (t.status ≠ 0 ∧ t.status ≠ 3)) = true
    ∧ nextHas (exec .disNext (code [0xA9] 0)) (fun t => decide (t.status = 3)) = true := by decide

/-- An open decode sequence of two bytes, with the buffer 16 bytes large. -/
def sampleBase : State :=
  { code [0xA9, 0x05] 0 with cfg := { Config.standard with bufSize := 16, prng := .reference } }

/-- The same with an access of the host pending. -/
def sample (e : Event) : State := { sampleBase with pending := [e] }

theorem sample_inv (e : Event) : (sample e).Inv where
  config := (by decide : sampleBase.cfg.legal = true)
  memory := ⟨(by decide : sampleBase.ibuf.wf), (by decide : ∀ c ∈ sampleBase.ibuf, c.1 < sampleBase.cfg.bufSize),
    (by decide : sampleBase.bufLen.toNat ≤ sampleBase.cfg.bufSize)⟩
  header := fun h => Bool.noConfusion h
  chr := ⟨fun h => Bool.noConfusion h, fun h => Bool.noConfusion h, fun h => Bool.noConfusion h,
    fun h => Bool.noConfusion h, fun h => Bool.noConfusion h⟩
  dis := ⟨fun _ => (by decide : sampleBase.dis.base.toNat + sampleBase.dis.len.toNat ≤ sampleBase.bufLen.toNat),
    fun h => Bool.noConfusion h, fun h => Bool.noConfusion h⟩
  prng := fun h => Bool.noConfusion h
  noIoError := (by decide : sampleBase.status ≠ StatusCode.ioError.number)
  produced := (by decide : sampleBase.holdsUnproduced = false)

theorem witness_StepKeepsTheInvariant :
    (sample (.write 0x00 0x21)).Inv
    ∧ nextHas (step (sample (.write 0x00 0x21))) (fun t => decide (t.flags.disValid = true)) = true :=
  ⟨sample_inv _, by decide⟩

theorem witness_StepStopsOnlyWhereNoValueIs :
    (sample (.read 0x23)).Inv ∧ step (sample (.read 0x23)) = .fault (.unreadableRegister .disOff)
    ∧ (sample (.readBuf 15)).Inv ∧ step (sample (.readBuf 15)) = .fault (.unwrittenByte 15) :=
  ⟨sample_inv _, rfl, sample_inv _, rfl⟩

theorem witness_StepIsNeverRefused : (sample (.write 0x00 0x21)).Inv := sample_inv _

end Sys2Proof.Tests
end

section
/-! O55 (00_scope.md R15, 60_exceptions.md R271). Every failing command ends in one of five ways, told apart by what
becomes of `FLAGS`; `exec_failure` says so once for every instruction, and the statement is read off it. -/
namespace Sys2Proof.Scope
open Sys2Proof.Machine

/-- The ways command `i`, ending with the error status `c`, may leave `FLAGS`. -/
inductive FailureFlags (f : Flags) : Instr → Byte → Flags → Prop
  | kept {i : Instr} {c : Byte} : FailureFlags f i c f
  | headerDropped {c : Byte} : FailureFlags f .hdrParse c f.dropHeader
  | tilesClosed {c : Byte} : FailureFlags f .chrRestart c f.closeChr
  | decoderClosed {c : Byte} : FailureFlags f .disStart c f.closeDis
  | truncated {i : Instr} : FailureFlags f i 3 { f with disEnd := true, disValid := false }

/-- From `s` to `t` nothing but `STATUS`, `ERRINFO` and `FLAGS` changes, and `FLAGS` as a failure of `i` may. -/
structure Failure (i : Instr) (s t : State) : Prop where
  frame : t = { s with status := t.status, errinfo := t.errinfo, flags := t.flags }
  flags : FailureFlags s.flags i t.status t.flags

section
variable {f f' : Flags} {i : Instr} {c : Byte}

/-- R271: only the three commands that close what was open, and a truncated decode, touch `FLAGS` as they fail. -/
theorem FailureFlags.eq_of_not_closing (h : FailureFlags f i c f') (hHdr : i ≠ .hdrParse) (hChr : i ≠ .chrRestart)
    (hDis : i ≠ .disStart) (hc : c ≠ 3) : f' = f := by
  cases h with
  | kept => rfl
  | headerDropped => exact absurd rfl hHdr
  | tilesClosed => exact absurd rfl hChr
  | decoderClosed => exact absurd rfl hDis
  | truncated => exact absurd rfl hc

/-- A failure clears flags; the one it may set is the end bit of a truncated decode. -/
theorem FailureFlags.sets_only_disEnd (h : FailureFlags f i c f') :
    f'.prngValid = f.prngValid
    ∧ (f'.hdrValid = true → f.hdrValid = true)
    ∧ (f'.chrReady = true → f.chrReady = true)
    ∧ (f'.chrEnd = true → f.chrEnd = true)
    ∧ (f'.tileValid = true → f.tileValid = true)
    ∧ (f'.disReady = true → f.disReady = true)
    ∧ (f'.disEnd = true → f.disEnd = true ∨ c = 3)
    ∧ (f'.disValid = true → f.disValid = true) := by
  cases h <;> simp +contextual

end

section
variable {i : Instr} {s t : State}

/-- `raise` alone is a failure that keeps `FLAGS` (R14). -/
theorem failure_of_raised (i : Instr) (s : State) (c : Byte) (info : Word) :
    Failure i s { s with status := c, errinfo := info } :=
  ⟨rfl, .kept⟩

/-! ### The commands -/

theorem execHdrParse_failure (h : execHdrParse s = .next t) (ht : t.status ≠ 0) : Failure .hdrParse s t := by
  rcases execHdrParse_next h with ⟨reason, v, -, rfl⟩ | ⟨bs, -, -, -, -, hAccept⟩
  · exact ⟨rfl, .headerDropped⟩
  · obtain rfl := acceptHeader_next.mp hAccept
    exact absurd rfl ht

theorem execChrRestart_failure (h : execChrRestart s = .next t) (ht : t.status ≠ 0) : Failure .chrRestart s t := by
  rcases execChrRestart_next h with ⟨c, info, -, rfl⟩ | ⟨-, -, rfl⟩
  · exact ⟨rfl, .tilesClosed⟩
  · exact absurd rfl ht

theorem execChrNext_failure (h : execChrNext s = .next t) (ht : t.status ≠ 0) : Failure i s t := by
  rcases execChrNext_next h with ⟨-, rfl⟩ | ⟨-, -, rfl⟩ | ⟨-, -, b, -, hTile⟩
  · exact failure_of_raised ..
  · exact absurd rfl ht
  · obtain rfl := deliverTile_next.mp hTile
    exact absurd rfl ht

theorem execDisStart_failure (h : execDisStart s = .next t) (ht : t.status ≠ 0) : Failure .disStart s t := by
  rcases execDisStart_next h with ⟨-, rfl⟩ | ⟨-, rfl⟩
  · exact ⟨rfl, .decoderClosed⟩
  · exact absurd rfl ht

/-- Of the three findings of a decode step only the truncated one is an error. -/
theorem disFinish_failure {d : Decoded} (h : disFinish d s = .next t) (ht : t.status ≠ 0) : Failure i s t := by
  cases d with
  | stop =>
    obtain rfl := disFinish_stop_next.mp h
    exact absurd rfl ht
  | truncated c =>
    obtain rfl := disFinish_truncated_next.mp h
    exact ⟨rfl, .truncated⟩
  | entry e =>
    obtain rfl := disFinish_entry_next.mp h
    exact absurd rfl ht

theorem execDisNext_failure (h : execDisNext s = .next t) (ht : t.status ≠ 0) : Failure i s t := by
  rcases execDisNext_next h with ⟨-, rfl⟩ | ⟨-, -, rfl⟩ | ⟨-, -, d, -, hFinish⟩
  · exact failure_of_raised ..
  · exact absurd rfl ht
  · exact disFinish_failure hFinish ht

theorem execGgDecode_failure (h : execGgDecode s = .next t) (ht : t.status ≠ 0) : Failure i s t := by
  rcases execGgDecode_next h with ⟨-, -, rfl⟩ | ⟨-, ⟨n, ch, -, rfl⟩ | ⟨ns, -, rfl⟩⟩
  · exact failure_of_raised ..
  · exact failure_of_raised ..
  · exact absurd rfl ht

theorem execGgEncode_failure (h : execGgEncode s = .next t) (ht : t.status ≠ 0) : Failure i s t := by
  rcases execGgEncode_next h with ⟨-, rfl⟩ | ⟨-, rfl⟩
  · exact failure_of_raised ..
  · exact absurd rfl ht

theorem execPrngStep_failure (h : execPrngStep s = .next t) (ht : t.status ≠ 0) : Failure i s t := by
  rcases execPrngStep_next h with ⟨-, rfl⟩ | ⟨-, rfl⟩
  · exact failure_of_raised ..
  · exact absurd rfl ht

theorem execPrngSetIt_failure (h : execPrngSetIt s = .next t) (ht : t.status ≠ 0) : Failure i s t := by
  rcases execPrngSetIt_next h with ⟨-, rfl⟩ | ⟨-, rfl⟩
  · exact failure_of_raised ..
  · exact absurd rfl ht

/-! ### The 6502 instructions -/

theorem decodeAs_failure {op : Byte} {m : Mnemonic} {mode : Mode} {bytes : List Byte}
    (h : decodeAs op m mode bytes s = .next t) (ht : t.status ≠ 0) : Failure i s t := by
  rcases decodeAs_next h with ⟨-, rfl⟩ | ⟨-, -, rfl⟩ | ⟨-, -, d, hFinish, -⟩
  · exact failure_of_raised ..
  · exact absurd rfl ht
  · exact disFinish_failure hFinish ht

theorem exec_entry_failure {m : Mnemonic} {o : Operand} (he : i.entry? = some (m, o)) (h : exec i s = .next t)
    (ht : t.status ≠ 0) : Failure i s t := by
  rw [exec_of_entry he] at h
  obtain ⟨op, -, hAs⟩ := decodeForm_next h
  exact decodeAs_failure hAs ht

/-! ### Every instruction -/

/-- The instructions that are no legal 6502 instruction: the commands, the illegal command and the illegal opcode. -/
theorem exec_nonEntry_failure (he : i.entry? = none) (h : exec i s = .next t) (ht : t.status ≠ 0) :
    Failure i s t := by
  cases i with
  | nop =>
    obtain rfl := execNop_next.mp h
    exact absurd rfl ht
  | hdrParse => exact execHdrParse_failure h ht
  | chrRestart => exact execChrRestart_failure h ht
  | chrNext => exact execChrNext_failure h ht
  | disStart => exact execDisStart_failure h ht
  | disNext => exact execDisNext_failure h ht
  | ggDecode => exact execGgDecode_failure h ht
  | ggEncode => exact execGgEncode_failure h ht
  | prngInit =>
    obtain rfl := execPrngInit_next.mp h
    exact absurd rfl ht
  | prngStep => exact execPrngStep_failure h ht
  | prngSetIt => exact execPrngSetIt_failure h ht
  | illegalCommand code =>
    obtain rfl := execIllegalCommand_next.mp h
    exact failure_of_raised ..
  | opIllegal op => exact decodeAs_failure h ht
  | _ => cases he

/-- What a failing command can do, whichever it is. -/
theorem exec_failure (h : exec i s = .next t) (ht : t.status ≠ 0) : Failure i s t := by
  cases he : i.entry? with
  | none => exact exec_nonEntry_failure he h ht
  | some e => exact exec_entry_failure he h ht

end

/-- Settles O55: every failing command is a `Failure`, whose frame and flags give the two halves. -/
theorem failingCommandWritesNoOutput : Obligations.FailingCommandWritesNoOutput := by
  unfold Obligations.FailingCommandWritesNoOutput
  intro i s t h ht
  obtain ⟨hFrame, hFlags⟩ := exec_failure h ht
  exact ⟨hFrame, hFlags.eq_of_not_closing, hFlags.sets_only_disEnd⟩

end Sys2Proof.Scope
end

section
/-! O44 to O51 but O50. The register map read from the numbers: which numbers are reserved, read-only or gated
(10_state.md R21, R24 to R26), and what a host access of a number does. -/
namespace Sys2Proof.Machine

/-! ### The numbers of the map -/

/-- The register numbers that R24 leaves out (R26). -/
abbrev ReservedNumber (n : Byte) : Prop :=
  n.toNat = 0x07 ∨ (0x15 ≤ n.toNat ∧ n.toNat ≤ 0x17) ∨ (0x2A ≤ n.toNat ∧ n.toNat ≤ 0x2F)
    ∨ (0x3D ≤ n.toNat ∧ n.toNat ≤ 0x3F) ∨ 0x43 ≤ n.toNat

/-- The numbers of the registers that R24 marks read-only. -/
abbrev ReadOnlyNumber (n : Byte) : Prop :=
  n.toNat = 0x01 ∨ n.toNat = 0x02 ∨ n.toNat = 0x06 ∨ (0x08 ≤ n.toNat ∧ n.toNat ≤ 0x0F)
    ∨ (0x12 ≤ n.toNat ∧ n.toNat ≤ 0x14) ∨ (0x18 ≤ n.toNat ∧ n.toNat ≤ 0x1F)
    ∨ (0x22 ≤ n.toNat ∧ n.toNat ≤ 0x29) ∨ (0x40 ≤ n.toNat ∧ n.toNat ≤ 0x42)

/-- The numbers whose valid bit is 0 (R21, R25). -/
abbrev GatedNumber (f : Flags) (n : Byte) : Prop :=
  (0x08 ≤ n.toNat ∧ n.toNat ≤ 0x0F ∧ f.hdrValid = false)
    ∨ ((n.toNat = 0x14 ∨ (0x18 ≤ n.toNat ∧ n.toNat ≤ 0x1F)) ∧ f.tileValid = false)
    ∨ (0x23 ≤ n.toNat ∧ n.toNat ≤ 0x29 ∧ f.disValid = false)
    ∨ (0x40 ≤ n.toNat ∧ n.toNat ≤ 0x42 ∧ f.prngValid = false)

theorem regOf_eq_some_iff {n : Byte} {q : Reg} : regOf n = some q ↔ q.number = n := by
  constructor
  · intro h
    simpa using List.find?_some h
  · rintro rfl
    exact regOf_number q

theorem regOf_eq_none_iff {n : Byte} : regOf n = none ↔ ReservedNumber n := by
  revert n
  decide

theorem Reg.number_injective {p q : Reg} (h : p.number = q.number) : p = q :=
  Option.some.inj ((regOf_number p).symm.trans ((congrArg regOf h).trans (regOf_number q)))

theorem exists_reg_of_not_reserved {n : Byte} (h : ¬ ReservedNumber n) : ∃ q : Reg, q.number = n := by
  obtain ⟨q, hq⟩ := Option.ne_none_iff_exists'.mp fun hn => h (regOf_eq_none_iff.mp hn)
  exact ⟨q, regOf_eq_some_iff.mp hq⟩

theorem GatedNumber.not_reserved {f : Flags} {n : Byte} (h : GatedNumber f n) : ¬ ReservedNumber n := by
  omega

/-- The gating of R25 by register is the gating by number. -/
theorem Reg.readable_eq_false_iff (f : Flags) (q : Reg) : q.readable f = false ↔ GatedNumber f q.number := by
  cases q with
  | chrRow i | ggChar i => fin_cases i <;> simp [Reg.readable, Reg.number, GatedNumber]
  | _ => simp [Reg.readable, Reg.number, GatedNumber]

theorem writeReg_readOnly (v : Word) (s : State) {q : Reg} (h : ReadOnlyNumber q.number) : writeReg v s q = s := by
  cases q with
  | ggChar i => exact absurd h (by fin_cases i <;> decide)
  | bufLen | arg0 | arg1 | chrBase | chrLen | disBase | disLen | ggClen | ggAddr | ggVal | ggCmp | ggHasCmp =>
    exact absurd h (by decide)
  | _ => rfl

/-! ### What an access of a number does -/

theorem hostRead_reserved {n : Byte} (h : regOf n = none) (s : State) : hostRead n s = .ok 0 := by
  simp [hostRead, h]

theorem hostRead_readable {n : Byte} {q : Reg} {s : State} (hn : q.number = n) (h : q.readable s.flags = true) :
    hostRead n s = .ok (q.value s) := by
  simp [hostRead, regOf_eq_some_iff.mpr hn, h]

theorem hostRead_gated {n : Byte} {q : Reg} {s : State} (hn : q.number = n) (h : q.readable s.flags = false) :
    hostRead n s = .error (.unreadableRegister q) := by
  simp [hostRead, regOf_eq_some_iff.mpr hn, h]

theorem hostWrite_reserved {n : Byte} (h : regOf n = none) (v : Word) (s : State) : hostWrite n v s = .next s := by
  simp [hostWrite, h]

/-- A host write of any register but `CMD` is its register write. -/
theorem hostWrite_reg {n : Byte} {q : Reg} (hn : q.number = n) (hq : q ≠ .cmd) (v : Word) (s : State) :
    hostWrite n v s = .next (writeReg v s q) := by
  have hReg := regOf_eq_some_iff.mpr hn
  rcases hostWrite_cases n v s with ⟨hNone, -⟩ | ⟨hCmd, -⟩ | ⟨p, -, hp, hw⟩
  · cases hReg.symm.trans hNone
  · exact absurd (Option.some.inj (hReg.symm.trans hCmd)) hq
  · rw [hw, Option.some.inj (hp.symm.trans hReg)]

/-- What a read answers does not depend on the accesses still to happen. -/
theorem hostRead_pending (n : Byte) (s : State) (es : List Event) :
    hostRead n { s with pending := es } = hostRead n s := by
  have hValue (q : Reg) : q.value { s with pending := es } = q.value s := by cases q <;> rfl
  simp only [hostRead, hValue]

/-- The low `w` bits of a host value are its value mod `2 ^ w` (R28). -/
theorem ofNat_mod_eq_setWidth (w : Nat) (v : Word) : BitVec.ofNat w (v.toNat % 2 ^ w) = v.setWidth w := by
  apply BitVec.eq_of_toNat_eq
  simp

theorem hostWriteBuf_within {a : Word} {s : State} (h : a.toNat < s.cfg.bufSize) (v : Byte) :
    hostWriteBuf a v s = { s with ibuf := s.ibuf.write a.toNat v, flags := s.flags.invalidate } := if_pos h

theorem hostWriteBuf_past {a : Word} {s : State} (h : s.cfg.bufSize ≤ a.toNat) (v : Byte) :
    hostWriteBuf a v s = s := if_neg (Nat.not_lt.mpr h)

theorem clampLen_toNat (c : Config) (v : Word) : (clampLen c v).toNat = min v.toNat c.bufSize :=
  Nat.mod_eq_of_lt ((Nat.min_le_left _ _).trans_lt v.isLt)

/-! ### The statements -/

/-- Settles O44: the read finds a register exactly where the number is not reserved, and that register is unreadable
exactly where its number is gated. -/
theorem hostReadIsGatedByItsValidBit : Obligations.HostReadIsGatedByItsValidBit := by
  unfold Obligations.HostReadIsGatedByItsValidBit
  intro s n rest hu hp
  have hStep : step s = recordRead { s with pending := rest } (hostRead n s) := by
    rw [step_perform hu hp, perform, hostRead_pending]
  refine ⟨fun (hGated : GatedNumber s.flags n) => ?_, fun (hOpen : ¬ GatedNumber s.flags n) => ?_⟩
  · obtain ⟨q, rfl⟩ := exists_reg_of_not_reserved hGated.not_reserved
    refine ⟨q, rfl, ?_⟩
    rw [hStep, hostRead_gated rfl ((Reg.readable_eq_false_iff s.flags q).mpr hGated), recordRead]
  · cases hn : regOf n with
    | none =>
      refine ⟨0, ?_, fun q hq => ?_, fun _ => rfl⟩
      · rw [hStep, hostRead_reserved hn, recordRead]
      · rw [regOf_eq_some_iff.mpr hq] at hn
        cases hn
    | some q =>
      obtain rfl := regOf_eq_some_iff.mp hn
      have hReadable : q.readable s.flags = true :=
        Bool.eq_true_of_not_eq_false fun h => hOpen ((Reg.readable_eq_false_iff s.flags q).mp h)
      refine ⟨q.value s, ?_, fun p hpq => ?_, fun h => absurd rfl (h q)⟩
      · rw [hStep, hostRead_readable rfl hReadable, recordRead]
      · rw [Reg.number_injective hpq]

/-- Settles O45: a reserved number has no register, and a read-only register's write is the identity. -/
theorem reservedAndReadOnlyIgnoreWrites : Obligations.ReservedAndReadOnlyIgnoreWrites := by
  unfold Obligations.ReservedAndReadOnlyIgnoreWrites
  intro s n v
  refine ⟨fun (hReserved : ReservedNumber n) => ?_, fun (hReadOnly : ReadOnlyNumber n) => ?_⟩
  · have hn := regOf_eq_none_iff.mpr hReserved
    exact ⟨hostRead_reserved hn s, hostWrite_reserved hn v s⟩
  · obtain ⟨q, rfl⟩ := exists_reg_of_not_reserved (n := n) (by omega)
    have hq : q ≠ .cmd := by
      rintro rfl
      exact absurd hReadOnly (by decide)
    rw [hostWrite_reg rfl hq, writeReg_readOnly v s hReadOnly]

/-- Settles O46: both writes invalidate `FLAGS`, which keeps the PRNG's bit alone. -/
theorem bufferWritesInvalidateTheResults : Obligations.BufferWritesInvalidateTheResults := by
  unfold Obligations.BufferWritesInvalidateTheResults
  intro s a v b
  exact ⟨fun ha => congrArg Host.Outcome.next (hostWriteBuf_within ha b),
    clampLen s.cfg v, hostWrite_reg (q := .bufLen) rfl (by decide) v s⟩

/-- Settles O47: each of the four is its register's write. -/
theorem regionWritesCloseTheirSequence : Obligations.RegionWritesCloseTheirSequence := by
  unfold Obligations.RegionWritesCloseTheirSequence
  intro s v
  exact ⟨hostWrite_reg (q := .chrBase) rfl (by decide) v s, hostWrite_reg (q := .chrLen) rfl (by decide) v s,
    hostWrite_reg (q := .disBase) rfl (by decide) v s, hostWrite_reg (q := .disLen) rfl (by decide) v s⟩

/-- Settles O48: the smaller of the two fits in 32 bits, because the value does. -/
theorem bufLenIsClampedToTheCapacity : Obligations.BufLenIsClampedToTheCapacity := by
  unfold Obligations.BufLenIsClampedToTheCapacity
  intro s t v h
  have hWrite : perform (.write 0x03 v) s = .next (writeReg v s .bufLen) :=
    hostWrite_reg (q := .bufLen) rfl (by decide) v s
  obtain rfl := Host.Outcome.next.inj (hWrite.symm.trans h)
  exact ⟨clampLen_toNat s.cfg v, hostRead_readable (q := .bufLen) rfl rfl⟩

/-- Settles O49: the register writes cut the value to the register's width, which is its value mod a power of 2. -/
theorem narrowRegistersKeepTheLowBits : Obligations.NarrowRegistersKeepTheLowBits := by
  unfold Obligations.NarrowRegistersKeepTheLowBits
  intro s v
  have hBit : BitVec.ofNat 1 (v.toNat % 2) = v.setWidth 1 := ofNat_mod_eq_setWidth 1 v
  have hNibble : BitVec.ofNat 4 (v.toNat % 16) = v.setWidth 4 := ofNat_mod_eq_setWidth 4 v
  have hByte : BitVec.ofNat 8 (v.toNat % 256) = v.setWidth 8 := ofNat_mod_eq_setWidth 8 v
  have hHalf : BitVec.ofNat 16 (v.toNat % 65536) = v.setWidth 16 := ofNat_mod_eq_setWidth 16 v
  rw [hBit, hNibble, hByte, hHalf]
  exact ⟨hostWrite_cmd v s,
    hostWrite_reg (q := .arg0) rfl (by decide) v s,
    hostWrite_reg (q := .arg1) rfl (by decide) v s,
    fun i => hostWrite_reg (q := .ggChar i) rfl (by simp) v s,
    hostWrite_reg (q := .ggClen) rfl (by decide) v s,
    hostWrite_reg (q := .ggAddr) rfl (by decide) v s,
    hostWrite_reg (q := .ggVal) rfl (by decide) v s,
    hostWrite_reg (q := .ggCmp) rfl (by decide) v s,
    hostWrite_reg (q := .ggHasCmp) rfl (by decide) v s⟩

/-- Settles O51: `FLAGS` is never gated, and each bit of its word is one of the eight one-bit pieces. -/
theorem flagsBitsStandInTheirPlaces : Obligations.FlagsBitsStandInTheirPlaces := by
  unfold Obligations.FlagsBitsStandInTheirPlaces
  intro s
  refine ⟨hostRead_readable (q := .flags) rfl rfl, ?_⟩
  unfold Flags.word
  simp only [BitVec.getLsbD_append]
  simp

end Sys2Proof.Machine
end

section
/-! O52. Every instruction, of either code space, leaves the host's side of the state alone (10_state.md R23,
20_memory.md R54): `exec_keepsHostSide` says so once, read off what each meaning can do. -/
namespace Sys2Proof.Machine

/-- From `s` to `t` no byte of `IBUF`, and none of what only the host writes, has changed. -/
structure KeepsHostSide (s t : State) : Prop where
  ibuf : t.ibuf = s.ibuf
  bufLen : t.bufLen = s.bufLen
  cmd : t.cmd = s.cmd
  arg0 : t.arg0 = s.arg0
  arg1 : t.arg1 = s.arg1
  cfg : t.cfg = s.cfg
  pending : t.pending = s.pending
  reads : t.reads = s.reads

/-- What a command may write (R23): the status registers, `FLAGS` and the five units' registers. -/
theorem KeepsHostSide.of_units (s : State) (status : Byte) (errinfo : Word) (flags : Flags) (hdr : HdrRegs)
    (chr : ChrRegs) (dis : DisRegs) (gg : GgRegs) (prng : PrngRegs) :
    KeepsHostSide s { s with
      status := status, errinfo := errinfo, flags := flags, hdr := hdr, chr := chr, dis := dis, gg := gg
      prng := prng } :=
  ⟨rfl, rfl, rfl, rfl, rfl, rfl, rfl, rfl⟩

section
variable {s t : State}

theorem execHdrParse_keepsHostSide (h : execHdrParse s = .next t) : KeepsHostSide s t := by
  rcases execHdrParse_next h with ⟨reason, v, -, rfl⟩ | ⟨bs, -, -, -, -, hAccept⟩
  · exact .of_units ..
  · obtain rfl := acceptHeader_next.mp hAccept
    exact .of_units ..

theorem execChrRestart_keepsHostSide (h : execChrRestart s = .next t) : KeepsHostSide s t := by
  rcases execChrRestart_next h with ⟨c, info, -, rfl⟩ | ⟨-, -, rfl⟩ <;> exact .of_units ..

theorem execChrNext_keepsHostSide (h : execChrNext s = .next t) : KeepsHostSide s t := by
  rcases execChrNext_next h with ⟨-, rfl⟩ | ⟨-, -, rfl⟩ | ⟨-, -, b, -, hTile⟩
  · exact .of_units ..
  · exact .of_units ..
  · obtain rfl := deliverTile_next.mp hTile
    exact .of_units ..

theorem execDisStart_keepsHostSide (h : execDisStart s = .next t) : KeepsHostSide s t := by
  rcases execDisStart_next h with ⟨-, rfl⟩ | ⟨-, rfl⟩ <;> exact .of_units ..

theorem disFinish_keepsHostSide {d : Decoded} (h : disFinish d s = .next t) : KeepsHostSide s t := by
  cases d with
  | stop =>
    obtain rfl := disFinish_stop_next.mp h
    exact .of_units ..
  | truncated c =>
    obtain rfl := disFinish_truncated_next.mp h
    exact .of_units ..
  | entry e =>
    obtain rfl := disFinish_entry_next.mp h
    exact .of_units ..

theorem execDisNext_keepsHostSide (h : execDisNext s = .next t) : KeepsHostSide s t := by
  rcases execDisNext_next h with ⟨-, rfl⟩ | ⟨-, -, rfl⟩ | ⟨-, -, d, -, hFinish⟩
  · exact .of_units ..
  · exact .of_units ..
  · exact disFinish_keepsHostSide hFinish

theorem execGgDecode_keepsHostSide (h : execGgDecode s = .next t) : KeepsHostSide s t := by
  rcases execGgDecode_next h with ⟨-, -, rfl⟩ | ⟨-, ⟨n, ch, -, rfl⟩ | ⟨ns, -, rfl⟩⟩ <;> exact .of_units ..

theorem execGgEncode_keepsHostSide (h : execGgEncode s = .next t) : KeepsHostSide s t := by
  rcases execGgEncode_next h with ⟨-, rfl⟩ | ⟨-, rfl⟩ <;> exact .of_units ..

theorem execPrngStep_keepsHostSide (h : execPrngStep s = .next t) : KeepsHostSide s t := by
  rcases execPrngStep_next h with ⟨-, rfl⟩ | ⟨-, rfl⟩ <;> exact .of_units ..

theorem execPrngSetIt_keepsHostSide (h : execPrngSetIt s = .next t) : KeepsHostSide s t := by
  rcases execPrngSetIt_next h with ⟨-, rfl⟩ | ⟨-, rfl⟩ <;> exact .of_units ..

theorem decodeAs_keepsHostSide {op : Byte} {m : Mnemonic} {mode : Mode} {bytes : List Byte}
    (h : decodeAs op m mode bytes s = .next t) : KeepsHostSide s t := by
  rcases decodeAs_next h with ⟨-, rfl⟩ | ⟨-, -, rfl⟩ | ⟨-, -, d, hFinish, -⟩
  · exact .of_units ..
  · exact .of_units ..
  · exact disFinish_keepsHostSide hFinish

/-- The instructions that are no legal 6502 instruction: the commands, the illegal command and the illegal opcode. -/
theorem exec_nonEntry_keepsHostSide {i : Instr} (he : i.entry? = none) (h : exec i s = .next t) :
    KeepsHostSide s t := by
  cases i with
  | nop =>
    obtain rfl := execNop_next.mp h
    exact .of_units ..
  | hdrParse => exact execHdrParse_keepsHostSide h
  | chrRestart => exact execChrRestart_keepsHostSide h
  | chrNext => exact execChrNext_keepsHostSide h
  | disStart => exact execDisStart_keepsHostSide h
  | disNext => exact execDisNext_keepsHostSide h
  | ggDecode => exact execGgDecode_keepsHostSide h
  | ggEncode => exact execGgEncode_keepsHostSide h
  | prngInit =>
    obtain rfl := execPrngInit_next.mp h
    exact .of_units ..
  | prngStep => exact execPrngStep_keepsHostSide h
  | prngSetIt => exact execPrngSetIt_keepsHostSide h
  | illegalCommand code =>
    obtain rfl := execIllegalCommand_next.mp h
    exact .of_units ..
  | opIllegal op => exact decodeAs_keepsHostSide h
  | _ => cases he

theorem exec_keepsHostSide {i : Instr} (h : exec i s = .next t) : KeepsHostSide s t := by
  cases he : i.entry? with
  | none => exact exec_nonEntry_keepsHostSide he h
  | some e =>
    rw [exec_of_entry he] at h
    obtain ⟨op, -, hAs⟩ := decodeForm_next h
    exact decodeAs_keepsHostSide hAs

end

/-- Settles O52: the frame of every instruction; the bytes of `IBUF` are kept because the store is. -/
theorem instructionsLeaveTheHostsStateAlone : Obligations.InstructionsLeaveTheHostsStateAlone := by
  unfold Obligations.InstructionsLeaveTheHostsStateAlone
  intro i s t h
  obtain ⟨hIbuf, hBufLen, hCmd, hArg0, hArg1, hCfg, hPending, hReads⟩ := exec_keepsHostSide h
  exact ⟨fun a => by rw [hIbuf], hIbuf, hBufLen, hCmd, hArg0, hArg1, hCfg, hPending, hReads⟩

end Sys2Proof.Machine
end

section
/-! O57. The invariant splits along the units (60_exceptions.md R282): an access writes the registers of one unit and
`STATUS`, and then only that unit's part of `State.Inv` has to be shown again. The lemmas `State.Inv.update…` say
this once for each unit, and each command is one use of them. -/
namespace Sys2Proof.Machine

/-! ### The values never produced -/

/-- What the invariant asks of `STATUS` and `ERRINFO` (R265 to R267, 93_implementation_defined.md U6). -/
structure State.StatusOk (s : State) : Prop where
  inRange : s.status.toNat ≤ 10
  noIoError : s.status ≠ 6
  reason : s.status = 1 → s.errinfo.extractLsb' 30 2 ≠ 3

/-- The mode and the mnemonic are ones that the tables of R74 and R76 number. -/
structure DisRegs.Produced (d : DisRegs) : Prop where
  mode : d.mode.toNat ≤ 12
  mnem : d.mnem.toNat ≤ 56

theorem State.holdsUnproduced_eq_false {s : State} : s.holdsUnproduced = false ↔
    (s.status.toNat ≤ 10 ∧ (s.status = 1 → s.errinfo.extractLsb' 30 2 ≠ 3)) ∧ s.dis.Produced := by
  constructor
  · intro h
    simp only [State.holdsUnproduced, StatusCode.number, Bool.or_eq_false_iff, decide_eq_false_iff_not, Nat.not_lt,
      Bool.and_eq_false_imp, beq_iff_eq, beq_eq_false_iff_ne] at h
    obtain ⟨⟨⟨hStatus, hMode⟩, hMnem⟩, hReason⟩ := h
    exact ⟨⟨hStatus, hReason⟩, hMode, hMnem⟩
  · rintro ⟨⟨hStatus, hReason⟩, hMode, hMnem⟩
    simpa [State.holdsUnproduced, StatusCode.number, hStatus, hMode, hMnem] using hReason

theorem StatusCode.number_le (c : StatusCode) : c.number.toNat ≤ 10 := by
  cases c <;> decide

theorem StatusCode.eq_of_number_eq {c d : StatusCode} (h : c.number = d.number) : c = d := by
  cases c <;> cases d <;> first | rfl | exact absurd h (by decide)

theorem modeNumber_le (mode : Mode) : (modeNumber mode).toNat ≤ 12 := by
  cases mode <;> decide

theorem mnemonicNumber_le (m : Mnemonic) : (mnemonicNumber m).toNat ≤ 56 := by
  cases m <;> decide

theorem entryRegs_produced (e : Entry) (d : DisRegs) : (entryRegs e d).Produced :=
  ⟨modeNumber_le e.mode, mnemonicNumber_le e.mnemonic⟩

theorem extractLsb'_headerInfo (reason : BitVec 2) (v : Nat) :
    (headerInfo reason v).extractLsb' 30 2 = reason := by
  simp only [headerInfo, BitVec.extractLsb'_append_eq_left]

section
variable {s t : State}

/-- Every status but `InvalidHeader` and the reserved `IoError` is free of conditions. -/
theorem State.StatusOk.of_code (c : StatusCode) (hs : s.status = c.number)
    (hc : c ≠ .invalidHeader ∧ c ≠ .ioError) : s.StatusOk := by
  obtain ⟨hHeader, hIo⟩ := hc
  constructor
  · rw [hs]
    exact c.number_le
  · rw [hs]
    exact fun h => hIo (StatusCode.eq_of_number_eq h)
  · intro h
    exact absurd (StatusCode.eq_of_number_eq (hs ▸ h)) hHeader

theorem State.StatusOk.of_ok (hs : s.status = 0) : s.StatusOk := .of_code .ok hs (by decide)

theorem State.StatusOk.of_header {reason : BitVec 2} {v : Nat} (hs : s.status = 1)
    (he : s.errinfo = headerInfo reason v) (hr : reason ≠ 3) : s.StatusOk where
  inRange := by rw [hs]; decide
  noIoError := by rw [hs]; decide
  reason _ := by rwa [he, extractLsb'_headerInfo]

theorem State.StatusOk.congr (h : s.StatusOk) (hs : t.status = s.status) (he : t.errinfo = s.errinfo) :
    t.StatusOk where
  inRange := by rw [hs]; exact h.inRange
  noIoError := by rw [hs]; exact h.noIoError
  reason := by rw [hs, he]; exact h.reason

theorem State.Inv.statusOk (h : s.Inv) : s.StatusOk :=
  have ⟨⟨hRange, hReason⟩, _⟩ := State.holdsUnproduced_eq_false.mp h.produced
  ⟨hRange, h.noIoError, hReason⟩

theorem State.Inv.disProduced (h : s.Inv) : s.dis.Produced := (State.holdsUnproduced_eq_false.mp h.produced).2

/-- `StatusOk` and `Produced` are the invariant's last two fields, split by the registers they are about. -/
theorem State.Inv.of_parts (config : s.cfg.legal = true) (memory : s.MemoryOk) (header : s.HeaderOk) (chr : s.ChrOk)
    (dis : s.DisOk) (prng : s.PrngOk) (status : s.StatusOk) (produced : s.dis.Produced) : s.Inv :=
  ⟨config, memory, header, chr, dis, prng, status.noIoError,
    State.holdsUnproduced_eq_false.mpr ⟨⟨status.inRange, status.reason⟩, produced⟩⟩

/-! ### What each part of the invariant is about -/

theorem State.MemoryOk.congr (h : s.MemoryOk) (hc : t.cfg = s.cfg) (hm : t.ibuf = s.ibuf)
    (hl : t.bufLen = s.bufLen) : t.MemoryOk where
  canonical := hm ▸ h.canonical
  inCapacity := by rw [hm, hc]; exact h.inCapacity
  length := by rw [hl, hc]; exact h.length

/-- An open tile sequence stays good while its registers, its flags and the length of the image stay. -/
theorem State.ChrOk.congr (h : s.ChrOk) (hr : t.chr = s.chr) (hl : t.bufLen = s.bufLen)
    (hReady : t.flags.chrReady = s.flags.chrReady) (hEnd : t.flags.chrEnd = s.flags.chrEnd)
    (hTile : t.flags.tileValid = s.flags.tileValid) : t.ChrOk where
  region := by rw [hReady, hr, hl]; exact h.region
  count := by rw [hReady, hr]; exact h.count
  cursor := by rw [hReady, hr]; exact h.cursor
  atEnd := by rw [hEnd, hReady, hr]; exact h.atEnd
  tile := by rw [hTile, hReady, hEnd, hr]; exact h.tile

theorem State.DisOk.congr (h : s.DisOk) (hr : t.dis = s.dis) (hl : t.bufLen = s.bufLen)
    (hReady : t.flags.disReady = s.flags.disReady) (hEnd : t.flags.disEnd = s.flags.disEnd)
    (hValid : t.flags.disValid = s.flags.disValid) : t.DisOk where
  region := by rw [hReady, hr, hl]; exact h.region
  atEnd := by rw [hEnd, hReady]; exact h.atEnd
  entry := by rw [hValid, hReady, hEnd, hr]; exact h.entry

/-- A closed tile sequence asks nothing of the registers (R30). -/
theorem State.ChrOk.of_closed (hReady : s.flags.chrReady = false) (hEnd : s.flags.chrEnd = false)
    (hTile : s.flags.tileValid = false) : s.ChrOk := by
  constructor <;> simp [hReady, hEnd, hTile]

/-- A closed decode sequence asks nothing of the registers (R31). -/
theorem State.DisOk.of_closed (hReady : s.flags.disReady = false) (hEnd : s.flags.disEnd = false)
    (hValid : s.flags.disValid = false) : s.DisOk := by
  constructor <;> simp [hReady, hEnd, hValid]

theorem State.HeaderOk.of_dropped (hv : s.flags.hdrValid = false) : s.HeaderOk := by
  simp [State.HeaderOk, hv]

/-! ### One unit written, the other parts kept -/

/-- The registers no other part of the invariant looks at: `CMD`, the arguments, the Game Genie unit, and the
model's own record of accesses. -/
theorem State.Inv.updateUnchecked (h : s.Inv)
    (hf : t = { s with
      cmd := t.cmd, arg0 := t.arg0, arg1 := t.arg1, gg := t.gg, pending := t.pending, reads := t.reads
      status := t.status, errinfo := t.errinfo })
    (hs : t.StatusOk) : t.Inv := by
  rw [hf] at hs ⊢
  exact .of_parts h.config (h.memory.congr rfl rfl rfl) h.header (h.chr.congr rfl rfl rfl rfl rfl)
    (h.dis.congr rfl rfl rfl rfl rfl) h.prng hs h.disProduced

/-- A write of `CHR`'s registers and flags. -/
theorem State.Inv.updateChr (h : s.Inv)
    (hf : t = { s with
      chr := t.chr
      flags := { s.flags with
        chrReady := t.flags.chrReady, chrEnd := t.flags.chrEnd, tileValid := t.flags.tileValid }
      status := t.status, errinfo := t.errinfo })
    (hs : t.StatusOk) (hc : t.ChrOk) : t.Inv := by
  rw [hf] at hs hc ⊢
  exact .of_parts h.config (h.memory.congr rfl rfl rfl) h.header hc (h.dis.congr rfl rfl rfl rfl rfl) h.prng hs
    h.disProduced

/-- A write of `DIS`'s registers and flags. -/
theorem State.Inv.updateDis (h : s.Inv)
    (hf : t = { s with
      dis := t.dis
      flags := { s.flags with
        disReady := t.flags.disReady, disEnd := t.flags.disEnd, disValid := t.flags.disValid }
      status := t.status, errinfo := t.errinfo })
    (hs : t.StatusOk) (hp : t.dis.Produced) (hd : t.DisOk) : t.Inv := by
  rw [hf] at hs hp hd ⊢
  exact .of_parts h.config (h.memory.congr rfl rfl rfl) h.header (h.chr.congr rfl rfl rfl rfl rfl) hd h.prng hs hp

/-- A write of `PRNG`'s registers and flag. -/
theorem State.Inv.updatePrng (h : s.Inv)
    (hf : t = { s with
      prng := t.prng, flags := { s.flags with prngValid := t.flags.prngValid }
      status := t.status, errinfo := t.errinfo })
    (hs : t.StatusOk) (hp : t.PrngOk) : t.Inv := by
  rw [hf] at hs hp ⊢
  exact .of_parts h.config (h.memory.congr rfl rfl rfl) h.header (h.chr.congr rfl rfl rfl rfl rfl)
    (h.dis.congr rfl rfl rfl rfl rfl) hp hs h.disProduced

/-- A write of `IBUF` or `BUF_LEN`: whatever was derived from the buffer is invalid (R29), so that only the memory's
part has to be shown. -/
theorem State.Inv.updateBuffer (h : s.Inv)
    (hf : t = { s with ibuf := t.ibuf, bufLen := t.bufLen, flags := s.flags.invalidate })
    (hm : t.MemoryOk) : t.Inv := by
  rw [hf] at hm ⊢
  exact ⟨h.config, hm, .of_dropped rfl, .of_closed rfl rfl rfl, .of_closed rfl rfl rfl, h.prng, h.noIoError,
    h.produced⟩

/-- A command that ends with its error alone (R14). -/
theorem State.Inv.raised (h : s.Inv) (c : StatusCode) (info : Word) (hc : c ≠ .invalidHeader ∧ c ≠ .ioError) :
    State.Inv { s with status := c.number, errinfo := info } :=
  h.updateUnchecked rfl (.of_code c rfl hc)

/-- A command that ends and changes no register of a unit. -/
theorem State.Inv.finished (h : s.Inv) : State.Inv { s with status := 0 } := h.updateUnchecked rfl (.of_ok rfl)

/-! ### The commands -/

/-- The header's regions end within the image (R105), and cut to 32 bits they are no larger. -/
theorem acceptHeader_inv {bs : List Byte} {g : Regions} (h : s.Inv) (hg : g.chrOff + g.chrLen ≤ s.bufLen.toNat)
    (he : acceptHeader bs g s = .next t) : t.Inv := by
  obtain rfl := acceptHeader_next.mp he
  exact .of_parts h.config (h.memory.congr rfl rfl rfl)
    (fun _ => (Nat.add_le_add (Nat.mod_le _ _) (Nat.mod_le _ _)).trans hg) (.of_closed rfl rfl rfl)
    (.of_closed rfl rfl rfl) h.prng (.of_ok rfl) ⟨h.disProduced.mode, h.disProduced.mnem⟩

theorem execHdrParse_inv (h : s.Inv) (he : execHdrParse s = .next t) : t.Inv := by
  rcases execHdrParse_next he with ⟨reason, v, hr, rfl⟩ | ⟨bs, -, -, -, hStop, hAccept⟩
  · exact .of_parts h.config (h.memory.congr rfl rfl rfl) (.of_dropped rfl) (h.chr.congr rfl rfl rfl rfl rfl)
      (h.dis.congr rfl rfl rfl rfl rfl) h.prng (.of_header rfl rfl hr) h.disProduced
  · exact acceptHeader_inv (g := headerRegions s.cfg bs) h hStop hAccept

theorem execChrRestart_inv (h : s.Inv) (he : execChrRestart s = .next t) : t.Inv := by
  rcases execChrRestart_next he with ⟨c, info, hc, rfl⟩ | ⟨hMod, hBound, rfl⟩
  · refine h.updateChr rfl (.of_code c rfl ?_) (.of_closed rfl rfl rfl)
    rcases hc with rfl | rfl <;> decide
  · have hLen := s.chr.len.isLt
    refine h.updateChr rfl (.of_ok rfl) ⟨fun _ => hBound, fun _ => ?_, fun _ => Nat.zero_le _, nofun, nofun⟩
    simp only [BitVec.toNat_ofNat]
    omega

/-- A delivered tile is the one before the moved cursor, which has not passed the count (R119). -/
theorem deliverTile_inv {b : List Byte} (h : s.Inv) (hReady : s.flags.chrReady = true)
    (hCur : s.chr.cur ≠ s.chr.count) (he : deliverTile b s = .next t) : t.Inv := by
  obtain rfl := deliverTile_next.mp he
  have hLe := h.chr.cursor hReady
  have hNe : s.chr.cur.toNat ≠ s.chr.count.toNat := fun e => hCur (BitVec.eq_of_toNat_eq e)
  have hNext : (s.chr.cur + 1).toNat = s.chr.cur.toNat + 1 := by
    bv_omega
  have hEnd : s.flags.chrEnd = false := by
    by_contra e
    exact hCur (h.chr.atEnd (by simpa using e)).2
  refine h.updateChr rfl (.of_ok rfl)
    ⟨h.chr.region, h.chr.count, fun _ => ?_, fun e => absurd e (by simp [hEnd]), fun _ => ⟨hReady, hEnd, hNext.symm⟩⟩
  show (s.chr.cur + 1).toNat ≤ s.chr.count.toNat
  omega

theorem execChrNext_inv (h : s.Inv) (he : execChrNext s = .next t) : t.Inv := by
  rcases execChrNext_next he with ⟨-, rfl⟩ | ⟨hReady, hCur, rfl⟩ | ⟨hReady, hCur, b, -, hTile⟩
  · exact h.raised .notInitialised _ (by decide)
  · exact h.updateChr rfl (.of_ok rfl)
      ⟨h.chr.region, h.chr.count, h.chr.cursor, fun _ => ⟨hReady, hCur⟩, nofun⟩
  · exact deliverTile_inv h hReady hCur hTile

theorem execDisStart_inv (h : s.Inv) (he : execDisStart s = .next t) : t.Inv := by
  rcases execDisStart_next he with ⟨-, rfl⟩ | ⟨hBound, rfl⟩
  · exact h.updateDis rfl (.of_code .regionOutOfBounds rfl (by decide)) h.disProduced (.of_closed rfl rfl rfl)
  · exact h.updateDis rfl (.of_ok rfl) ⟨h.disProduced.mode, h.disProduced.mnem⟩ ⟨fun _ => hBound, nofun, nofun⟩

/-- An entry of the opcode map within the region ends at the moved cursor, and its lengths fit their registers
(R141, R142). -/
theorem disFinish_entry_inv {op : Byte} {ob : List Byte} (h : s.Inv) (hReady : s.flags.disReady = true)
    (hEnd : s.flags.disEnd = false) (hOb : ob.length = (optable op).2.nopnd)
    (hFit : s.dis.cur.toNat + 1 + (optable op).2.nopnd ≤ s.dis.len.toNat)
    (he : disFinish (.entry { byteOffset := s.dis.cur, opcode := op, mnemonic := (optable op).1
                              mode := (optable op).2, operandBytes := ob }) s = .next t) : t.Inv := by
  obtain rfl := disFinish_entry_next.mp he
  have hTwo := Mode.nopnd_le (optable op).2
  have hLen := s.dis.len.isLt
  refine h.updateDis rfl (.of_ok rfl) (entryRegs_produced _ _)
    ⟨h.dis.region, h.dis.atEnd, fun _ => ⟨hReady, hEnd, ?_, ?_, ?_, rfl, rfl⟩⟩ <;>
  · simp only [entryRegs_off, entryRegs_elen, entryRegs_cur, entryRegs_len, entryRegs_nopnd, Entry.encodedLength,
      encodedLength, hOb, BitVec.toNat_add, BitVec.toNat_ofNat]
    omega

/-- A decode step that stops the sequence, with or without an error. -/
theorem execDisNext_stopped_inv {st : Byte} {info : Word} (h : s.Inv) (hReady : s.flags.disReady = true)
    (ht : t = { s with flags := { s.flags with disEnd := true, disValid := false }, status := st, errinfo := info })
    (hs : t.StatusOk) : t.Inv := by
  subst ht
  exact h.updateDis rfl hs h.disProduced ⟨h.dis.region, fun _ => hReady, nofun⟩

theorem execDisNext_inv (h : s.Inv) (he : execDisNext s = .next t) : t.Inv := by
  rcases execDisNext_next he with ⟨-, rfl⟩ | ⟨-, -, rfl⟩ | ⟨hReady, hEnd, d, hDecode, hFinish⟩
  · exact h.raised .notInitialised _ (by decide)
  · exact h.finished
  · rcases disDecode_ok hDecode with ⟨-, rfl⟩ | ⟨-, op, -, ⟨-, rfl⟩ | ⟨hFit, ob, hOb, rfl⟩⟩
    · obtain rfl := disFinish_stop_next.mp hFinish
      exact execDisNext_stopped_inv h hReady rfl (.of_ok rfl)
    · obtain rfl := disFinish_truncated_next.mp hFinish
      exact execDisNext_stopped_inv h hReady rfl (.of_code .truncatedInstruction rfl (by decide))
    · obtain ⟨-, hLength, -⟩ := memRead_ok.mp hOb
      exact disFinish_entry_inv h hReady hEnd hLength hFit hFinish

theorem execGgDecode_inv (h : s.Inv) (he : execGgDecode s = .next t) : t.Inv := by
  rcases execGgDecode_next he with ⟨-, -, rfl⟩ | ⟨-, ⟨n, ch, -, rfl⟩ | ⟨ns, -, rfl⟩⟩
  · exact h.raised .invalidLength _ (by decide)
  · exact h.raised .invalidCharacter _ (by decide)
  · exact h.updateUnchecked rfl (.of_ok rfl)

theorem execGgEncode_inv (h : s.Inv) (he : execGgEncode s = .next t) : t.Inv := by
  rcases execGgEncode_next he with ⟨-, rfl⟩ | ⟨-, rfl⟩
  · exact h.raised .invalidAddress _ (by decide)
  · exact h.updateUnchecked rfl (.of_ok rfl)

/-- Registers set by iterating from the seed are as many transitions from it as they count (R238, R239). -/
theorem State.PrngOk.of_prngFrom {seed n : Half} (hp : s.prng = prngFrom s.cfg seed n) : s.PrngOk := by
  intro _
  refine ⟨n.toNat, ?_, ?_⟩
  · rw [hp, prngFrom_iter]
    exact Nat.mod_eq_of_lt n.isLt
  · rw [hp, prngFrom_state, prngFrom_seed]

theorem execPrngInit_inv (h : s.Inv) (he : execPrngInit s = .next t) : t.Inv := by
  obtain rfl := execPrngInit_next.mp he
  exact h.updatePrng rfl (.of_ok rfl) (.of_prngFrom rfl)

theorem execPrngSetIt_inv (h : s.Inv) (he : execPrngSetIt s = .next t) : t.Inv := by
  rcases execPrngSetIt_next he with ⟨-, rfl⟩ | ⟨-, rfl⟩
  · exact h.raised .notInitialised _ (by decide)
  · exact h.updatePrng rfl (.of_ok rfl) (.of_prngFrom rfl)

/-- One more transition and one more count: the count wraps, the number of transitions does not (R240). -/
theorem execPrngStep_inv (h : s.Inv) (he : execPrngStep s = .next t) : t.Inv := by
  rcases execPrngStep_next he with ⟨-, rfl⟩ | ⟨hValid, rfl⟩
  · exact h.raised .notInitialised _ (by decide)
  · obtain ⟨k, hCount, hState⟩ := h.prng hValid
    refine h.updatePrng rfl (.of_ok rfl) fun _ => ⟨k + 1, ?_, ?_⟩
    · bv_omega
    · simp only [iter_succ, hState]

theorem exec_command_inv {i : Instr} (hi : i.space = .command) (h : s.Inv) (he : exec i s = .next t) : t.Inv := by
  cases i with
  | nop =>
    obtain rfl := execNop_next.mp he
    exact h.finished
  | hdrParse => exact execHdrParse_inv h he
  | chrRestart => exact execChrRestart_inv h he
  | chrNext => exact execChrNext_inv h he
  | disStart => exact execDisStart_inv h he
  | disNext => exact execDisNext_inv h he
  | ggDecode => exact execGgDecode_inv h he
  | ggEncode => exact execGgEncode_inv h he
  | prngInit => exact execPrngInit_inv h he
  | prngStep => exact execPrngStep_inv h he
  | prngSetIt => exact execPrngSetIt_inv h he
  | illegalCommand code =>
    obtain rfl := execIllegalCommand_next.mp he
    exact h.raised .illegalCommand _ (by decide)
  | _ => cases hi

/-! ### The host's accesses -/

theorem decodeCommand_space (code : Byte) : (decodeCommand code).space = .command := by
  rcases decodeCommand_cases code with h | h
  · have hAll : ∀ i ∈ ([.nop, .hdrParse, .chrRestart, .chrNext, .disStart, .disNext, .ggDecode, .ggEncode,
        .prngInit, .prngStep, .prngSetIt] : List Instr), i.space = .command := by decide
    exact hAll _ h
  · rw [h]
    rfl

theorem hostWriteBuf_inv (a : Word) (v : Byte) (h : s.Inv) : (hostWriteBuf a v s).Inv := by
  rcases Nat.lt_or_ge a.toNat s.cfg.bufSize with ha | ha
  · rw [hostWriteBuf_within ha]
    refine h.updateBuffer rfl ⟨Memory.write_wf _ v h.memory.canonical, fun c hc => ?_, h.memory.length⟩
    rcases Memory.mem_write hc with rfl | hc
    · exact ha
    · exact h.memory.inCapacity c hc
  · rw [hostWriteBuf_past ha]
    exact h

theorem clampLen_le (c : Config) (v : Word) : (clampLen c v).toNat ≤ c.bufSize :=
  (clampLen_toNat c v).trans_le (Nat.min_le_right _ _)

theorem writeReg_inv (v : Word) (q : Reg) (h : s.Inv) : (writeReg v s q).Inv := by
  cases q with
  | bufLen => exact h.updateBuffer rfl ⟨h.memory.canonical, h.memory.inCapacity, clampLen_le s.cfg v⟩
  | chrBase | chrLen =>
    exact h.updateChr rfl (h.statusOk.congr rfl rfl) (.of_closed rfl rfl rfl)
  | disBase | disLen =>
    exact h.updateDis rfl (h.statusOk.congr rfl rfl) ⟨h.disProduced.mode, h.disProduced.mnem⟩
      (.of_closed rfl rfl rfl)
  | arg0 | arg1 | ggChar | ggClen | ggAddr | ggVal | ggCmp | ggHasCmp =>
    exact h.updateUnchecked rfl (h.statusOk.congr rfl rfl)
  | _ => exact h

/-- Taking an access, noting `CMD` and recording a read touch nothing the invariant is about. -/
theorem State.Inv.recorded (h : s.Inv) (cmd : Byte) (pending : List Event) (reads : List Word) :
    State.Inv { s with cmd := cmd, pending := pending, reads := reads } :=
  h.updateUnchecked rfl (h.statusOk.congr rfl rfl)

theorem hostWrite_inv {n : Byte} {v : Word} (h : s.Inv) (he : hostWrite n v s = .next t) : t.Inv := by
  rcases hostWrite_cases n v s with ⟨-, hw⟩ | ⟨-, hw⟩ | ⟨q, -, -, hw⟩ <;> rw [hw] at he
  · cases he
    exact h
  · exact exec_command_inv (decodeCommand_space _) (h.recorded _ s.pending s.reads) he
  · cases he
    exact writeReg_inv v q h

/-- After the reset event nothing is open and no byte written (R290, R292). -/
theorem resetBlock_inv (h : s.Inv) : (resetBlock s).Inv :=
  .of_parts h.config ⟨resetBlock_wf s, nofun, Nat.zero_le _⟩ (.of_dropped rfl) (.of_closed rfl rfl rfl)
    (.of_closed rfl rfl rfl) nofun (.of_ok rfl) ⟨Nat.zero_le _, Nat.zero_le _⟩

theorem perform_inv {e : Event} (h : s.Inv) (he : perform e s = .next t) : t.Inv := by
  cases e with
  | writeBuf a v =>
    cases he
    exact hostWriteBuf_inv a v h
  | readBuf a | read n =>
    obtain ⟨v, -, rfl⟩ := recordRead_next.mp he
    exact h.recorded s.cmd s.pending _
  | write n v => exact hostWrite_inv h he
  | reset =>
    cases he
    exact resetBlock_inv h

end

/-- Settles O57: a step holds the state or performs the next access, and every access keeps the invariant. -/
theorem stepKeepsTheInvariant : Obligations.StepKeepsTheInvariant := by
  unfold Obligations.StepKeepsTheInvariant
  intro s t h hStep
  obtain ⟨-, ⟨-, rfl⟩ | ⟨e, rest, -, hPerform⟩⟩ := step_next hStep
  · exact h
  · exact perform_inv (h.recorded s.cmd rest s.reads) hPerform

end Sys2Proof.Machine
end

section
/-! O50. What a host read of the buffer answers (20_memory.md R51): one equation for each case, and the two things
of the state that it depends on. -/
namespace Sys2Proof.Machine

section
variable {a : Word} {s : State}

theorem hostReadBuf_written {v : Byte} (ha : a.toNat < s.cfg.bufSize) (hv : s.ibuf.read a.toNat = some v) :
    hostReadBuf a s = .ok (v.setWidth 32) := by
  simp [hostReadBuf, ha, hv]

theorem hostReadBuf_unwritten (ha : a.toNat < s.cfg.bufSize) (hNone : s.ibuf.read a.toNat = none) :
    hostReadBuf a s = .error (.unwrittenByte a.toNat) := by
  simp [hostReadBuf, ha, hNone]

theorem hostReadBuf_past (ha : s.cfg.bufSize ≤ a.toNat) : hostReadBuf a s = .ok 0 := if_neg (Nat.not_lt.mpr ha)

/-- A host read of the buffer depends on the capacity and on the byte at its address alone. -/
theorem hostReadBuf_congr {t : State} (hc : t.cfg = s.cfg) (hm : t.ibuf.read a.toNat = s.ibuf.read a.toNat) :
    hostReadBuf a t = hostReadBuf a s := by
  simp only [hostReadBuf, hc, hm]

theorem hostReadBuf_hostWriteBuf_same (ha : a.toNat < s.cfg.bufSize) (v : Byte) :
    hostReadBuf a (hostWriteBuf a v s) = .ok (v.setWidth 32) := by
  rw [hostWriteBuf_within ha]
  exact hostReadBuf_written ha (Memory.read_write_same s.ibuf a.toNat v)

/-- A write leaves every other byte, whether it falls within the capacity or past it. -/
theorem hostReadBuf_hostWriteBuf_other {b : Word} (hb : b ≠ a) (v : Byte) :
    hostReadBuf b (hostWriteBuf a v s) = hostReadBuf b s := by
  rcases Nat.lt_or_ge a.toNat s.cfg.bufSize with ha | ha
  · have hNe : b.toNat ≠ a.toNat := fun e => hb (BitVec.eq_of_toNat_eq e)
    rw [hostWriteBuf_within ha]
    exact hostReadBuf_congr rfl (Memory.read_write_other s.ibuf v hNe)
  · rw [hostWriteBuf_past ha]

end

/-- Settles O50: the buffer's read-after-write laws, and the read's cases past the capacity and at an unwritten
byte. -/
theorem bufferReadsBackWhatWasWritten : Obligations.BufferReadsBackWhatWasWritten := by
  unfold Obligations.BufferReadsBackWhatWasWritten
  intro s a b v
  exact ⟨fun ha => hostReadBuf_hostWriteBuf_same ha v, fun hb => hostReadBuf_hostWriteBuf_other hb v,
    fun ha => ⟨hostWriteBuf_past ha v, hostReadBuf_past ha⟩, hostReadBuf_unwritten⟩

end Sys2Proof.Machine
end

section
/-! O6 to O10. The two code spaces (30_encoding.md R70 to R80): what each decoder answers, said once, and the two
round trips with the encoder. -/
namespace Sys2Proof

/-! ### The command codes (R70, R71) -/

theorem decodeCommand_unassigned {code : Byte} (h : code ∉ commandCodes) :
    decodeCommand code = .illegalCommand code := by
  simp only [commandCodes, List.mem_cons, List.not_mem_nil, or_false, not_or] at h
  simp only [decodeCommand, h, if_false]

/-- A code stands for a well-formed command with that code: the eleven assigned ones by R70's table, any other for the
illegal command that carries it. -/
theorem decodeCommand_wellFormed_encode (code : Byte) :
    (decodeCommand code).wellFormed = true ∧ encode (decodeCommand code) = [code] := by
  by_cases h : code ∈ commandCodes
  · have hTable : ∀ c ∈ commandCodes, (decodeCommand c).wellFormed = true ∧ encode (decodeCommand c) = [c] := by
      decide
    exact hTable code h
  · rw [decodeCommand_unassigned h]
    exact ⟨by simpa [Instr.wellFormed] using h, rfl⟩

/-- A well-formed command is encoded as the one code that names it. -/
theorem encode_command {i : Instr} (hSpace : i.space = .command) (h : i.wellFormed = true) :
    ∃ code, encode i = [code] ∧ decodeCommand code = i := by
  cases i with
  | illegalCommand code =>
    have hCode : code ∉ commandCodes := by simpa [Instr.wellFormed] using h
    exact ⟨code, rfl, decodeCommand_unassigned hCode⟩
  | nop | hdrParse | chrRestart | chrNext | disStart | disNext | ggDecode | ggEncode | prngInit | prngStep
  | prngSetIt => exact ⟨_, rfl, rfl⟩
  | _ => cases hSpace

/-! ### The operand bytes (R53, R75) -/

theorem Half.high_append_low (a : Half) : (a >>> 8).setWidth 8 ++ a.setWidth 8 = a := by
  rw [BitVec.setWidth_ushiftRight_eq_extractLsb, BitVec.setWidth_eq_extractLsb' (by decide)]
  exact BitVec.extractLsb'_append_extractLsb'

theorem Half.high_of_append (hi lo : Byte) : ((hi ++ lo : Half) >>> 8).setWidth 8 = hi :=
  BitVec.setWidth_ushiftRight_eq_extractLsb.trans BitVec.extractLsb'_append_eq_left

theorem Half.low_of_append (hi lo : Byte) : (hi ++ lo : Half).setWidth 8 = lo := BitVec.setWidth_append_eq_right

/-- An operand is read back from its bytes. -/
theorem Operand.ofBytes_bytes (o : Operand) : .ofBytes o.mode (o.bytes.getD 0 0) (o.bytes.getD 1 0) = o := by
  cases o with
  | abs a | absx a | absy a | ind a => exact congrArg _ (Half.high_append_low a)
  | _ => rfl

/-- As many bytes as the mode takes are the bytes of the operand read from them. -/
theorem Operand.bytes_ofBytes {mode : Mode} {ob : List Byte} (h : ob.length = mode.nopnd) :
    (Operand.ofBytes mode (ob.getD 0 0) (ob.getD 1 0)).bytes = ob := by
  cases mode with
  | imp | acc => exact (List.length_eq_zero_iff.mp h).symm
  | abs | absx | absy | ind =>
    obtain ⟨lo, hi, rfl⟩ := List.length_eq_two.mp h
    exact congrArg₂ (fun b1 b2 => [b1, b2]) (Half.low_of_append hi lo) (Half.high_of_append hi lo)
  | _ =>
    obtain ⟨b, rfl⟩ := List.length_eq_one_iff.mp h
    rfl

/-! ### The 6502 instructions (R73, R77, R78) -/

/-- The instruction of an opcode byte and its operand bytes. -/
def Instr.ofOpcode (op : Byte) (ob : List Byte) : Instr :=
  .ofEntry op (optable op).1 (.ofBytes (optable op).2 (ob.getD 0 0) (ob.getD 1 0))

/-- With the operand bytes there, the decoder takes them and no more. -/
theorem decodeOpcode_append {op : Byte} {ob : List Byte} (h : ob.length = (optable op).2.nopnd) (rest : List Byte) :
    decodeOpcode (op :: (ob ++ rest)) = .ok (.ofOpcode op ob, rest) := by
  have hTwo := Mode.nopnd_le (optable op).2
  match ob with
  | [] | [b1] | [b1, b2] => simp [decodeOpcode, Instr.ofOpcode, ← h]
  | _ :: _ :: _ :: _ =>
    simp at h
    omega

/-- Conversely, an instruction decoded was read from an opcode byte and exactly its operand bytes. -/
theorem decodeOpcode_ok {bytes rest : List Byte} {i : Instr} (h : decodeOpcode bytes = .ok (i, rest)) :
    ∃ op ob, bytes = op :: (ob ++ rest) ∧ ob.length = (optable op).2.nopnd ∧ i = .ofOpcode op ob := by
  cases bytes with
  | nil => cases h
  | cons op tail =>
    simp only [decodeOpcode] at h
    split at h
    · next hn =>
      cases h
      exact ⟨op, [], rfl, hn.symm, rfl⟩
    · next b1 _ hn =>
      cases h
      exact ⟨op, [b1], rfl, hn.symm, rfl⟩
    · next b1 b2 _ hn =>
      cases h
      exact ⟨op, [b1, b2], rfl, hn.symm, rfl⟩
    · cases h

/-- The instruction at an opcode byte with its operand bytes is well-formed, of the opcode space, and encoded as those
bytes: the map of R79 and the tables of R156 to R212 agree. -/
theorem Instr.ofOpcode_wellFormed_encode {op : Byte} {ob : List Byte} (h : ob.length = (optable op).2.nopnd) :
    (Instr.ofOpcode op ob).wellFormed = true ∧ (Instr.ofOpcode op ob).space = .opcode
      ∧ encode (.ofOpcode op ob) = op :: ob := by
  by_cases hIllegal : (optable op).1 = .illegal
  · have hMap := (optable_mnemonic_illegal op).mp hIllegal
    have hListed := (optable_illegal op).mpr hMap
    obtain rfl : ob = [] := List.length_eq_zero_iff.mp (by rw [h, hMap]; rfl)
    rw [Instr.ofOpcode, hIllegal]
    exact ⟨hListed, rfl, rfl⟩
  · have hOp := opcodeOf_optable op hIllegal
    obtain ⟨-, -, hSpace, hWf, hEncode⟩ := Instr.ofEntry_of_entry? op (Instr.entry?_ofEntry op
      (.ofBytes (optable op).2 (ob.getD 0 0) (ob.getD 1 0)) hIllegal)
    refine ⟨?_, hSpace, ?_⟩
    · rw [Instr.ofOpcode, hWf, admits_iff, Operand.ofBytes_mode, hOp]
      rfl
    · rw [Instr.ofOpcode, hEncode, encodeEntry_of_opcode (by rw [Operand.ofBytes_mode, hOp]), Operand.bytes_ofBytes h]

/-- A well-formed 6502 instruction is encoded as an opcode byte that gives it back and that byte's operand bytes. -/
theorem encode_opcode {i : Instr} (hSpace : i.space = .opcode) (h : i.wellFormed = true) :
    ∃ op ob, encode i = op :: ob ∧ ob.length = (optable op).2.nopnd ∧ Instr.ofOpcode op ob = i := by
  cases hEntry : i.entry? with
  | some entry =>
    obtain ⟨m, o⟩ := entry
    obtain ⟨-, -, -, hWf, hEncode⟩ := Instr.ofEntry_of_entry? 0 hEntry
    obtain ⟨op, hOp⟩ := Option.isSome_iff_exists.mp ((admits_iff m o).mp (hWf ▸ h))
    have hMap := optable_of_opcodeOf hOp
    refine ⟨op, o.bytes, hEncode.trans (encodeEntry_of_opcode hOp), by rw [hMap, Operand.bytes_length], ?_⟩
    rw [Instr.ofOpcode, hMap, Operand.ofBytes_bytes]
    exact (Instr.ofEntry_of_entry? op hEntry).1
  | none =>
    cases i with
    | opIllegal op =>
      have hMap := (optable_illegal op).mp h
      exact ⟨op, [], rfl, by rw [hMap]; rfl, by rw [Instr.ofOpcode, hMap]; rfl⟩
    | nop | hdrParse | chrRestart | chrNext | disStart | disNext | ggDecode | ggEncode | prngInit | prngStep
    | prngSetIt | illegalCommand => cases hSpace
    | _ => cases hEntry

/-- The legal mnemonics are numbered below the illegal marker (R76). -/
theorem mnemonicNumber_lt {m : Mnemonic} (h : m ≠ .illegal) : (Machine.mnemonicNumber m).toNat < 56 := by
  revert h
  cases m <;> decide

/-! ### The obligations -/

/-- Settles O6: a command's encoding is its code, a 6502 instruction's is an opcode byte and as many operand bytes as
the decoder takes. -/
theorem decodeOfEncodeGivesTheInstruction : Obligations.DecodeOfEncodeGivesTheInstruction := by
  unfold Obligations.DecodeOfEncodeGivesTheInstruction
  intro i rest h
  cases hSpace : i.space with
  | command =>
    obtain ⟨code, hEncode, hDecode⟩ := encode_command hSpace h
    simp [decode, hEncode, hDecode]
  | opcode =>
    obtain ⟨op, ob, hEncode, hLength, hOf⟩ := encode_opcode hSpace h
    rw [hEncode, ← hOf]
    exact decodeOpcode_append hLength rest

/-- Settles O7: the bytes read are a code, or an opcode byte and its operand bytes, and the instruction found keeps
them. -/
theorem decodedInstructionEncodesToItsBytes : Obligations.DecodedInstructionEncodesToItsBytes := by
  unfold Obligations.DecodedInstructionEncodesToItsBytes
  intro sp bytes rest i h
  cases sp with
  | command =>
    cases bytes with
    | nil => cases h
    | cons code tail =>
      cases h
      obtain ⟨hWf, hEncode⟩ := decodeCommand_wellFormed_encode code
      exact ⟨hWf, Machine.decodeCommand_space code, by rw [hEncode]; rfl⟩
  | opcode =>
    obtain ⟨op, ob, rfl, hLength, rfl⟩ := decodeOpcode_ok h
    obtain ⟨hWf, hSpace, hEncode⟩ := Instr.ofOpcode_wellFormed_encode hLength
    exact ⟨hWf, hSpace, by rw [hEncode]; rfl⟩

/-- Settles O8: no opcode takes more than the two bytes that follow (R73). -/
theorem everyByteStartsAnInstruction : Obligations.EveryByteStartsAnInstruction := by
  unfold Obligations.EveryByteStartsAnInstruction
  intro sp b0 b1 b2 rest
  cases sp with
  | command => exact ⟨decodeCommand b0, b1 :: b2 :: rest, rfl, Nat.le_refl _, fun _ => rfl⟩
  | opcode =>
    have hTwo := Mode.nopnd_le (optable b0).2
    have hLength : ((b1 :: b2 :: rest).take (optable b0).2.nopnd).length = (optable b0).2.nopnd :=
      List.length_take_of_le (hTwo.trans (Nat.le_add_left 2 rest.length))
    have hDecode := decodeOpcode_append hLength ((b1 :: b2 :: rest).drop (optable b0).2.nopnd)
    rw [List.take_append_drop] at hDecode
    exact ⟨_, _, hDecode, List.length_drop.trans_le (Nat.sub_le _ _), nofun⟩

/-- Settles O9, by running the decoder on each word. -/
theorem wordsOfEachFamilyDecode : Obligations.WordsOfEachFamilyDecode := by
  unfold Obligations.WordsOfEachFamilyDecode
  exact ⟨rfl, rfl, rfl, rfl, rfl, rfl, rfl⟩

/-- Settles O10: the listed bytes are those the map marks illegal, and every other byte has a legal mnemonic. -/
theorem illegalOpcodeBytesAreTheListed : Obligations.IllegalOpcodeBytesAreTheListed := by
  unfold Obligations.IllegalOpcodeBytesAreTheListed
  refine ⟨rfl, by decide, fun op => ⟨fun h => ?_, fun h => mnemonicNumber_lt fun hIllegal => h ?_⟩⟩
  · have hMap := (optable_illegal op).mp (List.contains_iff_mem.mpr h)
    rw [hMap]
    exact ⟨rfl, rfl, rfl, rfl⟩
  · exact List.contains_iff_mem.mp ((optable_illegal op).mpr ((optable_mnemonic_illegal op).mp hIllegal))

end Sys2Proof
end

section
/-! O14 to O16. What a header parse decides (40_header.md R102 to R107): one equation for each way `HDR_PARSE` ends,
in the order of R270; the statements of acceptance and of rejection are read off them, and that of the second parse
is that the decision depends on the buffer and the parameters alone. -/
namespace Sys2Proof.Machine

/-! ### The signature (R101) -/

/-- The signature check reports the lowest index at which the bytes differ. -/
theorem firstMismatch_of_lowest {hs gs : List Byte} {k : Nat} (n : Nat) (hk : k < hs.length) (hg : k < gs.length)
    (hNe : hs[k]? ≠ gs[k]?) (hBelow : ∀ j, j < k → hs[j]? = gs[j]?) : firstMismatch n hs gs = some (n + k) := by
  induction hs generalizing gs k n with
  | nil => simp at hk
  | cons h hs ih =>
    cases gs with
    | nil => simp at hg
    | cons g gs =>
      cases k with
      | zero => simp_all [firstMismatch]
      | succ k =>
        have hHead : h = g := by simpa using hBelow 0 (Nat.succ_pos k)
        rw [firstMismatch, if_pos hHead, ih (n + 1) (Nat.lt_of_succ_lt_succ hk) (Nat.lt_of_succ_lt_succ hg) hNe
          fun j hj => hBelow (j + 1) (Nat.succ_lt_succ hj)]
        congr 1
        omega

/-- A header of eight bytes that begins with the signature. -/
def signedHeader (h4 h5 h6 h7 : Byte) : List Byte := [0x4E, 0x45, 0x53, 0x1A, h4, h5, h6, h7]

theorem firstMismatch_signedHeader (h4 h5 h6 h7 : Byte) :
    firstMismatch 0 (signedHeader h4 h5 h6 h7) signature = none := rfl

/-! ### The fields (R102, R103, R267) -/

theorem headerTrainer_eq_ofBool (h : List Byte) : headerTrainer h = BitVec.ofBool ((headerByte h 6).getLsbD 2) := by
  ext i hi
  obtain rfl : i = 0 := by omega
  simp [headerTrainer]

theorem headerTrainer_size (h : List Byte) :
    512 * (headerTrainer h).toNat = if (headerByte h 6).getLsbD 2 = true then 512 else 0 := by
  rw [headerTrainer_eq_ofBool]
  cases (headerByte h 6).getLsbD 2 <;> rfl

/-- The regions of R103, with the trainer's size read off byte 6. -/
theorem headerRegions_signedHeader {c : Config} {h4 h5 h6 h7 : Byte} {prgOff prgLen chrOff chrLen : Nat}
    (hPrgOff : prgOff = 16 + (if h6.getLsbD 2 = true then 512 else 0)) (hPrgLen : prgLen = h4.toNat * c.prgBankUnit)
    (hChrOff : chrOff = prgOff + prgLen) (hChrLen : chrLen = h5.toNat * c.chrBankUnit) :
    headerRegions c (signedHeader h4 h5 h6 h7) = ⟨prgOff, prgLen, chrOff, chrLen, chrOff + chrLen⟩ := by
  subst hChrOff hPrgOff hPrgLen hChrLen
  rw [headerRegions, headerTrainer_size]
  rfl

/-- The reason stands above the 30 bits of the value. -/
theorem headerInfo_toNat (reason : BitVec 2) (v : Nat) :
    (headerInfo reason v).toNat = 2 ^ 30 * reason.toNat + v % 2 ^ 30 := by
  rw [headerInfo, BitVec.toNat_append, BitVec.toNat_ofNat,
    ← Nat.shiftLeft_add_eq_or_of_lt (Nat.mod_lt v (Nat.two_pow_pos 30)), Nat.shiftLeft_eq, Nat.mul_comm]

theorem headerInfo_eq (reason : BitVec 2) (v : Nat) :
    headerInfo reason v = BitVec.ofNat 32 (2 ^ 30 * reason.toNat) + BitVec.ofNat 32 (v % 2 ^ 30) := by
  apply BitVec.eq_of_toNat_eq
  have hReason := reason.isLt
  rw [headerInfo_toNat, BitVec.toNat_add, BitVec.toNat_ofNat, BitVec.toNat_ofNat]
  omega

section
variable {s t : State} {h : List Byte}

/-! ### The ways a parse ends, in the order of R270 -/

theorem memRead_of_holdsBytes {a : Nat} (hHolds : s.holdsBytes a h) (hBound : a + h.length ≤ s.bufLen.toNat) :
    memRead a h.length s = .ok h := memRead_ok.mpr ⟨hBound, rfl, hHolds⟩

theorem execHdrParse_of_short (hShort : s.bufLen.toNat < 16) :
    execHdrParse s = rejectHeader 0b00 s.bufLen.toNat s := if_pos hShort

theorem execHdrParse_of_read (hLong : 16 ≤ s.bufLen.toNat) (hRead : memRead 0 8 s = .ok h) :
    execHdrParse s = parseHeader h s :=
  (if_neg (Nat.not_lt.mpr hLong)).trans (withBytes_of_ok hRead)

theorem execHdrParse_of_holdsBytes (hLong : 16 ≤ s.bufLen.toNat) (hLength : h.length = 8)
    (hHolds : s.holdsBytes 0 h) : execHdrParse s = parseHeader h s :=
  execHdrParse_of_read hLong (hLength ▸ memRead_of_holdsBytes hHolds (by omega))

theorem parseHeader_of_mismatch {i : Nat} (hMismatch : firstMismatch 0 h signature = some i) :
    parseHeader h s = rejectHeader 0b01 i s := by
  simp only [parseHeader, hMismatch]

theorem parseHeader_of_past (hSigned : firstMismatch 0 h signature = none)
    (hPast : s.bufLen.toNat < (headerRegions s.cfg h).stop) :
    parseHeader h s = rejectHeader 0b10 (headerRegions s.cfg h).stop s := by
  simp only [parseHeader, hSigned, if_neg (Nat.not_le.mpr hPast)]

theorem parseHeader_of_within (hSigned : firstMismatch 0 h signature = none)
    (hWithin : (headerRegions s.cfg h).stop ≤ s.bufLen.toNat) :
    parseHeader h s = acceptHeader h (headerRegions s.cfg h) s := by
  simp only [parseHeader, hSigned, if_pos hWithin]

/-! ### The second parse (R107) -/

/-- What a parse has decided once it ends: a rejection or an acceptance. -/
inductive HeaderEnding : (State → Result) → Prop
  | rejected (reason : BitVec 2) (v : Nat) : HeaderEnding (rejectHeader reason v)
  | accepted (h : List Byte) (g : Regions) : HeaderEnding (acceptHeader h g)

/-- Run on its own result, an ending writes the same values again: what was closed stays closed. -/
theorem HeaderEnding.again {k : State → Result} (hk : HeaderEnding k) (hEnd : k s = .next t) : k t = .next t := by
  cases hk with
  | rejected reason v =>
    obtain rfl := rejectHeader_next.mp hEnd
    rfl
  | accepted h g =>
    obtain rfl := acceptHeader_next.mp hEnd
    rfl

theorem KeepsHostSide.memRead_eq (hKeeps : KeepsHostSide s t) (a n : Nat) : memRead a n t = memRead a n s := by
  simp only [memRead, hKeeps.ibuf, hKeeps.bufLen]

/-- A parse of eight bytes decides by the bytes, the parameters and `BUF_LEN` alone. -/
theorem parseHeader_ending (h : List Byte) (s : State) :
    ∃ k, HeaderEnding k ∧ ∀ u, KeepsHostSide s u → parseHeader h u = k u := by
  cases hSigned : firstMismatch 0 h signature with
  | some i => exact ⟨_, .rejected _ _, fun u _ => parseHeader_of_mismatch hSigned⟩
  | none =>
    rcases Nat.lt_or_ge s.bufLen.toNat (headerRegions s.cfg h).stop with hPast | hWithin
    · refine ⟨_, .rejected 0b10 (headerRegions s.cfg h).stop, fun u hu => ?_⟩
      rw [← hu.bufLen, ← hu.cfg] at hPast
      rw [parseHeader_of_past hSigned hPast, hu.cfg]
    · refine ⟨_, .accepted h (headerRegions s.cfg h), fun u hu => ?_⟩
      rw [← hu.bufLen, ← hu.cfg] at hWithin
      rw [parseHeader_of_within hSigned hWithin, hu.cfg]

/-- A parse that ends has decided by `BUF_LEN`, `IBUF` and the parameters alone: from any state with the same, it ends
the same way. -/
theorem execHdrParse_ending (hEnd : execHdrParse s = .next t) :
    ∃ k, HeaderEnding k ∧ ∀ u, KeepsHostSide s u → execHdrParse u = k u := by
  rcases Nat.lt_or_ge s.bufLen.toNat 16 with hShort | hLong
  · refine ⟨_, .rejected 0b00 s.bufLen.toNat, fun u hu => ?_⟩
    rw [← hu.bufLen] at hShort
    rw [execHdrParse_of_short hShort, hu.bufLen]
  · cases hRead : memRead 0 8 s with
    | error f => simp [execHdrParse, Nat.not_lt.mpr hLong, withBytes_of_error hRead] at hEnd
    | ok h =>
      obtain ⟨k, hk, hParse⟩ := parseHeader_ending h s
      refine ⟨k, hk, fun u hu => ?_⟩
      rw [execHdrParse_of_read (hu.bufLen ▸ hLong) ((hu.memRead_eq 0 8).trans hRead), hParse u hu]

end

/-! ### The statements -/

/-- Settles O14: the eight bytes carry the signature and regions within the image, so that the parse accepts them. -/
theorem hdrParseAcceptsAndLoadsTheRegions : Obligations.HdrParseAcceptsAndLoadsTheRegions := by
  unfold Obligations.HdrParseAcceptsAndLoadsTheRegions
  intro s h4 h5 h6 h7 prgOff prgLen chrOff chrLen hHolds hPrgOff hPrgLen hChrOff hChrLen hEnd
  have hRegions : headerRegions s.cfg (signedHeader h4 h5 h6 h7)
      = ⟨prgOff, prgLen, chrOff, chrLen, chrOff + chrLen⟩ :=
    headerRegions_signedHeader hPrgOff hPrgLen hChrOff hChrLen
  have hLong : 16 ≤ s.bufLen.toNat := by omega
  calc execHdrParse s
      = parseHeader (signedHeader h4 h5 h6 h7) s :=
        execHdrParse_of_holdsBytes hLong rfl hHolds
    _ = acceptHeader (signedHeader h4 h5 h6 h7) ⟨prgOff, prgLen, chrOff, chrLen, chrOff + chrLen⟩ s := by
        rw [parseHeader_of_within (firstMismatch_signedHeader ..) (by rwa [hRegions]), hRegions]
    _ = _ := by
        rw [acceptHeader, headerRegs, headerTrainer_eq_ofBool]
        rfl

/-- Settles O15: the three rejections of R270, each with the word of its reason. -/
theorem hdrParseRejectsInOrder : Obligations.HdrParseRejectsInOrder := by
  unfold Obligations.HdrParseRejectsInOrder
  intro s
  refine ⟨fun hShort => ?_, fun h i hLong hLength hHolds hi hNe hBelow => ?_,
    fun h4 h5 h6 h7 stop hLong hHolds hStop hPast => ?_⟩
  · have hInfo : headerInfo 0b00 s.bufLen.toNat = s.bufLen := by
      rw [headerInfo_eq, Nat.mod_eq_of_lt (by omega)]
      simp
    exact (execHdrParse_of_short hShort).trans (rejectHeader_next.mpr (by rw [hInfo]; rfl))
  · have hMismatch : firstMismatch 0 h signature = some i := by
      simpa using firstMismatch_of_lowest 0 (hLength ▸ hi.trans (by decide)) hi hNe hBelow
    have hInfo : headerInfo 0b01 i = 0x40000000 + BitVec.ofNat 32 i := by
      rw [headerInfo_eq, Nat.mod_eq_of_lt (by omega)]
      rfl
    calc execHdrParse s
        = parseHeader h s := execHdrParse_of_holdsBytes hLong hLength hHolds
      _ = rejectHeader 0b01 i s := parseHeader_of_mismatch hMismatch
      _ = _ := rejectHeader_next.mpr (by rw [hInfo]; rfl)
  · have hRegions : (headerRegions s.cfg (signedHeader h4 h5 h6 h7)).stop = stop := by
      rw [headerRegions_signedHeader rfl rfl rfl rfl, hStop]
    have hInfo : headerInfo 0b10 stop = 0x80000000 + BitVec.ofNat 32 (stop % 2 ^ 30) := headerInfo_eq ..
    calc execHdrParse s
        = parseHeader (signedHeader h4 h5 h6 h7) s :=
          execHdrParse_of_holdsBytes hLong rfl hHolds
      _ = rejectHeader 0b10 stop s := by
          rw [parseHeader_of_past (firstMismatch_signedHeader ..) (by rwa [hRegions]), hRegions]
      _ = _ := rejectHeader_next.mpr (by rw [hInfo]; rfl)

/-- Settles O16: the first parse keeps what the decision depends on, so that the second ends the same way, and that
ending changes nothing more. -/
theorem hdrParseTwiceLeavesTheSameState : Obligations.HdrParseTwiceLeavesTheSameState := by
  unfold Obligations.HdrParseTwiceLeavesTheSameState
  intro s t hEnd
  obtain ⟨k, hk, hSame⟩ := execHdrParse_ending hEnd
  have hFirst : k s = .next t := (hSame s (.of_units ..)).symm.trans hEnd
  exact (hSame t (execHdrParse_keepsHostSide hEnd)).trans (hk.again hFirst)

end Sys2Proof.Machine
end

section
/-! O17 to O21. The tile sequence and its image (41_chr.md). One equation for each way `CHR_RESTART` and `CHR_NEXT`
end; then `State.afterTiles`, the state a sequence has reached after so many tiles, which `CHR_NEXT` moves on by one:
the order of the tiles, the same order after a restart, and the engine's procedure are inductions over it. -/
namespace Sys2Proof.Machine

/-! ### The bits of a row register (R116, R117) -/

/-- Pixel `c` stands in bits `[2c+1:2c]`. -/
theorem extractLsb'_packRow (p : Nat → BitVec 2) {c : Nat} (hc : c < 8) : (packRow p).extractLsb' (2 * c) 2 = p c := by
  ext i hi
  simp only [packRow, BitVec.getElem_extractLsb', BitVec.getLsbD_append]
  interval_cases c <;> interval_cases i <;> simp

theorem get_tileRows (b : List Byte) (r : Fin 8) : (tileRows b).get r = packRow (chrTile b r.val) :=
  Bank8.get_ofFn _ r

section
variable {s t : State}

/-! ### The ways the two commands end -/

theorem execChrRestart_of_uneven (hUneven : s.chr.len.toNat % 16 ≠ 0) :
    execChrRestart s = rejectRegion .truncatedChrData s.chr.len s := if_pos hUneven

theorem execChrRestart_of_past (hEven : s.chr.len.toNat % 16 = 0)
    (hPast : s.bufLen.toNat < s.chr.base.toNat + s.chr.len.toNat) :
    execChrRestart s = rejectRegion .regionOutOfBounds (s.chr.base + s.chr.len) s := by
  rw [execChrRestart, if_neg (not_not_intro hEven), if_pos (inBuffer_false.mpr hPast)]

theorem execChrNext_of_closed (hClosed : s.flags.chrReady = false) :
    execChrNext s = .next { s with status := 9, errinfo := 0x11 } := if_pos hClosed

theorem execChrNext_of_end (hReady : s.flags.chrReady = true) (hEnd : s.chr.cur = s.chr.count) :
    execChrNext s = .next { s with status := 0, flags := { s.flags with chrEnd := true, tileValid := false } } := by
  rw [execChrNext, if_neg (by simp [hReady]), if_pos hEnd]
  rfl

/-- Short of the end, the bytes at the cursor are delivered as a tile. -/
theorem execChrNext_of_holdsBytes {b : List Byte} (hReady : s.flags.chrReady = true) (hCur : s.chr.cur ≠ s.chr.count)
    (hLength : b.length = 16) (hWithin : s.chr.base.toNat + 16 * s.chr.cur.toNat + 16 ≤ s.bufLen.toNat)
    (hHolds : s.holdsBytes (s.chr.base.toNat + 16 * s.chr.cur.toNat) b) :
    execChrNext s = .next { s with
      status := 0
      chr := { s.chr with row := tileRows b, tileIdx := s.chr.cur, cur := s.chr.cur + 1 }
      flags := { s.flags with tileValid := true } } := by
  have hRead := memRead_of_holdsBytes hHolds (by omega)
  rw [hLength] at hRead
  rw [execChrNext, if_neg (by simp [hReady]), if_neg hCur, withBytes_of_ok hRead]
  rfl

/-! ### The bytes of a region -/

/-- The `n` bytes of `IBUF` from `a`, where they are written. -/
def State.bytesFrom (s : State) (a n : Nat) : List Byte :=
  (List.range n).map fun i => (s.ibuf.read (a + i)).getD 0

@[simp] theorem State.length_bytesFrom (s : State) (a n : Nat) : (s.bytesFrom a n).length = n := by
  simp [State.bytesFrom]

theorem State.holdsBytes_bytesFrom {a n : Nat} (hWritten : s.written a n) : s.holdsBytes a (s.bytesFrom a n) := by
  intro i hi
  rw [State.length_bytesFrom] at hi
  obtain ⟨v, hv⟩ := Option.isSome_iff_exists.mp (hWritten i hi)
  simp [State.bytesFrom, hi, hv]

/-- Two lists of bytes of one length that stand at the same place are the same. -/
theorem State.holdsBytes_unique {a : Nat} {b c : List Byte} (hLength : b.length = c.length) (hb : s.holdsBytes a b)
    (hc : s.holdsBytes a c) : b = c := by
  refine List.ext_getElem? fun i => ?_
  rcases Nat.lt_or_ge i b.length with hi | hi
  · rw [← hb i hi, hc i (hLength ▸ hi)]
  · rw [List.getElem?_eq_none hi, List.getElem?_eq_none (hLength ▸ hi)]

/-- The region of `CHR` is a written one within the image, of whole tiles. -/
structure State.TilesWritten (s : State) : Prop where
  even : s.chr.len.toNat % 16 = 0
  within : s.chr.base.toNat + s.chr.len.toNat ≤ s.bufLen.toNat
  written : s.written s.chr.base.toNat s.chr.len.toNat

/-- The number of tiles of the region. -/
def State.tileCount (s : State) : Nat := s.chr.len.toNat / 16

/-- The bytes of tile `k` of the region. -/
def State.tileBytes (s : State) (k : Nat) : List Byte := s.bytesFrom (s.chr.base.toNat + 16 * k) 16

theorem State.tileCount_lt (s : State) : s.tileCount < 2 ^ 32 :=
  (Nat.div_le_self _ _).trans_lt s.chr.len.isLt

theorem State.TilesWritten.holdsBytes_tileBytes (h : s.TilesWritten) {k : Nat} (hk : k < s.tileCount) :
    s.holdsBytes (s.chr.base.toNat + 16 * k) (s.tileBytes k) := by
  refine State.holdsBytes_bytesFrom fun i hi => ?_
  have hi : 16 * k + i < s.chr.len.toNat := by
    rw [State.tileCount] at hk
    omega
  rw [Nat.add_assoc]
  exact h.written _ hi

/-! ### The sequence -/

/-- The state after a restart and `k` tiles. -/
def State.afterTiles (s : State) : Nat → State
  | 0 => { s with
      status := 0
      chr := { s.chr with cur := 0, count := BitVec.ofNat 32 s.tileCount }
      flags := { s.flags with chrReady := true, chrEnd := false, tileValid := false } }
  | k + 1 => { s with
      status := 0
      chr := { s.chr with
        cur := BitVec.ofNat 32 (k + 1), count := BitVec.ofNat 32 s.tileCount
        tileIdx := BitVec.ofNat 32 k, row := tileRows (s.tileBytes k) }
      flags := { s.flags with chrReady := true, chrEnd := false, tileValid := true } }

/-- The state after a restart, every tile and one `CHR_NEXT` more. -/
def State.tilesEnded (s : State) : State :=
  let t := s.afterTiles s.tileCount
  { t with flags := { t.flags with chrEnd := true, tileValid := false } }

section
variable (s : State) (k : Nat)

@[simp] theorem State.afterTiles_status : (s.afterTiles k).status = 0 := by cases k <;> rfl
@[simp] theorem State.afterTiles_ibuf : (s.afterTiles k).ibuf = s.ibuf := by cases k <;> rfl
@[simp] theorem State.afterTiles_bufLen : (s.afterTiles k).bufLen = s.bufLen := by cases k <;> rfl
@[simp] theorem State.afterTiles_cfg : (s.afterTiles k).cfg = s.cfg := by cases k <;> rfl
@[simp] theorem State.afterTiles_base : (s.afterTiles k).chr.base = s.chr.base := by cases k <;> rfl
@[simp] theorem State.afterTiles_cur : (s.afterTiles k).chr.cur = BitVec.ofNat 32 k := by cases k <;> rfl
@[simp] theorem State.afterTiles_count : (s.afterTiles k).chr.count = BitVec.ofNat 32 s.tileCount := by
  cases k <;> rfl
@[simp] theorem State.afterTiles_chrReady : (s.afterTiles k).flags.chrReady = true := by cases k <;> rfl
@[simp] theorem State.afterTiles_chrEnd : (s.afterTiles k).flags.chrEnd = false := by cases k <;> rfl

/-- The value in `CMD` is no part of the sequence. -/
theorem State.afterTiles_withCmd (c : Byte) :
    { s.afterTiles k with cmd := c } = State.afterTiles { s with cmd := c } k := by
  cases k <;> rfl

end

theorem execChrRestart_of_within (hEven : s.chr.len.toNat % 16 = 0)
    (hWithin : s.chr.base.toNat + s.chr.len.toNat ≤ s.bufLen.toNat) :
    execChrRestart s = .next (s.afterTiles 0) := by
  rw [execChrRestart, if_neg (not_not_intro hEven), if_neg (by simp [inBuffer_true.mpr hWithin])]
  rfl

/-- `CHR_NEXT` moves the sequence on by one tile. -/
theorem State.TilesWritten.execChrNext_afterTiles (h : s.TilesWritten) {k : Nat} (hk : k < s.tileCount) :
    execChrNext (s.afterTiles k) = .next (s.afterTiles (k + 1)) := by
  have hCount := s.tileCount_lt
  have hCur : (BitVec.ofNat 32 k).toNat = k := Nat.mod_eq_of_lt (by omega)
  have hNe : BitVec.ofNat 32 k ≠ BitVec.ofNat 32 s.tileCount := by
    intro hEq
    have hToNat := congrArg BitVec.toNat hEq
    rw [hCur, BitVec.toNat_ofNat, Nat.mod_eq_of_lt hCount] at hToNat
    omega
  have hWithin : s.chr.base.toNat + 16 * k + 16 ≤ s.bufLen.toNat := by
    have hBound := h.within
    rw [State.tileCount] at hk
    omega
  have hHolds : (s.afterTiles k).holdsBytes (s.chr.base.toNat + 16 * k) (s.tileBytes k) := by
    simpa [State.holdsBytes] using h.holdsBytes_tileBytes hk
  rw [execChrNext_of_holdsBytes (s := s.afterTiles k) (b := s.tileBytes k) (by simp) (by simpa using hNe)
    (State.length_bytesFrom ..) (by simpa [hCur] using hWithin) (by simpa [hCur] using hHolds)]
  cases k <;> simp [State.afterTiles, BitVec.ofNat_add]

/-- After the last tile `CHR_NEXT` ends the sequence. -/
theorem execChrNext_afterTiles_tileCount (s : State) :
    execChrNext (s.afterTiles s.tileCount) = .next s.tilesEnded := by
  rw [execChrNext_of_end (by simp) (by simp)]
  cases hs : s.tileCount <;> simp [State.tilesEnded, State.afterTiles, hs]

/-! ### Runs of commands -/

theorem runCommands_cons {i : Instr} {is : List Instr} (h : exec i s = .next t) :
    runCommands (i :: is) s = runCommands is t := by
  simp [runCommands, h]

theorem runCommands_append {is js : List Instr} (h : runCommands is s = .next t) :
    runCommands (is ++ js) s = runCommands js t := by
  induction is generalizing s with
  | nil =>
    obtain rfl : s = t := by simpa [runCommands] using h
    rfl
  | cons i is ih =>
    cases hi : exec i s with
    | next u =>
      rw [runCommands_cons hi] at h
      rw [List.cons_append, runCommands_cons hi, ih h]
    | fault f => simp [runCommands, hi] at h
    | refused r => simp [runCommands, hi] at h

/-- A restart and `k` times `CHR_NEXT` reach the state after `k` tiles. -/
theorem State.TilesWritten.runCommands_chrNext (h : s.TilesWritten) {k : Nat} (hk : k ≤ s.tileCount) :
    runCommands (.chrRestart :: List.replicate k .chrNext) s = .next (s.afterTiles k) := by
  induction k with
  | zero => exact runCommands_cons (execChrRestart_of_within h.even h.within)
  | succ k ih =>
    rw [List.replicate_succ', ← List.cons_append, runCommands_append (ih (by omega))]
    exact runCommands_cons (h.execChrNext_afterTiles hk)

/-- One `CHR_NEXT` more than there are tiles ends the sequence. -/
theorem State.TilesWritten.runCommands_toTheEnd (h : s.TilesWritten) :
    runCommands (.chrRestart :: List.replicate (s.tileCount + 1) .chrNext) s = .next s.tilesEnded := by
  rw [List.replicate_succ', ← List.cons_append, runCommands_append (h.runCommands_chrNext (Nat.le_refl _))]
  exact runCommands_cons (execChrNext_afterTiles_tileCount s)

/-! ### The engine's procedure (R122) -/

/-- A command of a procedure runs at the state whose `CMD` holds its code. -/
theorem runCommand_ok {code : Byte} (h : exec (decodeCommand code) { s with cmd := code } = .next t) :
    runCommand code s = .ok t := by
  have hCode : (code.setWidth 32 : Word).setWidth 8 = code := by simp
  rw [runCommand, hostWrite_cmd, commandCycle, hCode, h]
  rfl

theorem getReg_chrRow (hValid : s.flags.tileValid = true) (r : Fin 8) :
    getReg (.chrRow r) s = .ok ((s.chr.row.get r).setWidth 32) := by
  rw [getReg, hostRead_readable (q := .chrRow r) rfl hValid]
  rfl

/-- The host reads a delivered tile out unchanged. -/
theorem readTile_ok (hValid : s.flags.tileValid = true) : readTile s = .ok s.chr.row := by
  have hRow (x : Half) : (x.setWidth 32 : Word).setWidth 16 = x := by simp
  simp only [readTile, getReg_chrRow hValid, bind, Except.bind, pure, Except.pure, hRow]
  rfl

/-- The `n` tiles of the region from tile `k` on, as the host reads them. -/
def State.tilesFrom (s : State) (k n : Nat) : List Tile := (List.range' k n).map fun j => tileRows (s.tileBytes j)

/-- What the loop of the procedure does with a tile: it collects the tile and goes on. -/
theorem State.TilesWritten.collectTiles_tile (h : s.TilesWritten) {k : Nat} (hk : k < s.tileCount) (fuel : Nat)
    (tiles : List Tile) :
    collectTiles (fuel + 1) tiles (s.afterTiles k) =
      collectTiles fuel (tiles ++ [tileRows (s.tileBytes k)]) (State.afterTiles { s with cmd := 0x11 } (k + 1)) := by
  have hWritten : State.TilesWritten { s with cmd := 0x11 } := ⟨h.even, h.within, h.written⟩
  have hRun : runCommand 0x11 (s.afterTiles k) = .ok (State.afterTiles { s with cmd := 0x11 } (k + 1)) :=
    runCommand_ok (by rw [State.afterTiles_withCmd]; exact hWritten.execChrNext_afterTiles hk)
  have hRead := readTile_ok (s := State.afterTiles { s with cmd := 0x11 } (k + 1)) rfl
  rw [collectTiles, hRun]
  simp only [bind, Except.bind, hRead]
  rfl

theorem collectTiles_end (s : State) (fuel : Nat) (tiles : List Tile) :
    collectTiles (fuel + 1) tiles (s.afterTiles s.tileCount) =
      .ok (tiles, State.tilesEnded { s with cmd := 0x11 }) := by
  have hRun : runCommand 0x11 (s.afterTiles s.tileCount) = .ok (State.tilesEnded { s with cmd := 0x11 }) :=
    runCommand_ok (by rw [State.afterTiles_withCmd]; exact execChrNext_afterTiles_tileCount _)
  rw [collectTiles, hRun]
  rfl

/-- From the state after `k` tiles the loop collects the `n` that are left. -/
theorem State.TilesWritten.collectTiles_afterTiles (h : s.TilesWritten) {k n : Nat} (hn : k + n = s.tileCount)
    (tiles : List Tile) :
    collectTiles (n + 1) tiles (s.afterTiles k) =
      .ok (tiles ++ s.tilesFrom k n, State.tilesEnded { s with cmd := 0x11 }) := by
  induction n generalizing s k tiles with
  | zero =>
    obtain rfl : k = s.tileCount := hn
    rw [collectTiles_end, State.tilesFrom, List.range'_zero, List.map_nil, List.append_nil]
  | succ n ih =>
    have hWritten : State.TilesWritten { s with cmd := 0x11 } := ⟨h.even, h.within, h.written⟩
    rw [h.collectTiles_tile (by omega), ih hWritten (by rw [Nat.add_right_comm]; exact hn), List.append_assoc]
    rfl

/-- The whole procedure over a written region. -/
theorem State.TilesWritten.chrExecute_ok (h : s.TilesWritten) :
    chrExecute s = .ok
      { final := State.tilesEnded { s with cmd := 0x11 }
        artifact := some (s.tilesFrom 0 s.tileCount, image s.cfg.gridW (s.tilesFrom 0 s.tileCount))
        error := none } := by
  have hWritten : State.TilesWritten { s with cmd := 0x10 } := ⟨h.even, h.within, h.written⟩
  have hRun : runCommand 0x10 s = .ok (State.afterTiles { s with cmd := 0x10 } 0) :=
    runCommand_ok (execChrRestart_of_within h.even h.within)
  have hCount : (BitVec.ofNat 32 s.tileCount).toNat = s.tileCount := Nat.mod_eq_of_lt s.tileCount_lt
  have hCollect : collectTiles (s.tileCount + 1) [] (State.afterTiles { s with cmd := 0x10 } 0) =
      .ok (s.tilesFrom 0 s.tileCount, State.tilesEnded { s with cmd := 0x11 }) :=
    hWritten.collectTiles_afterTiles (Nat.zero_add _) []
  have hConfig : (State.tilesEnded { s with cmd := 0x11 }).cfg = s.cfg := by simp [State.tilesEnded]
  have hTiles : State.tileCount { s with cmd := 0x10 } = s.tileCount := rfl
  simp only [chrExecute, hRun, bind, Except.bind, State.afterTiles_status, ne_eq, not_true_eq_false, if_false,
    State.afterTiles_count, hTiles, hCount, hCollect, hConfig]
  rfl

end

/-! ### The image (R121) -/

section
variable {gridW : Nat} {tiles : List Tile}

/-- A pixel of the image is looked up in the tile that its cell holds, where it holds one. -/
theorem imagePixel_cell (gridW : Nat) (tiles : List Tile) (k : Nat) {r c : Nat} (hr : r < 8) (hc : c < 8) :
    imagePixel gridW tiles (8 * (k / gridW) + r) (8 * (k % gridW) + c)
      = tiles[k]?.elim 0 fun t => tilePixel t r c := by
  have hSplit (q : Nat) {p : Nat} (hp : p < 8) : (8 * q + p) / 8 = q ∧ (8 * q + p) % 8 = p := by omega
  obtain ⟨hCellRow, hRow⟩ := hSplit (k / gridW) hr
  obtain ⟨hCellColumn, hColumn⟩ := hSplit (k % gridW) hc
  rw [imagePixel, hCellRow, hRow, hCellColumn, hColumn, Nat.div_add_mod']
  cases tiles[k]? <;> rfl

theorem imageHeight_div (gridW n : Nat) : imageHeight gridW n / 8 = (n + gridW - 1) / gridW :=
  Nat.mul_div_cancel_left _ (by decide)

/-- The rows of cells begun are the fewest that hold the `n` tiles. -/
theorem imageHeight_div_le_iff (hGrid : 0 < gridW) (n m : Nat) : imageHeight gridW n / 8 ≤ m ↔ n ≤ gridW * m := by
  rw [imageHeight_div, ← Nat.ceilDiv_eq_add_pred_div]
  exact ceilDiv_le_iff_le_mul hGrid

theorem length_image : (image gridW tiles).length = imageHeight gridW tiles.length := by
  simp [image]

theorem length_of_mem_image {line : List (BitVec 2)} (h : line ∈ image gridW tiles) :
    line.length = imageWidth gridW := by
  obtain ⟨y, -, rfl⟩ := List.mem_map.mp h
  simp

theorem image_getElem? {y x : Nat} (hy : y < imageHeight gridW tiles.length) (hx : x < imageWidth gridW) :
    ((image gridW tiles)[y]?.bind fun pixels => pixels[x]?) = some (imagePixel gridW tiles y x) := by
  simp [image, hy, hx]

/-- The pixels of a tile's cell lie within the image. -/
theorem cell_within (hGrid : 0 < gridW) {n k r c : Nat} (hk : k < n) (hr : r < 8) (hc : c < 8) :
    8 * (k / gridW) + r < imageHeight gridW n ∧ 8 * (k % gridW) + c < imageWidth gridW := by
  have hRow : k / gridW < imageHeight gridW n / 8 := by
    by_contra hRow
    have hHeld := (imageHeight_div_le_iff hGrid n (k / gridW)).mp (Nat.le_of_not_lt hRow)
    have hBelow := Nat.mul_div_le k gridW
    omega
  have hColumn := Nat.mod_lt k hGrid
  rw [imageWidth]
  omega

end

/-! ### The statements -/

/-- Settles O17: the three ways a restart ends, in the order of R270. -/
theorem chrRestartOpensOrRejects : Obligations.ChrRestartOpensOrRejects := by
  unfold Obligations.ChrRestartOpensOrRejects
  intro s
  refine ⟨fun hUneven => ?_, fun hEven hPast => ?_, fun hEven hWithin => ?_⟩
  · exact (execChrRestart_of_uneven hUneven).trans rfl
  · have hSum : s.chr.base + s.chr.len = BitVec.ofNat 32 ((s.chr.base.toNat + s.chr.len.toNat) % 2 ^ 32) := by
      apply BitVec.eq_of_toNat_eq
      simp
    rw [← hSum]
    exact (execChrRestart_of_past hEven hPast).trans rfl
  · exact (execChrRestart_of_within hEven hWithin).trans rfl

/-- Settles O18: the three ways `CHR_NEXT` ends; the rows are those of the tile, whose pixels stand packed. -/
theorem chrNextDeliversTheTileAtTheCursor : Obligations.ChrNextDeliversTheTileAtTheCursor := by
  unfold Obligations.ChrNextDeliversTheTileAtTheCursor
  intro s
  refine ⟨execChrNext_of_closed, execChrNext_of_end, fun b hReady hCur hLength hWithin hHolds => ?_⟩
  refine ⟨tileRows b, execChrNext_of_holdsBytes hReady hCur hLength hWithin hHolds, fun r c hc => ?_⟩
  rw [get_tileRows, extractLsb'_packRow _ hc, chrTile]

/-- Settles O19: the state after `k + 1` tiles depends on the region alone, so that the sequence that starts over from
it reaches the same state. -/
theorem restartedSequenceDeliversTileK : Obligations.RestartedSequenceDeliversTileK := by
  unfold Obligations.RestartedSequenceDeliversTileK
  intro s hEven hWithin hWritten
  have h : s.TilesWritten := ⟨hEven, hWithin, hWritten⟩
  refine ⟨fun k hk => ?_, s.tilesEnded, h.runCommands_toTheEnd, by simp [State.tilesEnded], rfl, rfl⟩
  have hAgain : State.TilesWritten (s.afterTiles (k + 1)) := ⟨hEven, hWithin, hWritten⟩
  have hIndex : (BitVec.ofNat 32 k).toNat = k := Nat.mod_eq_of_lt (hk.trans s.tileCount_lt)
  exact ⟨s.afterTiles (k + 1), s.tileBytes k, h.runCommands_chrNext hk, State.length_bytesFrom ..,
    h.holdsBytes_tileBytes hk, rfl, rfl, rfl, hIndex, rfl, hAgain.runCommands_chrNext hk⟩

/-- Settles O20: the procedure collects the tiles of the region in order, and the bytes of each are the ones that stand
there. -/
theorem chrExecuteReturnsEveryTile : Obligations.ChrExecuteReturnsEveryTile := by
  unfold Obligations.ChrExecuteReturnsEveryTile
  intro s hEven hWithin hWritten
  have h : s.TilesWritten := ⟨hEven, hWithin, hWritten⟩
  refine ⟨_, s.tilesFrom 0 s.tileCount, h.chrExecute_ok, rfl, rfl, by simp [State.tilesFrom, State.tileCount],
    fun k b hk hLength hHolds => ?_⟩
  have hBytes : s.tileBytes k = b :=
    State.holdsBytes_unique ((State.length_bytesFrom ..).trans hLength.symm) (h.holdsBytes_tileBytes hk) hHolds
  have hCount : k < s.tileCount := hk
  simp [State.tilesFrom, hCount, hBytes]

/-- Settles O21: the cell of a pixel is found again by division, and the rows of cells begun are the fewest that hold
every tile. -/
theorem imageTilesTheGridInSourceOrder : Obligations.ImageTilesTheGridInSourceOrder := by
  unfold Obligations.ImageTilesTheGridInSourceOrder
  intro gridW tiles hGrid
  refine ⟨fun k r c t ht hr hc => ⟨?_, ?_⟩, fun k r c hk hr hc => ?_, ?_, rfl, fun n => ⟨?_, ?_, fun hn => ?_⟩,
    length_image, fun line => length_of_mem_image, fun y x => image_getElem?⟩
  · rw [imagePixel_cell gridW tiles k hr hc, ht, Option.elim_some]
  · exact cell_within hGrid (List.getElem?_eq_some_iff.mp ht).1 hr hc
  · rw [imagePixel_cell gridW tiles k hr hc, List.getElem?_eq_none hk, Option.elim_none]
  · rw [imageHeight, Nat.zero_add, Nat.div_eq_of_lt (Nat.sub_one_lt_of_lt hGrid), Nat.mul_zero]
  · exact (imageHeight_div_le_iff hGrid n _).mp (Nat.le_refl _)
  · exact Nat.mul_mod_right 8 _
  · have hFewest := imageHeight_div_le_iff hGrid n (imageHeight gridW n / 8 - 1)
    have hSome := imageHeight_div_le_iff hGrid n 0
    omega

end Sys2Proof.Machine
end

section
/-! O4, O22, O23, O28 to O31. The decode sequence (42_disasm.md). One equation for each way `DIS_START` and `DIS_NEXT`
end, and `State.DecodeEnding`, which says once how a `DIS_NEXT` of a running sequence can end. The 6502 instruction of
some bytes ends in the same delivery; two stores that agree on the region decode alike; the engine's procedure is an
induction over `State.DecodeEnding`. -/
namespace Sys2Proof.Machine

/-! ### Entries of the opcode table (R77, R78, R136) -/

/-- The entry that the opcode table gives `op` at the cursor, with these operand bytes. -/
def Entry.atCursor (cur : Word) (op : Byte) (ob : List Byte) : Entry :=
  { byteOffset := cur, opcode := op, mnemonic := (optable op).1, mode := (optable op).2, operandBytes := ob }

theorem Entry.atCursor_encodedLength (cur : Word) {op : Byte} {ob : List Byte}
    (hLength : ob.length = (optable op).2.nopnd) : (Entry.atCursor cur op ob).encodedLength = 1 + ob.length := by
  rw [hLength]
  rfl

/-- No entry is empty, and none is longer than its length register can say (R73). -/
theorem Entry.encodedLength_bounds (e : Entry) : 1 ≤ e.encodedLength ∧ e.encodedLength ≤ 3 := by
  have hTwo := Mode.nopnd_le e.mode
  simp only [Entry.encodedLength, Machine.encodedLength]
  omega

/-! ### The bytes at the cursor -/

/-- The decode sequence is open and has not stopped. -/
structure State.Decoding (s : State) : Prop where
  ready : s.flags.disReady = true
  running : s.flags.disEnd = false

section
variable {s t : State}

theorem State.holdsBytes_cons {a : Nat} {b : Byte} {bs : List Byte} :
    s.holdsBytes a (b :: bs) ↔ s.ibuf.read a = some b ∧ s.holdsBytes (a + 1) bs := by
  constructor
  · intro h
    refine ⟨h 0 (Nat.succ_pos _), fun k hk => ?_⟩
    rw [Nat.add_right_comm]
    exact h (k + 1) (Nat.succ_lt_succ hk)
  · rintro ⟨hHead, hTail⟩ k hk
    cases k with
    | zero => exact hHead
    | succ k =>
      rw [← Nat.add_assoc, Nat.add_right_comm]
      exact hTail k (Nat.lt_of_succ_lt_succ hk)

theorem memRead_one {a : Nat} {b : Byte} (hBound : a + 1 ≤ s.bufLen.toNat) (hRead : s.ibuf.read a = some b) :
    memRead a 1 s = .ok [b] :=
  have hHolds : s.holdsBytes a [b] := State.holdsBytes_cons.mpr ⟨hRead, fun _ hk => absurd hk (Nat.not_lt_zero _)⟩
  memRead_of_holdsBytes hHolds hBound

theorem disDecode_of_end {base len cur : Word} (hEnd : len.toNat ≤ cur.toNat) :
    disDecode base len cur s = .ok .stop := if_pos hEnd

/-- An entry that the region cuts off is found by its opcode byte alone (R138). -/
theorem disDecode_of_cutOff {base len cur : Word} {op : Byte} (hCur : cur.toNat < len.toNat)
    (hWithin : base.toNat + len.toNat ≤ s.bufLen.toNat) (hOp : s.ibuf.read (base.toNat + cur.toNat) = some op)
    (hCut : len.toNat < cur.toNat + 1 + (optable op).2.nopnd) :
    disDecode base len cur s = .ok (.truncated cur) := by
  simp [disDecode, Nat.not_le.mpr hCur, memRead_one (by omega) hOp, hCut]

theorem disDecode_of_holdsBytes {base len cur : Word} {op : Byte} {ob : List Byte}
    (hLength : ob.length = (optable op).2.nopnd) (hFit : cur.toNat + 1 + ob.length ≤ len.toNat)
    (hWithin : base.toNat + len.toNat ≤ s.bufLen.toNat) (hHolds : s.holdsBytes (base.toNat + cur.toNat) (op :: ob)) :
    disDecode base len cur s = .ok (.entry (.atCursor cur op ob)) := by
  obtain ⟨hOp, hOb⟩ := State.holdsBytes_cons.mp hHolds
  have hCur : ¬ len.toNat ≤ cur.toNat := by omega
  have hOperands := memRead_of_holdsBytes hOb (by omega)
  simp [disDecode, hCur, memRead_one (by omega) hOp, ← hLength, Nat.not_lt.mpr hFit, hOperands, Entry.atCursor]

/-! ### The ways the two commands end (R140, R141) -/

theorem execDisStart_of_past (hPast : s.bufLen.toNat < s.dis.base.toNat + s.dis.len.toNat) :
    execDisStart s = raise .regionOutOfBounds (s.dis.base + s.dis.len) { s with flags := s.flags.closeDis } :=
  if_pos (inBuffer_false.mpr hPast)

theorem execDisStart_of_within (hWithin : s.dis.base.toNat + s.dis.len.toNat ≤ s.bufLen.toNat) :
    execDisStart s = .next { s with
      status := 0
      dis := { s.dis with cur := s.arg0 }
      flags := { s.flags with disReady := true, disEnd := false, disValid := false } } := by
  rw [execDisStart, if_neg (by simp [inBuffer_true.mpr hWithin])]
  rfl

theorem State.Decoding.execDisNext_of_decode (h : s.Decoding) {d : Decoded}
    (hDecode : disDecode s.dis.base s.dis.len s.dis.cur s = .ok d) : execDisNext s = disFinish d s := by
  rw [execDisNext, whenDecoding_open h.ready h.running, hDecode]

/-- The state after the entry is delivered (R141). -/
def State.delivered (s : State) (e : Entry) : State :=
  { s with dis := entryRegs e s.dis, flags := { s.flags with disValid := true }, status := 0 }

theorem State.delivered_elen_toNat (s : State) (e : Entry) : (s.delivered e).dis.elen.toNat = e.encodedLength :=
  Nat.mod_eq_of_lt (Nat.lt_succ_of_le e.encodedLength_bounds.2)

/-- The cursor moves past an entry that ends within the region, with no wrap. -/
theorem State.delivered_cur_toNat {e : Entry} (hFit : s.dis.cur.toNat + e.encodedLength ≤ s.dis.len.toNat) :
    (s.delivered e).dis.cur.toNat = s.dis.cur.toNat + e.encodedLength := by
  have hLen := s.dis.len.isLt
  rw [State.delivered, entryRegs_cur, BitVec.toNat_add, BitVec.toNat_ofNat]
  omega

/-- A delivery leaves the sequence running. -/
theorem State.Decoding.delivered (h : s.Decoding) (e : Entry) : (s.delivered e).Decoding := ⟨h.ready, h.running⟩

/-- How a `DIS_NEXT` of a running sequence can end. -/
inductive State.DecodeEnding (s : State) : State → Prop
  | stopped : s.DecodeEnding { s with flags := { s.flags with disEnd := true, disValid := false }, status := 0 }
  | truncated : s.DecodeEnding { s with
      flags := { s.flags with disEnd := true, disValid := false }, status := 3, errinfo := s.dis.cur }
  | delivered {op : Byte} {ob : List Byte} (hLength : ob.length = (optable op).2.nopnd)
      (hFit : s.dis.cur.toNat + (Entry.atCursor s.dis.cur op ob).encodedLength ≤ s.dis.len.toNat) :
      s.DecodeEnding (s.delivered (.atCursor s.dis.cur op ob))

theorem State.Decoding.execDisNext_ending (h : s.Decoding) (hNext : execDisNext s = .next t) : s.DecodeEnding t := by
  rcases execDisNext_next hNext with ⟨hClosed, -⟩ | ⟨-, hStopped, -⟩ | ⟨-, -, d, hDecode, hFinish⟩
  · cases h.ready.symm.trans hClosed
  · cases h.running.symm.trans hStopped
  · rcases disDecode_ok hDecode with ⟨-, rfl⟩ | ⟨-, op, -, ⟨-, rfl⟩ | ⟨hFit, ob, hOb, rfl⟩⟩
    · obtain rfl := disFinish_stop_next.mp hFinish
      exact .stopped
    · obtain rfl := disFinish_truncated_next.mp hFinish
      exact .truncated
    · obtain rfl := disFinish_entry_next.mp hFinish
      obtain ⟨-, hLength, -⟩ := memRead_ok.mp hOb
      exact .delivered hLength (by rw [Entry.atCursor_encodedLength _ hLength]; omega)

/-! ### The instruction at the cursor (R155) -/

/-- The instruction of an opcode byte and its operand bytes runs by the template, with the opcode table's entry. -/
theorem exec_ofOpcode {op : Byte} {ob : List Byte} (hLength : ob.length = (optable op).2.nopnd) :
    exec (.ofOpcode op ob) s = decodeAs op (optable op).1 (optable op).2 ob s := by
  by_cases hIllegal : (optable op).1 = .illegal
  · have hMap := (optable_mnemonic_illegal op).mp hIllegal
    obtain rfl : ob = [] := List.length_eq_zero_iff.mp (by rw [hLength, hMap]; rfl)
    rw [Instr.ofOpcode, hMap]
    rfl
  · rw [Instr.ofOpcode, exec_of_entry (Instr.entry?_ofEntry op _ hIllegal),
      decodeForm_of_opcode (by rw [Operand.ofBytes_mode, opcodeOf_optable op hIllegal]), Operand.ofBytes_mode,
      Operand.bytes_ofBytes hLength]

/-- The template delivers an entry that ends within the region. -/
theorem State.Decoding.decodeAs_of_fit (h : s.Decoding) {op : Byte} {m : Mnemonic} {mode : Mode} {ob : List Byte}
    (hFit : s.dis.cur.toNat + encodedLength mode ≤ s.dis.len.toNat) :
    decodeAs op m mode ob s = disFinish (.entry { byteOffset := s.dis.cur, opcode := op, mnemonic := m, mode := mode
                                                  operandBytes := ob }) s := by
  have hCur : ¬ s.dis.len.toNat ≤ s.dis.cur.toNat := by
    rw [encodedLength] at hFit
    omega
  rw [decodeAs, whenDecoding_open h.ready h.running, if_neg hCur, if_neg (Nat.not_lt.mpr hFit)]

/-- Both meanings agree: `DIS_NEXT` at the bytes of an instruction, and the instruction. -/
theorem State.Decoding.execDisNext_eq_exec_ofOpcode (h : s.Decoding) {op : Byte} {ob : List Byte}
    (hLength : ob.length = (optable op).2.nopnd) (hFit : s.dis.cur.toNat + 1 + ob.length ≤ s.dis.len.toNat)
    (hWithin : s.dis.base.toNat + s.dis.len.toNat ≤ s.bufLen.toNat)
    (hHolds : s.holdsBytes (s.dis.base.toNat + s.dis.cur.toNat) (op :: ob)) :
    execDisNext s = exec (.ofOpcode op ob) s := by
  have hEnd : s.dis.cur.toNat + encodedLength (optable op).2 ≤ s.dis.len.toNat := by
    rw [encodedLength, ← hLength]
    omega
  rw [h.execDisNext_of_decode (disDecode_of_holdsBytes hLength hFit hWithin hHolds), exec_ofOpcode hLength,
    h.decodeAs_of_fit hEnd]
  rfl

/-! ### The region is all a decode reads (R137, R138) -/

theorem memRead_congr {a n : Nat} (hLen : t.bufLen = s.bufLen)
    (hRead : ∀ k, k < n → t.ibuf.read (a + k) = s.ibuf.read (a + k)) : memRead a n t = memRead a n s := by
  simp only [memRead, hLen, Memory.readBytes_congr hRead]

theorem disDecode_congr {base len cur : Word} (hLen : t.bufLen = s.bufLen)
    (hRegion : ∀ a, base.toNat ≤ a → a < base.toNat + len.toNat → t.ibuf.read a = s.ibuf.read a) :
    disDecode base len cur t = disDecode base len cur s := by
  rcases Nat.lt_or_ge cur.toNat len.toNat with hCur | hEnd
  · have hOpcode : memRead (base.toNat + cur.toNat) 1 t = memRead (base.toNat + cur.toNat) 1 s :=
      memRead_congr hLen fun k hk => hRegion _ (by omega) (by omega)
    have hOperands (n : Nat) (hFit : ¬ len.toNat < cur.toNat + 1 + n) :
        memRead (base.toNat + cur.toNat + 1) n t = memRead (base.toNat + cur.toNat + 1) n s :=
      memRead_congr hLen fun k hk => hRegion _ (by omega) (by omega)
    simp only [disDecode, hOpcode]
    split
    · rfl
    · split
      · rfl
      · split
        · rfl
        · next hFit => rw [hOperands _ hFit]
  · rw [disDecode_of_end hEnd, disDecode_of_end hEnd]

theorem disFinish_withIbuf (d : Decoded) (m : Memory) :
    disFinish d { s with ibuf := m } = mapNext (fun t => { t with ibuf := m }) (disFinish d s) := by
  cases d <;> rfl

/-- The checks of a decode command do not look at the buffer. -/
theorem whenDecoding_withIbuf {k k' : Result} (m : Memory) (hk : k' = mapNext (fun t => { t with ibuf := m }) k) :
    whenDecoding { s with ibuf := m } k' = mapNext (fun t => { t with ibuf := m }) (whenDecoding s k) := by
  simp only [whenDecoding]
  split
  · rfl
  · split
    · rfl
    · exact hk

/-! ### The engine's procedure (R145) -/

theorem bind_eq_ok {ε α β : Type} {x : Except ε α} {f : α → Except ε β} {b : β} :
    x >>= f = .ok b ↔ ∃ a, x = .ok a ∧ f a = .ok b := by
  cases x <;> simp [bind, Except.bind]

theorem access_eq_ok {r : Result} : access r = .ok t ↔ r = .next t := by
  cases r <;> simp [access]

theorem runCommand_next {code : Byte} (h : runCommand code s = .ok t) :
    exec (decodeCommand code) { s with cmd := code } = .next t := by
  have hCode : (code.setWidth 32 : Word).setWidth 8 = code := by simp
  rw [runCommand, hostWrite_cmd, commandCycle, hCode] at h
  exact access_eq_ok.mp h

theorem getReg_of_readable {q : Reg} (h : q.readable s.flags = true) : getReg q s = .ok (q.value s) := by
  rw [getReg, hostRead_readable rfl h]

/-- The host finds the mnemonic of its number again (R76). -/
theorem allMnemonics_getD_number (m : Mnemonic) :
    allMnemonics.getD ((mnemonicNumber m).setWidth 32 : Word).toNat .illegal = m := by
  cases m <;> rfl

/-- And the mode of its number (R74). -/
theorem allModes_getD_number (mode : Mode) :
    allModes.getD ((modeNumber mode).setWidth 32 : Word).toNat .imp = mode := by
  cases mode <;> rfl

/-- The host finds the operand bytes in the packed register again (R75). -/
theorem take_packOperands {ob : List Byte} (hTwo : ob.length ≤ 2) :
    [((packOperands ob).setWidth 32 : Word).setWidth 8, ((packOperands ob).setWidth 32 >>> 8 : Word).setWidth 8].take
      ((BitVec.ofNat 2 ob.length).setWidth 32 : Word).toNat = ob := by
  have hLow (h : Half) : (h.setWidth 32 : Word).setWidth 8 = (h.setWidth 8 : Byte) :=
    BitVec.setWidth_setWidth_of_le h (by decide)
  have hHigh (h : Half) : (h.setWidth 32 >>> 8 : Word).setWidth 8 = ((h >>> 8).setWidth 8 : Byte) := by
    rw [BitVec.setWidth_ushiftRight_eq_extractLsb, BitVec.setWidth_ushiftRight_eq_extractLsb,
      BitVec.extractLsb'_setWidth_of_le (by decide)]
  rw [hLow, hHigh, packOperands, Half.low_of_append, Half.high_of_append]
  match ob with
  | [] | [b1] | [b1, b2] => rfl
  | _ :: _ :: _ :: _ => simp at hTwo

/-- The host reads a delivered entry out unchanged (R35). -/
theorem readEntry_delivered (s : State) {e : Entry} (hTwo : e.operandBytes.length ≤ 2) :
    readEntry (s.delivered e) = .ok e := by
  have hOpcode : (e.opcode.setWidth 32 : Word).setWidth 8 = e.opcode := by simp
  have hValid : (s.delivered e).flags.disValid = true := rfl
  have hRegs : (s.delivered e).dis = entryRegs e s.dis := rfl
  simp only [readEntry, getReg_of_readable (q := .disOff) hValid, getReg_of_readable (q := .disOpc) hValid,
    getReg_of_readable (q := .disMnem) hValid, getReg_of_readable (q := .disMode) hValid,
    getReg_of_readable (q := .disNopnd) hValid, getReg_of_readable (q := .disOpnd) hValid, bind, Except.bind, pure,
    Except.pure, Reg.value, hRegs, entryRegs_off, entryRegs_opc, entryRegs_mnem, entryRegs_mode, entryRegs_nopnd,
    entryRegs_opnd, hOpcode, allMnemonics_getD_number, allModes_getD_number, take_packOperands hTwo]

theorem runCommand_of_collectEntries {fuel : Nat} {es : List Entry} {r : List Entry × State}
    (hCollect : collectEntries (fuel + 1) es s = .ok r) : ∃ u, runCommand 0x21 s = .ok u := by
  obtain ⟨u, hRun, -⟩ := bind_eq_ok.mp hCollect
  exact ⟨u, hRun⟩

theorem collectEntries_end {fuel : Nat} {es : List Entry} (hRun : runCommand 0x21 s = .ok t)
    (hEnd : t.flags.disEnd = true) : collectEntries (fuel + 1) es s = .ok (es, t) := by
  rw [collectEntries, hRun]
  exact if_pos hEnd

theorem collectEntries_delivered {fuel : Nat} {es : List Entry} {e : Entry} (hRunning : t.Decoding)
    (hRun : runCommand 0x21 s = .ok (t.delivered e)) (hTwo : e.operandBytes.length ≤ 2) :
    collectEntries (fuel + 1) es s = collectEntries fuel (es ++ [e]) (t.delivered e) := by
  rw [collectEntries, hRun]
  refine (if_neg ?_).trans ((if_pos rfl).trans ?_)
  · simp [(hRunning.delivered e).running]
  · rw [readEntry_delivered t hTwo]
    rfl

/-- The loop adds contiguous entries from the cursor to the final one, where it ends with no error or with that of an
entry cut off. -/
theorem State.Decoding.collectEntries_contiguous (h : s.Decoding) {fuel : Nat} {es es' : List Entry}
    (hCollect : collectEntries fuel es s = .ok (es', t)) :
    ∃ new, es' = es ++ new ∧ contiguousFrom s.dis.cur.toNat new t.dis.cur.toNat
      ∧ (errorOf t = none ∨ errorOf t = some (3, t.dis.cur)) := by
  induction fuel generalizing s es with
  | zero => cases hCollect
  | succ fuel ih =>
    obtain ⟨u, hRun⟩ := runCommand_of_collectEntries hCollect
    have hRunning : State.Decoding { s with cmd := 0x21 } := ⟨h.ready, h.running⟩
    cases hRunning.execDisNext_ending (runCommand_next hRun) with
    | stopped =>
      cases (collectEntries_end hRun rfl).symm.trans hCollect
      exact ⟨[], (List.append_nil _).symm, rfl, .inl rfl⟩
    | truncated =>
      cases (collectEntries_end hRun rfl).symm.trans hCollect
      exact ⟨[], (List.append_nil _).symm, rfl, .inr rfl⟩
    | @delivered op ob hLength hFit =>
      rw [collectEntries_delivered hRunning hRun (hLength.trans_le (Mode.nopnd_le _))] at hCollect
      obtain ⟨new, rfl, hContiguous, hError⟩ := ih (hRunning.delivered _) hCollect
      rw [State.delivered_cur_toNat hFit] at hContiguous
      exact ⟨_ :: new, by rw [List.append_assoc]; rfl, ⟨rfl, hContiguous⟩, hError⟩

end

/-! ### The statements -/

/-- Settles O22: the two ways a start ends; a 32-bit sum is the unbounded one mod 2^32. -/
theorem disStartOpensOrRejects : Obligations.DisStartOpensOrRejects := by
  unfold Obligations.DisStartOpensOrRejects
  intro s
  refine ⟨fun hPast => ?_, execDisStart_of_within⟩
  have hSum : BitVec.ofNat 32 ((s.dis.base.toNat + s.dis.len.toNat) % 2 ^ 32) = s.dis.base + s.dis.len := by
    apply BitVec.eq_of_toNat_eq
    simp
  rw [hSum]
  exact execDisStart_of_past hPast

/-- Settles O23: the checks of R141 and the findings of the decode step, in their order. -/
theorem disNextDecodesTheEntryAtTheCursor : Obligations.DisNextDecodesTheEntryAtTheCursor := by
  unfold Obligations.DisNextDecodesTheEntryAtTheCursor
  intro s
  refine ⟨fun hClosed => ?_, fun hReady hStopped => ?_, fun hReady hRunning hEnd => ?_,
    fun op hReady hRunning hCur hWithin hOp hCut => ?_,
    fun op ob hReady hRunning hFit hWithin hLength hHolds => ?_⟩
  · exact whenDecoding_notReady hClosed
  · exact whenDecoding_stopped hReady hStopped
  · exact State.Decoding.execDisNext_of_decode ⟨hReady, hRunning⟩ (disDecode_of_end hEnd)
  · exact State.Decoding.execDisNext_of_decode ⟨hReady, hRunning⟩ (disDecode_of_cutOff hCur hWithin hOp hCut)
  · rw [← hLength] at hFit
    have hDecode := disDecode_of_holdsBytes hLength hFit hWithin hHolds
    rw [← Entry.atCursor_encodedLength s.dis.cur hLength]
    exact State.Decoding.execDisNext_of_decode ⟨hReady, hRunning⟩ hDecode

/-- Settles O28: only a delivery leaves the sequence running with a valid entry, and the next entry, if there is one,
is delivered from the moved cursor. -/
theorem entriesAreContiguous : Obligations.EntriesAreContiguous := by
  unfold Obligations.EntriesAreContiguous
  intro s t hReady hRunning hNext _ _ hEnd
  have h : s.Decoding := ⟨hReady, hRunning⟩
  cases h.execDisNext_ending hNext with
  | stopped => cases hEnd
  | truncated => cases hEnd
  | @delivered op ob hLength hFit =>
    have hCur := State.delivered_cur_toNat hFit
    have hLen := s.delivered_elen_toNat (.atCursor s.dis.cur op ob)
    refine ⟨rfl, by rw [hCur, hLen]; rfl, by rw [hLen]; exact (Entry.encodedLength_bounds _).1, hCur.trans_le hFit,
      fun u hAgain hValid => ?_⟩
    cases (h.delivered _).execDisNext_ending hAgain with
    | stopped => cases hValid
    | truncated => cases hValid
    | delivered => rfl

/-- Settles O29: the decode step reads the region alone, and what follows it does not look at the buffer. -/
theorem disNextReadsOnlyItsRegion : Obligations.DisNextReadsOnlyItsRegion := by
  unfold Obligations.DisNextReadsOnlyItsRegion
  intro s m hRegion
  refine whenDecoding_withIbuf m ?_
  have hDecode : disDecode s.dis.base s.dis.len s.dis.cur { s with ibuf := m }
      = disDecode s.dis.base s.dis.len s.dis.cur s := disDecode_congr rfl hRegion
  simp only [hDecode]
  cases disDecode s.dis.base s.dis.len s.dis.cur s with
  | ok d => exact disFinish_withIbuf d m
  | error f => rfl

/-- Settles O30: the displacement is read as a signed byte, from -128 to 127. -/
theorem branchTargetIsUnbounded : Obligations.BranchTargetIsUnbounded := by
  unfold Obligations.BranchTargetIsUnbounded
  intro off d
  have hTarget (b : Byte) : branchTarget off b = (off.toNat : Int) + 2 + b.toInt := rfl
  have hSigned : d.toInt = if d.toNat < 128 then (d.toNat : Int) else (d.toNat : Int) - 256 := by
    rw [BitVec.toInt_eq_toNat_cond]
    congr 1
    exact propext (by omega)
  have hByte := d.isLt
  have hLowest : (0x80 : Byte).toInt = -128 := by decide
  have hHighest : (0x7F : Byte).toInt = 127 := by decide
  rw [hTarget, hTarget, hTarget, hSigned, hLowest, hHighest]
  omega

/-- Settles O31: an opened sequence runs from the start offset, and the loop collects from there. -/
theorem disassemblyIsContiguous : Obligations.DisassemblyIsContiguous := by
  unfold Obligations.DisassemblyIsContiguous
  intro s start rep es text hExecute hArtifact
  obtain ⟨s₁, hPut, hExecute⟩ := bind_eq_ok.mp hExecute
  obtain ⟨s₂, hRun, hExecute⟩ := bind_eq_ok.mp hExecute
  rw [putReg, hostWrite_reg (q := .arg0) rfl (by decide), access_eq_ok] at hPut
  cases hPut
  rcases execDisStart_next (runCommand_next hRun) with ⟨-, rfl⟩ | ⟨-, rfl⟩
  · cases hExecute
    cases hArtifact
  · obtain ⟨⟨es', t⟩, hCollect, hReport⟩ := bind_eq_ok.mp hExecute
    cases hReport
    cases hArtifact
    obtain ⟨new, rfl, hContiguous, hError⟩ := State.Decoding.collectEntries_contiguous ⟨rfl, rfl⟩ hCollect
    exact ⟨hContiguous, rfl, hError⟩

/-- Settles O4: the write of `CMD` runs `DIS_NEXT`, and the bytes that decode to the instruction are an opcode byte and
its operand bytes. -/
theorem disNextRunsTheDecodedInstruction : Obligations.DisNextRunsTheDecodedInstruction := by
  unfold Obligations.DisNextRunsTheDecodedInstruction
  intro s v rest i bytes hProduced hPending hCode hReady hRunning hFit hWithin hHolds hDecode
  obtain ⟨op, ob, rfl, hLength, rfl⟩ := decodeOpcode_ok hDecode
  rw [List.append_nil] at hFit hHolds
  have h : State.Decoding { s with pending := rest, cmd := 0x21 } := ⟨hReady, hRunning⟩
  calc step s
      = hostWrite 0x00 v { s with pending := rest } := step_perform hProduced hPending
    _ = execDisNext { s with pending := rest, cmd := 0x21 } := by
        rw [hostWrite_cmd, commandCycle, hCode]
        rfl
    _ = _ := h.execDisNext_eq_exec_ofOpcode hLength (by rw [Nat.add_right_comm]; exact hFit) hWithin hHolds

end Sys2Proof.Machine
end

section
/-! O24 to O27. The per-mnemonic decode rules (43_disasm_opcodes.md). A legal form runs by the template of R155 with
the opcode byte of its mnemonic's table, a form the table lacks is refused, and the template delivers what fits in the
region and stops on what the region cuts off. -/
namespace Sys2Proof.Machine
section
variable {s : State} {i : Instr} {m : Mnemonic} {o : Operand} {op : Byte}

/-! ### A form and its mnemonic's table (R156 to R212) -/

/-- A legal form runs by the template, with the opcode byte its mnemonic's table gives its mode. -/
theorem exec_of_form (hEntry : i.entry? = some (m, o)) (hOp : opcodeOf m o.mode = some op) :
    exec i s = decodeAs op m o.mode o.bytes s := by
  rw [exec_of_entry hEntry, decodeForm_of_opcode hOp]

theorem decodeForm_of_none (hNone : opcodeOf m o.mode = none) : decodeForm m o i s = .refused (.illFormed i) := by
  simp [decodeForm, hNone]

/-- An ill-formed term asks for a mode that its mnemonic's table lacks. -/
theorem opcodeOf_of_not_wellFormed (hEntry : i.entry? = some (m, o)) (hWf : i.wellFormed = false) :
    opcodeOf m o.mode = none := by
  obtain ⟨-, -, -, hAdmits, -⟩ := Instr.ofEntry_of_entry? 0 hEntry
  rw [hAdmits] at hWf
  simpa [hWf] using admits_iff m o

/-- The mode's length is the opcode byte and the operand's bytes (R77). -/
theorem encodedLength_mode (o : Operand) : encodedLength o.mode = 1 + o.bytes.length := by
  rw [encodedLength, Operand.bytes_length]

/-- An entry with no operand bytes shows 0 for them (R53). -/
theorem packOperands_nil : packOperands [] = 0 := by decide

/-- The map of R79 marks the listed bytes illegal. -/
theorem optable_of_mem_illegalOpcodes (h : op ∈ illegalOpcodes) : optable op = (.illegal, .imp) :=
  (optable_illegal op).mp (List.contains_iff_mem.mpr h)

/-- An illegal byte runs by the template too, as a form with no operand (R212). -/
theorem exec_opIllegal : exec (.opIllegal op) s = decodeAs op .illegal .imp [] s := rfl

/-- An illegal byte is read as the illegal instruction that carries it (R212). -/
theorem ofOpcode_of_mem_illegalOpcodes (h : op ∈ illegalOpcodes) : Instr.ofOpcode op [] = .opIllegal op := by
  rw [Instr.ofOpcode, optable_of_mem_illegalOpcodes h]
  rfl

/-! ### The template at the region end (R138, R155) -/

/-- The template stops on an entry that begins before the region end and is cut off by it. -/
theorem State.Decoding.decodeAs_of_cutOff (h : s.Decoding) {mode : Mode} {ob : List Byte}
    (hCur : s.dis.cur.toNat < s.dis.len.toNat) (hCut : s.dis.len.toNat < s.dis.cur.toNat + encodedLength mode) :
    decodeAs op m mode ob s = disFinish (.truncated s.dis.cur) s := by
  rw [decodeAs, whenDecoding_open h.ready h.running, if_neg (Nat.not_le.mpr hCur), if_pos hCut]

/-- So does the `DIS_NEXT` that meets the opcode byte of such a form, whose operand bytes it does not read. -/
theorem State.Decoding.execDisNext_of_cutOff (h : s.Decoding) (hOp : opcodeOf m o.mode = some op)
    (hCur : s.dis.cur.toNat < s.dis.len.toNat)
    (hCut : s.dis.len.toNat < s.dis.cur.toNat + 1 + o.bytes.length)
    (hWithin : s.dis.base.toNat + s.dis.len.toNat ≤ s.bufLen.toNat)
    (hRead : s.ibuf.read (s.dis.base.toNat + s.dis.cur.toNat) = some op) :
    execDisNext s = disFinish (.truncated s.dis.cur) s := by
  rw [Operand.bytes_length] at hCut
  exact h.execDisNext_of_decode (disDecode_of_cutOff hCur hWithin hRead (by rw [optable_of_opcodeOf hOp]; exact hCut))

end

/-! ### The statements -/

/-- Settles O24: the form runs by the template, which delivers the entry that fits. -/
theorem legalInstructionIsDeliveredAsItsEntry : Obligations.LegalInstructionIsDeliveredAsItsEntry := by
  unfold Obligations.LegalInstructionIsDeliveredAsItsEntry
  intro s i m o op hEntry hOp hReady hRunning hFit
  have h : s.Decoding := ⟨hReady, hRunning⟩
  rw [Nat.add_assoc, ← encodedLength_mode] at hFit
  rw [exec_of_form hEntry hOp, h.decodeAs_of_fit hFit, ← encodedLength_mode]
  rfl

/-- Settles O25: the template and the decode step both stop on a form that the region cuts off; one byte past the
cursor is still in the region, so such a form has operand bytes. -/
theorem truncatedEntryStopsTheSequence : Obligations.TruncatedEntryStopsTheSequence := by
  unfold Obligations.TruncatedEntryStopsTheSequence
  intro s i m o op hEntry hOp hReady hRunning hCur hCut
  have h : s.Decoding := ⟨hReady, hRunning⟩
  have hExec : exec i s = disFinish (.truncated s.dis.cur) s := by
    rw [exec_of_form hEntry hOp]
    exact h.decodeAs_of_cutOff hCur (by rw [encodedLength_mode, ← Nat.add_assoc]; exact hCut)
  refine ⟨fun hEmpty => ?_, hExec, fun hWithin hRead => ?_⟩
  · rw [hEmpty] at hCut
    exact Nat.not_lt.mpr hCur hCut
  · exact (h.execDisNext_of_cutOff hOp hCur hCut hWithin hRead).trans hExec.symm

/-- Settles O26: the illegal byte is an entry of one byte, which fits where it begins; with no operand bytes it is all
that `DIS_NEXT` reads. -/
theorem illegalOpcodeIsItsOwnEntry : Obligations.IllegalOpcodeIsItsOwnEntry := by
  unfold Obligations.IllegalOpcodeIsItsOwnEntry
  intro s op hIllegal hReady hRunning hCur
  have h : s.Decoding := ⟨hReady, hRunning⟩
  have hFit : s.dis.cur.toNat + encodedLength .imp ≤ s.dis.len.toNat := hCur
  refine ⟨?_, fun hWithin hRead => ?_⟩
  · rw [exec_opIllegal, h.decodeAs_of_fit hFit, disFinish, entryRegs, packOperands_nil]
    rfl
  · have hLength : ([] : List Byte).length = (optable op).2.nopnd := by
      rw [optable_of_mem_illegalOpcodes hIllegal]
      rfl
    have hHolds : s.holdsBytes (s.dis.base.toNat + s.dis.cur.toNat) [op] :=
      State.holdsBytes_cons.mpr ⟨hRead, fun _ hk => absurd hk (Nat.not_lt_zero _)⟩
    rw [← ofOpcode_of_mem_illegalOpcodes hIllegal]
    exact h.execDisNext_eq_exec_ofOpcode hLength hCur hWithin hHolds

/-- Settles O27: the term's form has no opcode byte. -/
theorem illFormedOperandIsRefused : Obligations.IllFormedOperandIsRefused := by
  unfold Obligations.IllFormedOperandIsRefused
  intro s i m o hEntry hWf
  rw [exec_of_entry hEntry, decodeForm_of_none (opcodeOf_of_not_wellFormed hEntry hWf)]

end Sys2Proof.Machine
end

section
/-! O34 to O38. The Game Genie codec (44_gamegenie.md). A code's nibbles and a triple's fields are cut into the same
pieces, each the top bit or the three low bits of a nibble (R218). Decoding and encoding are written in these pieces
once, so that each round trip says that they come back to where they were. -/
namespace Sys2Proof.Machine

/-! ### The pieces of the layout table (R218) -/

/-- A nibble of its bit 3 and its bits 2:0. -/
def packNibble (h : BitVec 1) (t : BitVec 3) : Nibble := h ++ t

/-- A byte of the pieces of its high and its low nibble. -/
def packByte (h1 : BitVec 1) (t1 : BitVec 3) (h0 : BitVec 1) (t0 : BitVec 3) : Byte := h1 ++ (t1 ++ (h0 ++ t0))

/-- An address of the pieces of its four nibbles, the highest first. -/
def packHalf (h3 : BitVec 1) (t3 : BitVec 3) (h2 : BitVec 1) (t2 : BitVec 3) (h1 : BitVec 1) (t1 : BitVec 3)
    (h0 : BitVec 1) (t0 : BitVec 3) : Half :=
  h3 ++ (t3 ++ (h2 ++ (t2 ++ (h1 ++ (t1 ++ (h0 ++ t0))))))

section
variable (h3 h2 h1 h0 : BitVec 1) (t3 t2 t1 t0 : BitVec 3)

@[simp] theorem extract_packNibble_top : (packNibble h0 t0).extractLsb' 3 1 = h0 :=
  BitVec.extractLsb'_append_eq_left

@[simp] theorem extract_packNibble_low : (packNibble h0 t0).extractLsb' 0 3 = t0 :=
  BitVec.extractLsb'_append_eq_right

@[simp] theorem extract_packByte :
    (packByte h1 t1 h0 t0).extractLsb' 7 1 = h1 ∧ (packByte h1 t1 h0 t0).extractLsb' 4 3 = t1
      ∧ (packByte h1 t1 h0 t0).extractLsb' 3 1 = h0 ∧ (packByte h1 t1 h0 t0).extractLsb' 0 3 = t0 := by
  simp only [packByte, BitVec.extractLsb'_append_eq_ite]
  simp

@[simp] theorem extract_packHalf_high :
    (packHalf h3 t3 h2 t2 h1 t1 h0 t0).extractLsb' 12 3 = t3
      ∧ (packHalf h3 t3 h2 t2 h1 t1 h0 t0).extractLsb' 11 1 = h2
      ∧ (packHalf h3 t3 h2 t2 h1 t1 h0 t0).extractLsb' 8 3 = t2 := by
  simp only [packHalf, BitVec.extractLsb'_append_eq_ite]
  simp

@[simp] theorem extract_packHalf_low :
    (packHalf h3 t3 h2 t2 h1 t1 h0 t0).extractLsb' 7 1 = h1
      ∧ (packHalf h3 t3 h2 t2 h1 t1 h0 t0).extractLsb' 4 3 = t1
      ∧ (packHalf h3 t3 h2 t2 h1 t1 h0 t0).extractLsb' 3 1 = h0
      ∧ (packHalf h3 t3 h2 t2 h1 t1 h0 t0).extractLsb' 0 3 = t0 := by
  simp only [packHalf, BitVec.extractLsb'_append_eq_ite]
  simp

theorem getLsbD_packHalf_last : (packHalf h3 t3 h2 t2 h1 t1 h0 t0).getLsbD 15 = h3.getLsbD 0 := by
  simp only [packHalf, BitVec.getLsbD_append]
  simp

end

@[simp] theorem packNibble_extract (n : Nibble) : packNibble (n.extractLsb' 3 1) (n.extractLsb' 0 3) = n := by
  simp only [packNibble, BitVec.extractLsb'_append_extractLsb'_eq_extractLsb']
  exact BitVec.extractLsb'_eq_self

@[simp] theorem packByte_extract (b : Byte) :
    packByte (b.extractLsb' 7 1) (b.extractLsb' 4 3) (b.extractLsb' 3 1) (b.extractLsb' 0 3) = b := by
  simp only [packByte, BitVec.extractLsb'_append_extractLsb'_eq_extractLsb']
  exact BitVec.extractLsb'_eq_self

theorem packHalf_extract (a : Half) :
    packHalf (a.extractLsb' 15 1) (a.extractLsb' 12 3) (a.extractLsb' 11 1) (a.extractLsb' 8 3) (a.extractLsb' 7 1)
      (a.extractLsb' 4 3) (a.extractLsb' 3 1) (a.extractLsb' 0 3) = a := by
  simp only [packHalf, BitVec.extractLsb'_append_extractLsb'_eq_extractLsb']
  exact BitVec.extractLsb'_eq_self

/-- A piece of one bit is that bit. -/
theorem extract_one_eq_ofBool {w : Nat} (x : BitVec w) (i : Nat) : x.extractLsb' i 1 = BitVec.ofBool (x.getLsbD i) := by
  refine BitVec.eq_of_getLsbD_eq fun j hj => ?_
  obtain rfl : j = 0 := by omega
  simp

theorem extract_ushiftRight {w : Nat} (x : BitVec w) (n i k : Nat) :
    (x >>> n).extractLsb' i k = x.extractLsb' (n + i) k := by
  refine BitVec.eq_of_getLsbD_eq fun j hj => ?_
  simp [Nat.add_assoc]

/-- An address is in the upper half of the space where its bit 15 is set. -/
theorem getLsbD_last_eq_decide (a : Half) : a.getLsbD 15 = decide (0x8000 ≤ a.toNat) :=
  a.msb_eq_getLsbD_last.symm.trans a.msb_eq_decide

/-! ### The fields of a code's nibbles (R219) -/

theorem ggAddress_eq_packHalf (n : Nat → Nibble) :
    ggAddress (fun k => (n k).setWidth 16) =
      packHalf 1#1 ((n 3).extractLsb' 0 3) ((n 4).extractLsb' 3 1) ((n 5).extractLsb' 0 3) ((n 1).extractLsb' 3 1)
        ((n 2).extractLsb' 0 3) ((n 3).extractLsb' 3 1) ((n 4).extractLsb' 0 3) := by
  refine BitVec.eq_of_getLsbD_eq fun i hi => ?_
  simp only [ggAddress, packHalf, BitVec.getLsbD_append, BitVec.getLsbD_extractLsb']
  interval_cases i <;> simp

theorem ggValue_eq_packByte (n : Nat → Nibble) (last : Nibble) :
    ggValue (fun k => (n k).setWidth 8) (last.setWidth 8) =
      packByte ((n 0).extractLsb' 3 1) ((n 1).extractLsb' 0 3) (last.extractLsb' 3 1) ((n 0).extractLsb' 0 3) := by
  refine BitVec.eq_of_getLsbD_eq fun i hi => ?_
  simp only [ggValue, packByte, BitVec.getLsbD_append, BitVec.getLsbD_extractLsb']
  interval_cases i <;> simp

theorem ggCompare_eq_packByte (n : Nat → Nibble) :
    ggCompare (fun k => (n k).setWidth 8) =
      packByte ((n 6).extractLsb' 3 1) ((n 7).extractLsb' 0 3) ((n 5).extractLsb' 3 1) ((n 6).extractLsb' 0 3) := by
  refine BitVec.eq_of_getLsbD_eq fun i hi => ?_
  simp only [ggCompare, packByte, BitVec.getLsbD_append, BitVec.getLsbD_extractLsb']
  interval_cases i <;> simp

section
variable (n0 n1 n2 n3 n4 n5 n6 n7 : Nibble)

/-- The address of the table, from the five nibbles that carry it: bit 15 is set, and bit 3 of n2 is not read. -/
def addressOf : Half :=
  packHalf 1#1 (n3.extractLsb' 0 3) (n4.extractLsb' 3 1) (n5.extractLsb' 0 3) (n1.extractLsb' 3 1)
    (n2.extractLsb' 0 3) (n3.extractLsb' 3 1) (n4.extractLsb' 0 3)

theorem ggFields_six :
    ggFields [n0, n1, n2, n3, n4, n5] =
      { address := addressOf n1 n2 n3 n4 n5
        value := packByte (n0.extractLsb' 3 1) (n1.extractLsb' 0 3) (n5.extractLsb' 3 1) (n0.extractLsb' 0 3)
        compare := none } := by
  simp only [ggFields, ggAddress_eq_packHalf, ggValue_eq_packByte]
  rfl

theorem ggFields_eight :
    ggFields [n0, n1, n2, n3, n4, n5, n6, n7] =
      { address := addressOf n1 n2 n3 n4 n5
        value := packByte (n0.extractLsb' 3 1) (n1.extractLsb' 0 3) (n7.extractLsb' 3 1) (n0.extractLsb' 0 3)
        compare := some
          (packByte (n6.extractLsb' 3 1) (n7.extractLsb' 0 3) (n5.extractLsb' 3 1) (n6.extractLsb' 0 3)) } := by
  simp only [ggFields, ggAddress_eq_packHalf, ggValue_eq_packByte, ggCompare_eq_packByte]
  rfl

end

/-- A decoded address is in the upper half, whatever the code. -/
theorem ggFields_address_high (ns : List Nibble) : (ggFields ns).address.getLsbD 15 = true := by
  have hAddress : (ggFields ns).address = ggAddress (fun k => (ns.getD k 0).setWidth 16) := by
    simp only [ggFields]
    split <;> rfl
  rw [hAddress, ggAddress_eq_packHalf, getLsbD_packHalf_last]
  rfl

/-! ### The nibbles of a triple (R221) -/

section
variable (x y : Nibble)

/-- The masks of R221 put the low bits of one nibble and the top bit of another together. -/
theorem and_seven_or_and_eight : x &&& 7#4 ||| y &&& 8#4 = packNibble (y.extractLsb' 3 1) (x.extractLsb' 0 3) := by
  revert x y
  decide

theorem and_seven : x &&& 7#4 = packNibble 0#1 (x.extractLsb' 0 3) := by
  revert x
  decide

theorem and_seven_or_eight : x &&& 7#4 ||| 8#4 = packNibble 1#1 (x.extractLsb' 0 3) := by
  revert x
  decide

end

section
variable (a : Half) (v c : Byte)

theorem ggEncodeNibbles_none :
    ggEncodeNibbles a v none =
      [packNibble (v.extractLsb' 7 1) (v.extractLsb' 0 3), packNibble (a.extractLsb' 7 1) (v.extractLsb' 4 3),
       packNibble 0#1 (a.extractLsb' 4 3), packNibble (a.extractLsb' 3 1) (a.extractLsb' 12 3),
       packNibble (a.extractLsb' 11 1) (a.extractLsb' 0 3), packNibble (v.extractLsb' 3 1) (a.extractLsb' 8 3)] := by
  simp only [ggEncodeNibbles, BitVec.setWidth_or, BitVec.setWidth_and, BitVec.reduceSetWidth, and_seven_or_and_eight]
  simp [and_seven, extract_ushiftRight, BitVec.extractLsb'_setWidth_of_le]

theorem ggEncodeNibbles_some :
    ggEncodeNibbles a v (some c) =
      [packNibble (v.extractLsb' 7 1) (v.extractLsb' 0 3), packNibble (a.extractLsb' 7 1) (v.extractLsb' 4 3),
       packNibble 1#1 (a.extractLsb' 4 3), packNibble (a.extractLsb' 3 1) (a.extractLsb' 12 3),
       packNibble (a.extractLsb' 11 1) (a.extractLsb' 0 3), packNibble (c.extractLsb' 3 1) (a.extractLsb' 8 3),
       packNibble (c.extractLsb' 7 1) (c.extractLsb' 0 3), packNibble (v.extractLsb' 3 1) (c.extractLsb' 4 3)] := by
  simp [ggEncodeNibbles, and_seven_or_and_eight, and_seven_or_eight, extract_ushiftRight,
    BitVec.extractLsb'_setWidth_of_le]


/-! ### The two round trips, of the nibbles (R223) -/

/-- Encoded nibbles carry the triple they were made of, where its address is in the upper half. -/
theorem ggFields_ggEncodeNibbles (o : Option Byte) (ha : a.getLsbD 15 = true) :
    ggFields (ggEncodeNibbles a v o) = { address := a, value := v, compare := o } := by
  have hTop : a.extractLsb' 15 1 = 1#1 := by rw [extract_one_eq_ofBool, ha]; rfl
  have hAddress := packHalf_extract a
  rw [hTop] at hAddress
  cases o with
  | none => simp [ggEncodeNibbles_none, ggFields_six, addressOf, hAddress]
  | some c => simp [ggEncodeNibbles_some, ggFields_eight, addressOf, hAddress]

end

/-- The nibbles of a canonical code are the ones its triple is encoded to: the length bit is the one bit of them that
the triple does not hold (R217). -/
theorem ggEncodeNibbles_ggFields {ns : List Nibble} (hLength : ns.length = 6 ∨ ns.length = 8)
    (hCanonical : (ns.getD 2 0).getLsbD 3 = decide (ns.length = 8)) :
    ggEncodeNibbles (ggFields ns).address (ggFields ns).value (ggFields ns).compare = ns := by
  rcases hLength with hSix | hEight
  · match ns, hSix with
    | [n0, n1, n2, n3, n4, n5], _ =>
      have hBit : 0#1 = n2.extractLsb' 3 1 := by
        rw [extract_one_eq_ofBool, show n2.getLsbD 3 = false from hCanonical]
        rfl
      simp [ggFields_six, addressOf, ggEncodeNibbles_none, hBit]
  · match ns, hEight with
    | [n0, n1, n2, n3, n4, n5, n6, n7], _ =>
      have hBit : 1#1 = n2.extractLsb' 3 1 := by
        rw [extract_one_eq_ofBool, show n2.getLsbD 3 = true from hCanonical]
        rfl
      simp [ggFields_eight, addressOf, ggEncodeNibbles_some, hBit]

/-- A canonical code has 8 characters with a compare byte and 6 without. -/
theorem length_ggEncodeNibbles (a : Half) (v : Byte) (o : Option Byte) :
    (ggEncodeNibbles a v o).length = 6 ∨ (ggEncodeNibbles a v o).length = 8 := by
  cases o with
  | none => exact .inl rfl
  | some c => exact .inr rfl

/-! ### Characters and their nibbles (R215, R216) -/

section
variable {fold : Bool} {ch : Byte}

theorem isLower_of_mem_ggAlphabet : ∀ ch ∈ ggAlphabet, isLower ch = false := by decide

theorem isLower_ggLetter : ∀ n, isLower (ggLetter n) = false := by decide

/-- Folding keeps the letters of the alphabet, which are uppercase. -/
theorem foldCase_ggLetter (fold : Bool) (n : Nibble) : foldCase fold (ggLetter n) = ggLetter n := by
  simp [foldCase, isLower_ggLetter]

/-- The alphabet has no letter twice. -/
theorem findIdx?_ggLetter :
    ∀ n, (ggAlphabet.findIdx? fun l => l == ggLetter n).map (BitVec.ofNat 4) = some n := by decide

theorem ggNibble_of_letter {n : Nibble} (h : foldCase fold ch = ggLetter n) : ggNibble fold ch = some n := by
  rw [ggNibble, h, findIdx?_ggLetter]

/-- The characters taken are those that fold to a letter of the alphabet. -/
theorem inAlphabet_iff : inAlphabet fold ch ↔ foldCase fold ch ∈ ggAlphabet := by
  by_cases hFold : (isLower ch && fold) = true
  · obtain ⟨hLower, rfl⟩ := Bool.and_eq_true_iff.mp hFold
    have hNot : ch ∉ ggAlphabet := fun h => by simp [isLower_of_mem_ggAlphabet ch h] at hLower
    simp [inAlphabet, foldCase, hLower, hNot]
  · have hNot : ¬ (fold = true ∧ isLower ch = true ∧ ch - 0x20 ∈ ggAlphabet) :=
      fun ⟨hf, hl, _⟩ => hFold (by simp [hf, hl])
    rw [inAlphabet, foldCase, if_neg hFold, or_iff_left hNot]

theorem ggNibble_eq_none_iff : ggNibble fold ch = none ↔ ¬ inAlphabet fold ch := by
  rw [inAlphabet_iff, ggNibble, Option.map_eq_none_iff, List.findIdx?_eq_none_iff]
  constructor
  · intro hNone hMem
    simpa using hNone _ hMem
  · intro hNot l hl
    have hNe : l ≠ foldCase fold ch := fun he => hNot (he ▸ hl)
    simpa using hNe

end

/-! ### Codes and their nibbles (R220, R270) -/

theorem ggNibbles_of_letters {fold : Bool} {i : Nat} {cs : List Byte} {ns : List Nibble}
    (h : cs.map (foldCase fold) = ns.map ggLetter) : ggNibbles fold i cs = .ok ns := by
  induction cs generalizing i ns with
  | nil =>
    obtain rfl : ns = [] := by simpa using h.symm
    rfl
  | cons ch cs ih =>
    cases ns with
    | nil => simp at h
    | cons n ns =>
      obtain ⟨hHead, hTail⟩ := List.cons.inj h
      simp only [ggNibbles, ggNibble_of_letter hHead, ih hTail]

/-- The scan reports the first character outside the alphabet, by its index. -/
theorem ggNibbles_of_first_bad {fold : Bool} {i k : Nat} {cs : List Byte} {ch : Byte} (hAt : cs[k]? = some ch)
    (hBad : ¬ inAlphabet fold ch) (hFirst : ∀ j < k, ∀ c, cs[j]? = some c → inAlphabet fold c) :
    ggNibbles fold i cs = .error (i + k, ch) := by
  induction cs generalizing i k with
  | nil => simp at hAt
  | cons c cs ih =>
    cases k with
    | zero =>
      obtain rfl : c = ch := by simpa using hAt
      simp only [ggNibbles, ggNibble_eq_none_iff.mpr hBad, Nat.add_zero]
    | succ k =>
      obtain ⟨n, hn⟩ := Option.ne_none_iff_exists'.mp fun hNone =>
        ggNibble_eq_none_iff.mp hNone (hFirst 0 (Nat.succ_pos k) c rfl)
      have hRest : ggNibbles fold (i + 1) cs = .error (i + 1 + k, ch) :=
        ih hAt fun j hj c' hc' => hFirst (j + 1) (Nat.succ_lt_succ hj) c' hc'
      simp only [ggNibbles, hn, hRest, Nat.add_right_comm i 1 k, Nat.add_assoc]

/-- The error detail as one number: the character times 256, and its index. -/
theorem characterInfo_eq_ofNat {i : Nat} (ch : Byte) (hi : i < 256) :
    characterInfo i ch = BitVec.ofNat 32 (256 * ch.toNat + i) := by
  apply BitVec.eq_of_toNat_eq
  have hch := ch.isLt
  have hLow : (ch ++ BitVec.ofNat 8 i).toNat = 256 * ch.toNat + i := by
    rw [BitVec.toNat_append, BitVec.toNat_ofNat, Nat.mod_eq_of_lt hi, ← Nat.shiftLeft_add_eq_or_of_lt hi,
      Nat.shiftLeft_eq, Nat.mul_comm]
  calc (characterInfo i ch).toNat
      = (ch ++ BitVec.ofNat 8 i).toNat := by simp only [characterInfo, BitVec.toNat_append]; simp
    _ = (BitVec.ofNat 32 (256 * ch.toNat + i)).toNat := by
        rw [hLow, BitVec.toNat_ofNat, Nat.mod_eq_of_lt (by omega)]

/-! ### The registers (R36) -/

theorem Bank8.getElem?_toList {α : Type} (b : Bank8 α) (i : Fin 8) : b.toList[i.val]? = some (b.get i) := by
  fin_cases i <;> rfl

section
variable (g : GgRegs) {ns : List Nibble}

theorem GgRegs.getElem?_code {len : Nat} {i : Fin 8} (h : i.val < len) :
    (g.code len)[i.val]? = some (g.char.get i) := by
  rw [GgRegs.code, List.getElem?_take_of_lt h, Bank8.getElem?_toList]

/-- The code read back from the registers it was written to. -/
theorem GgRegs.code_withCode (h : ns.length ≤ 8) : (g.withCode ns).code ns.length = ns.map ggLetter := by
  refine List.ext_getElem (by simp [GgRegs.code, h]) fun i hi hi' => ?_
  rw [List.length_map] at hi'
  have hRead := (g.withCode ns).getElem?_code (i := ⟨i, by omega⟩) hi'
  rw [List.getElem?_eq_getElem hi] at hRead
  simpa [hi'] using hRead

/-- The triple read back from the registers it was written to. -/
theorem GgRegs.triple_withTriple (t : Triple) : (g.withTriple t).triple = t := by
  obtain ⟨a, v, o⟩ := t
  cases o <;> rfl

/-- `GG_HASCMP` is 1 exactly where the triple has a compare byte, so writing a triple read restores it. -/
theorem GgRegs.withTriple_triple_hasCmp (g' : GgRegs) : (g.withTriple g'.triple).hasCmp = g'.hasCmp := by
  rcases BitVec.eq_zero_or_eq_one g'.hasCmp with h | h <;> simp [GgRegs.triple, h]

theorem GgRegs.withTriple_triple_cmp (g' : GgRegs) :
    (g.withTriple g'.triple).cmp = if g'.hasCmp = 1 then g'.cmp else 0 := by
  simp only [GgRegs.withTriple_cmp, GgRegs.triple]
  split <;> rfl

end

/-! ### The two commands (R220, R222) -/

section
variable {s : State} {ns : List Nibble}

theorem exec_ggDecode_of_length (h6 : s.gg.clen ≠ 6) (h8 : s.gg.clen ≠ 8) :
    exec .ggDecode s = raise .invalidLength (s.gg.clen.setWidth 32) s :=
  if_pos ⟨h6, h8⟩

theorem exec_ggDecode_of_bad_character {i : Nat} {ch : Byte} (hLength : s.gg.clen = 6 ∨ s.gg.clen = 8)
    (h : ggNibbles s.cfg.ggCaseFold 0 (s.gg.code s.gg.clen.toNat) = .error (i, ch)) :
    exec .ggDecode s = raise .invalidCharacter (characterInfo i ch) s := by
  change execGgDecode s = _
  rw [execGgDecode, if_neg (by tauto), h]

/-- A code of letters, folded where the implementation folds, is decoded to their triple. -/
theorem exec_ggDecode_of_letters (hClen : ns.length = s.gg.clen.toNat) (hLength : ns.length = 6 ∨ ns.length = 8)
    (hCode : (s.gg.code ns.length).map (foldCase s.cfg.ggCaseFold) = ns.map ggLetter) :
    exec .ggDecode s = .next { s with gg := s.gg.withTriple (ggFields ns), status := 0 } := by
  have hEither : s.gg.clen = 6 ∨ s.gg.clen = 8 := by
    rw [hClen] at hLength
    exact hLength.imp BitVec.eq_of_toNat_eq BitVec.eq_of_toNat_eq
  have hNibbles : ggNibbles s.cfg.ggCaseFold 0 (s.gg.code s.gg.clen.toNat) = .ok ns :=
    ggNibbles_of_letters (hClen ▸ hCode)
  change execGgDecode s = _
  rw [execGgDecode, if_neg (by tauto), hNibbles]
  rfl

theorem exec_ggEncode_of_low (h : s.gg.addr.toNat < 0x8000) :
    exec .ggEncode s = .next { s with status := 7, errinfo := s.gg.addr.setWidth 32 } := by
  have hBit : s.gg.addr.getLsbD 15 = false := (getLsbD_last_eq_decide _).trans (decide_eq_false (Nat.not_le.mpr h))
  exact (if_pos hBit).trans (raise_next.mpr rfl)

theorem exec_ggEncode_of_high (h : s.gg.addr.getLsbD 15 = true) :
    exec .ggEncode s = .next { s with
      gg := s.gg.withCode (ggEncodeNibbles s.gg.triple.address s.gg.triple.value s.gg.triple.compare)
      status := 0 } :=
  (if_neg (by simp [h])).trans (finish_next.mpr rfl)

end

/-! ### The statements -/

/-- Settles O37: the encoded letters are read back as the encoded nibbles, whose fields are the triple. -/
theorem ggEncodeThenDecodeRestoresTheTriple : Obligations.GgEncodeThenDecodeRestoresTheTriple := by
  unfold Obligations.GgEncodeThenDecodeRestoresTheTriple
  intro s hAddr
  have hHigh : s.gg.addr.getLsbD 15 = true := (getLsbD_last_eq_decide _).trans (decide_eq_true hAddr)
  set ns := ggEncodeNibbles s.gg.triple.address s.gg.triple.value s.gg.triple.compare
  have hFields : ggFields ns = s.gg.triple := ggFields_ggEncodeNibbles _ _ _ hHigh
  have hLength : ns.length = 6 ∨ ns.length = 8 := length_ggEncodeNibbles ..
  have hDecode := exec_ggDecode_of_letters (s := { s with gg := s.gg.withCode ns, status := 0 }) (ns := ns)
    (by rcases hLength with h | h <;> simp [h]) hLength
    (by simp [GgRegs.code_withCode s.gg (by omega : ns.length ≤ 8), foldCase_ggLetter])
  rw [hFields] at hDecode
  have hRun := (runCommands_cons (exec_ggEncode_of_high hHigh)).trans (runCommands_cons (is := []) hDecode)
  exact ⟨_, hRun, rfl, rfl, rfl, GgRegs.withTriple_triple_hasCmp .., GgRegs.withTriple_triple_cmp ..⟩

/-- Settles O38: the decoded triple's address is in the upper half, and its nibbles are the code's. -/
theorem ggDecodeThenEncodeRestoresTheCode : Obligations.GgDecodeThenEncodeRestoresTheCode := by
  unfold Obligations.GgDecodeThenEncodeRestoresTheCode
  intro s ns hClen hLength hCode hCanonical
  have hDecode := exec_ggDecode_of_letters hClen hLength hCode
  have hEncode := exec_ggEncode_of_high (s := { s with gg := s.gg.withTriple (ggFields ns), status := 0 })
    (ggFields_address_high ns)
  rw [GgRegs.triple_withTriple, ggEncodeNibbles_ggFields hLength hCanonical] at hEncode
  have hRun := (runCommands_cons hDecode).trans (runCommands_cons (is := []) hEncode)
  have hLen : BitVec.ofNat 4 ns.length = s.gg.clen := by rw [hClen, BitVec.ofNat_toNat, BitVec.setWidth_eq]
  exact ⟨_, hRun, rfl, hLen, GgRegs.code_withCode _ (by omega)⟩

/-- Settles O34: the two lengths of a decoded code. -/
theorem ggDecodeFollowsTheBitLayout : Obligations.GgDecodeFollowsTheBitLayout := by
  unfold Obligations.GgDecodeFollowsTheBitLayout
  rintro s n0 n1 n2 n3 n4 n5 n6 n7 _ rfl
  refine ⟨fun hClen hCode => ?_, fun hClen hCode => ?_⟩
  · rw [exec_ggDecode_of_letters (ns := [n0, n1, n2, n3, n4, n5]) (by rw [hClen]; rfl) (.inl rfl) hCode,
      ggFields_six]
    rfl
  · rw [exec_ggDecode_of_letters (ns := [n0, n1, n2, n3, n4, n5, n6, n7]) (by rw [hClen]; rfl) (.inr rfl) hCode,
      ggFields_eight]
    rfl

/-- Settles O35: the length check comes first, then the scan from index 0. -/
theorem ggDecodeReportsTheFirstError : Obligations.GgDecodeReportsTheFirstError := by
  unfold Obligations.GgDecodeReportsTheFirstError
  intro s
  refine ⟨fun h6 h8 => ?_, fun i hLength hi hBad hFirst => ?_⟩
  · rw [exec_ggDecode_of_length h6 h8, BitVec.ofNat_toNat]
    rfl
  · have hScan : ggNibbles s.cfg.ggCaseFold 0 (s.gg.code s.gg.clen.toNat) = .error (0 + i.val, s.gg.char.get i) := by
      refine ggNibbles_of_first_bad (s.gg.getElem?_code hi) hBad fun j hj c hc => ?_
      have hRead := s.gg.getElem?_code (i := ⟨j, hj.trans i.isLt⟩) (hj.trans hi)
      obtain rfl : s.gg.char.get ⟨j, hj.trans i.isLt⟩ = c := Option.some.inj (hRead.symm.trans hc)
      exact hFirst ⟨j, _⟩ hj
    rw [exec_ggDecode_of_bad_character hLength hScan, ← characterInfo_eq_ofNat _ (by omega), Nat.zero_add]
    rfl

/-- Settles O36: the check of bit 15, then the nibbles with and without a compare byte. -/
theorem ggEncodeWritesTheCanonicalCode : Obligations.GgEncodeWritesTheCanonicalCode := by
  unfold Obligations.GgEncodeWritesTheCanonicalCode
  rintro s _ _ _ _ rfl rfl rfl rfl
  have hBit : 0x8000 ≤ s.gg.addr.toNat → s.gg.addr.getLsbD 15 = true := fun h =>
    (getLsbD_last_eq_decide _).trans (decide_eq_true h)
  refine ⟨exec_ggEncode_of_low, fun hAddr hCmp => ?_, fun hAddr hCmp => ?_⟩
  · have hCompare : s.gg.triple.compare = none := by simp [GgRegs.triple, hCmp]
    rw [exec_ggEncode_of_high (hBit hAddr), hCompare, ggEncodeNibbles_none]
    rfl
  · have hCompare : s.gg.triple.compare = some s.gg.cmp := by simp [GgRegs.triple, hCmp]
    rw [exec_ggEncode_of_high (hBit hAddr), hCompare, ggEncodeNibbles_some]
    rfl

end Sys2Proof.Machine
end

section
/-! O39 to O43. The PRNG (45_prng.md): how each of its three commands ends, said once as an equation, then what a run of
`PRNG_STEP`s leaves (R241) and what the engine's two procedures answer (R242). -/
namespace Sys2Proof.Machine

/-! ### The iterates (R237) -/

theorem iter_eq_iterate (f : Half → Half) (k : Nat) (x : Half) : iter f k x = f^[k] x := by
  induction k with
  | zero => rfl
  | succ k ih => rw [iter_succ, ih, Function.iterate_succ_apply']

/-- `iter` applies the transition last; it may as well be applied first. -/
theorem iter_succ_apply (f : Half → Half) (k : Nat) (x : Half) : iter f (k + 1) x = iter f k (f x) := by
  rw [iter_eq_iterate, iter_eq_iterate, Function.iterate_succ_apply]

/-- The first to the `k + 1`-th iterate are the image of the start and the first to the `k`-th iterate of that. -/
theorem map_iter_range_succ (f : Half → Half) (k : Nat) (x : Half) :
    (List.range (k + 1)).map (fun j => iter f (j + 1) x) =
      f x :: (List.range k).map fun j => iter f (j + 1) (f x) := by
  simp only [List.range_succ_eq_map, List.map_cons, List.map_map, Function.comp_def, ← iter_succ_apply,
    Nat.succ_eq_add_one]
  rfl

theorem setWidth_of_toNat_mod {v : Word} {n : Half} (h : n.toNat = v.toNat % 65536) : v.setWidth 16 = n :=
  BitVec.eq_of_toNat_eq ((BitVec.toNat_setWidth 16 v).trans h.symm)

theorem setWidth_setWidth_word (n : Half) : (n.setWidth 32 : Word).setWidth 16 = n := by simp

/-! ### The three commands (R238 to R240) -/

/-- The PRNG registers one transition on; the count wraps (R240). -/
def PrngRegs.stepped (c : Config) (p : PrngRegs) : PrngRegs :=
  { p with state := prngStep c p.state, iter := p.iter + 1 }

/-- Before the count wraps, a step counted from the seed is one transition more from the seed. -/
theorem PrngRegs.stepped_prngFrom (c : Config) (seed : Half) {n : Half} (h : n.toNat + 1 < 65536) :
    (prngFrom c seed n).stepped c = prngFrom c seed (n + 1) := by
  have hCount : (n + 1).toNat = n.toNat + 1 := by bv_omega
  simp only [PrngRegs.stepped, prngFrom, hCount, iter_succ]

section
variable {s : State}

theorem exec_prngInit (s : State) :
    exec .prngInit s = .next { s with
      prng := prngFrom s.cfg (s.arg0.setWidth 16) (s.arg1.setWidth 16)
      flags := { s.flags with prngValid := true }
      status := 0 } :=
  execPrngInit_next.mpr rfl

theorem exec_prngSetIt_of_invalid (h : s.flags.prngValid = false) :
    exec .prngSetIt s = .next { s with status := 9, errinfo := 0x42 } :=
  (if_pos h).trans (raise_next.mpr rfl)

theorem exec_prngSetIt_of_valid (h : s.flags.prngValid = true) :
    exec .prngSetIt s = .next { s with
      prng := prngFrom s.cfg s.prng.seed (s.arg0.setWidth 16)
      status := 0 } :=
  (if_neg (by simp [h])).trans (finish_next.mpr rfl)

theorem exec_prngStep_of_invalid (h : s.flags.prngValid = false) :
    exec .prngStep s = .next { s with status := 9, errinfo := 0x41 } :=
  (if_pos h).trans (raise_next.mpr rfl)

theorem exec_prngStep_of_valid (h : s.flags.prngValid = true) :
    exec .prngStep s = .next { s with prng := s.prng.stepped s.cfg, status := 0 } :=
  (if_neg (by simp [h])).trans (finish_next.mpr rfl)

/-! ### A run of steps (R241) -/

/-- From `n` transitions after the seed, `k` steps reach `m = n + k` transitions after it, and change nothing else but
`STATUS`. -/
theorem runCommands_prngStep {seed n m : Half} {k : Nat} (hValid : s.flags.prngValid = true)
    (hFrom : s.prng = prngFrom s.cfg seed n) (hCount : m.toNat = n.toNat + k) :
    ∃ c, runCommands (List.replicate k .prngStep) s = .next { s with prng := prngFrom s.cfg seed m, status := c } := by
  induction k generalizing s n with
  | zero =>
    obtain rfl : m = n := BitVec.eq_of_toNat_eq hCount
    exact ⟨s.status, by rw [← hFrom]; rfl⟩
  | succ k ih =>
    have hBound : n.toNat + 1 < 65536 := by
      have := m.isLt
      omega
    have hStep := exec_prngStep_of_valid hValid
    rw [hFrom, PrngRegs.stepped_prngFrom _ _ hBound] at hStep
    rw [List.replicate_succ, runCommands_cons hStep]
    exact ih hValid rfl (by bv_omega)

/-! ### The engine's procedures (R242) -/

theorem putReg_ok {q : Reg} (hq : q ≠ .cmd) (v : Word) (s : State) : putReg q v s = .ok (writeReg v s q) :=
  access_eq_ok.mpr (hostWrite_reg rfl hq v s)

/-- The state in which both procedures begin: the arguments written and `PRNG_INIT` run. -/
def State.prngStarted (s : State) (seed n : Half) : State :=
  { s with
    arg0 := seed.setWidth 32, arg1 := n.setWidth 32, cmd := 0x40, status := 0
    prng := prngFrom s.cfg seed n, flags := { s.flags with prngValid := true } }

theorem runCommand_prngInit (s : State) (seed n : Half) :
    runCommand 0x40 (writeReg (n.setWidth 32) (writeReg (seed.setWidth 32) s .arg0) .arg1)
      = .ok (s.prngStarted seed n) := by
  refine runCommand_ok ((exec_prngInit _).trans ?_)
  simp only [writeReg, setWidth_setWidth_word, State.prngStarted]

theorem getReg_prngState (hValid : s.flags.prngValid = true) :
    getReg .prngState s = .ok (s.prng.state.setWidth 32) :=
  getReg_of_readable (q := .prngState) hValid

/-- The state that the procedure's `CMD PRNG_STEP` leaves. -/
def State.prngStepped (s : State) : State :=
  { s with cmd := 0x41, status := 0, prng := s.prng.stepped s.cfg }

theorem runCommand_prngStep (hValid : s.flags.prngValid = true) : runCommand 0x41 s = .ok s.prngStepped :=
  runCommand_ok (exec_prngStep_of_valid hValid)

/-- One round of the loop adds the next iterate. -/
theorem enumerate_succ (hValid : s.flags.prngValid = true) (k : Nat) (vs : List Half) :
    enumerate (k + 1) vs s = enumerate k (vs ++ [prngStep s.cfg s.prng.state]) s.prngStepped := by
  have hRead := getReg_prngState (s := s.prngStepped) hValid
  simp only [enumerate, runCommand_prngStep hValid, bind, Except.bind, hRead, setWidth_setWidth_word]
  rfl

/-- The loop lists the iterates of the state it begins in, that state not among them. -/
theorem enumerate_ok (hValid : s.flags.prngValid = true) (k : Nat) (vs : List Half) :
    ∃ t, enumerate k vs s =
      .ok (vs ++ (List.range k).map (fun j => iter (prngStep s.cfg) (j + 1) s.prng.state), t) := by
  induction k generalizing s vs with
  | zero => exact ⟨s, by rw [List.range_zero, List.map_nil, List.append_nil]; rfl⟩
  | succ k ih =>
    obtain ⟨t, ht⟩ := ih (s := s.prngStepped) hValid (vs ++ [prngStep s.cfg s.prng.state])
    refine ⟨t, ?_⟩
    rw [enumerate_succ hValid, ht, map_iter_range_succ, List.append_assoc]
    rfl

theorem prngFinal_ok (seed n : Half) (s : State) :
    prngFinal seed n s = .ok
      { final := s.prngStarted seed n, artifact := some (iter (prngStep s.cfg) n.toNat seed), error := none } := by
  have hRead := getReg_prngState (s := s.prngStarted seed n) rfl
  simp only [prngFinal, putReg_ok, ne_eq, reduceCtorEq, not_false_eq_true, bind, Except.bind, runCommand_prngInit,
    hRead, setWidth_setWidth_word]
  rfl

theorem prngEnumerate_of_enumerate {seed : Half} {k : Nat} {vs : List Half} {t : State}
    (h : enumerate k [] (s.prngStarted seed 0) = .ok (vs, t)) :
    prngEnumerate seed k s = .ok { final := t, artifact := some vs, error := none } := by
  have hInit : runCommand 0x40 (writeReg 0 (writeReg (seed.setWidth 32) s .arg0) .arg1) = .ok (s.prngStarted seed 0) :=
    runCommand_prngInit s seed 0
  simp only [prngEnumerate, putReg_ok, ne_eq, reduceCtorEq, not_false_eq_true, bind, Except.bind, hInit, h]
  rfl

end

/-! ### The statements -/

/-- Settles O42: `k` steps from `n0` transitions after the seed reach the registers that `prngFrom` gives for
`n0 + k`, and those are the ones that `PRNG_SET_IT` sets. -/
theorem prngStepsReproduceSetIt : Obligations.PrngStepsReproduceSetIt := by
  unfold Obligations.PrngStepsReproduceSetIt
  intro s k hValid hState hBound
  have hFrom : s.prng = prngFrom s.cfg s.prng.seed s.prng.iter := by rw [prngFrom, ← hState]
  have hCount : (BitVec.ofNat 16 (s.prng.iter.toNat + k)).toNat = s.prng.iter.toNat + k := Nat.mod_eq_of_lt hBound
  obtain ⟨c, hRun⟩ := runCommands_prngStep hValid hFrom hCount
  refine ⟨_, hRun, rfl, hCount, rfl, rfl, _, exec_prngSetIt_of_valid hValid, ?_⟩
  simp only [prngFrom_iter, setWidth_setWidth_word]

/-- Settles O43: both procedures begin with the registers `prngFrom` gives; the first then lists the iterates of the
seed, the second reads the state as it stands. -/
theorem prngEnumerationListsTheIterates : Obligations.PrngEnumerationListsTheIterates := by
  unfold Obligations.PrngEnumerationListsTheIterates
  intro s seed n k
  refine ⟨?_, _, prngFinal_ok seed n s, rfl⟩
  obtain ⟨t, hEnumerate⟩ := enumerate_ok (s := s.prngStarted seed 0) rfl k []
  exact ⟨_, prngEnumerate_of_enumerate hEnumerate, rfl, rfl⟩

/-- Settles O39: the low 16 bits of the two arguments are the seed and the count. -/
theorem prngInitIteratesFromTheSeed : Obligations.PrngInitIteratesFromTheSeed := by
  unfold Obligations.PrngInitIteratesFromTheSeed
  intro s seed n hSeed hCount
  rw [exec_prngInit, setWidth_of_toNat_mod hSeed, setWidth_of_toNat_mod hCount]
  rfl

/-- Settles O40: the two ways a `PRNG_SET_IT` ends. -/
theorem prngSetItCountsFromTheSeed : Obligations.PrngSetItCountsFromTheSeed := by
  unfold Obligations.PrngSetItCountsFromTheSeed
  intro s n hCount
  refine ⟨exec_prngSetIt_of_invalid, fun hValid => ?_⟩
  rw [exec_prngSetIt_of_valid hValid, setWidth_of_toNat_mod hCount]
  rfl

/-- Settles O41: the two ways a `PRNG_STEP` ends; the 16-bit count is the unbounded one mod 2^16. -/
theorem prngStepAppliesTheTransitionOnce : Obligations.PrngStepAppliesTheTransitionOnce := by
  unfold Obligations.PrngStepAppliesTheTransitionOnce
  intro s
  refine ⟨exec_prngStep_of_invalid, fun hValid => ?_⟩
  have hCount : BitVec.ofNat 16 ((s.prng.iter.toNat + 1) % 65536) = s.prng.iter + 1 := by bv_omega
  rw [exec_prngStep_of_valid hValid, hCount]
  rfl

end Sys2Proof.Machine
end

section
/-! O1 to O3. The command cycle (46_control.md R258) and the two commands of no unit (R255, R256). -/
namespace Sys2Proof.Machine
section
variable {s : State} {v : Word}

theorem exec_nop (s : State) : exec .nop s = .next { s with status := 0 } := execNop_next.mpr rfl

theorem exec_illegalCommand (code : Byte) (s : State) :
    exec (.illegalCommand code) s = .next { s with status := 8, errinfo := code.setWidth 32 } :=
  execIllegalCommand_next.mpr rfl

/-- A command cycle whose code no command has runs the illegal command with that code (R71, R256). -/
theorem commandCycle_of_unassigned (h : (v.setWidth 8 : Byte) ∉ commandCodes) :
    commandCycle v s = .next
      { s with cmd := v.setWidth 8, status := 8, errinfo := (v.setWidth 8 : Byte).setWidth 32 } := by
  rw [commandCycle, decodeCommand_unassigned h, exec_illegalCommand]

/-- A step at a write of `CMD` is the command cycle with that access done (R258). -/
theorem step_cmdWrite {rest : List Event} (hProduced : s.holdsUnproduced = false)
    (hPending : s.pending = .write 0x00 v :: rest) : step s = commandCycle v { s with pending := rest } :=
  (step_perform hProduced hPending).trans (hostWrite_cmd v _)

end

/-- Settles O1: `NOP` ends with status 0. -/
theorem nopClearsStatusOnly : Obligations.NopClearsStatusOnly := by
  unfold Obligations.NopClearsStatusOnly
  exact exec_nop

/-- Settles O2: the write of `CMD` runs the illegal command, which leaves `CMD` as it is, and `CMD` is never gated. -/
theorem illegalCommandReportsItsCode : Obligations.IllegalCommandReportsItsCode := by
  unfold Obligations.IllegalCommandReportsItsCode
  refine ⟨exec_illegalCommand, fun v s hCode => ⟨_, ?_, rfl, hostRead_readable (q := .cmd) rfl rfl⟩⟩
  rw [hostWrite_cmd, commandCycle_of_unassigned hCode]

/-- Settles O3: the step is the command cycle, whose command is the one the byte decodes to; what decodes is
well-formed and of its code space. -/
theorem cmdWriteRunsTheDecodedCommand : Obligations.CmdWriteRunsTheDecodedCommand := by
  unfold Obligations.CmdWriteRunsTheDecodedCommand
  intro s v rest i hProduced hPending hDecode
  obtain ⟨hWf, hSpace, -⟩ := decodedInstructionEncodesToItsBytes _ _ _ _ hDecode
  obtain rfl : decodeCommand (v.setWidth 8) = i := by simpa [decode] using hDecode
  exact ⟨step_cmdWrite hProduced hPending, hWf, hSpace⟩

end Sys2Proof.Machine
end

section
/-! O13, O53, O54, O56. How an instruction can end, said once for all of them (60_exceptions.md R265, R271, R282):
`Ending` has one constructor for each way, which shows the units it writes and the status it leaves. What a command
keeps and which status it may leave are read off it. -/
namespace Sys2Proof.Machine

/-- `Ending s i t`: instruction `i` may end at `t` when it runs at `s`. The values written stand as variables; which
registers, flags and status are written is exact. A 6502 instruction ends as the `DIS_NEXT` that meets it does. -/
inductive Ending (s : State) : Instr → State → Prop
  | nop : Ending s .nop { s with status := 0 }
  | illegalCommand (code : Byte) : Ending s (.illegalCommand code) { s with status := 8, errinfo := code.setWidth 32 }
  | headerRejected (info : Word) :
      Ending s .hdrParse { s with flags := s.flags.dropHeader, status := 1, errinfo := info }
  | headerAccepted (hdr : HdrRegs) (prgOff prgLen chrOff chrLen : Word) :
      Ending s .hdrParse { s with
        hdr := hdr
        chr := { s.chr with base := chrOff, len := chrLen }
        dis := { s.dis with base := prgOff, len := prgLen }
        flags := { s.flags with hdrValid := true }.closeChr.closeDis
        status := 0 }
  | tilesUneven (info : Word) :
      Ending s .chrRestart { s with flags := s.flags.closeChr, status := 2, errinfo := info }
  | tilesPast (info : Word) :
      Ending s .chrRestart { s with flags := s.flags.closeChr, status := 10, errinfo := info }
  | tilesOpened (chr : ChrRegs) :
      Ending s .chrRestart { s with
        chr := chr, flags := { s.flags with chrReady := true, chrEnd := false, tileValid := false }, status := 0 }
  | tilesClosed : Ending s .chrNext { s with status := 9, errinfo := 0x11 }
  | tilesEnded :
      Ending s .chrNext { s with flags := { s.flags with chrEnd := true, tileValid := false }, status := 0 }
  | tileDelivered (chr : ChrRegs) :
      Ending s .chrNext { s with chr := chr, flags := { s.flags with tileValid := true }, status := 0 }
  | entriesPast (info : Word) :
      Ending s .disStart { s with flags := s.flags.closeDis, status := 10, errinfo := info }
  | entriesOpened (dis : DisRegs) :
      Ending s .disStart { s with
        dis := dis, flags := { s.flags with disReady := true, disEnd := false, disValid := false }, status := 0 }
  | entriesClosed {i : Instr} (hi : i = .disNext ∨ i.space = .opcode) :
      Ending s i { s with status := 9, errinfo := 0x21 }
  | entriesStopped {i : Instr} (hi : i = .disNext ∨ i.space = .opcode) : Ending s i { s with status := 0 }
  | entriesEnded {i : Instr} (hi : i = .disNext ∨ i.space = .opcode) :
      Ending s i { s with flags := { s.flags with disEnd := true, disValid := false }, status := 0 }
  | entryTruncated {i : Instr} (hi : i = .disNext ∨ i.space = .opcode) (info : Word) :
      Ending s i { s with
        flags := { s.flags with disEnd := true, disValid := false }, status := 3, errinfo := info }
  | entryDelivered {i : Instr} (hi : i = .disNext ∨ i.space = .opcode) (dis : DisRegs) :
      Ending s i { s with dis := dis, flags := { s.flags with disValid := true }, status := 0 }
  | codeLength (info : Word) : Ending s .ggDecode { s with status := 4, errinfo := info }
  | codeCharacter (info : Word) : Ending s .ggDecode { s with status := 5, errinfo := info }
  | codeDecoded (gg : GgRegs) : Ending s .ggDecode { s with gg := gg, status := 0 }
  | addressLow (info : Word) : Ending s .ggEncode { s with status := 7, errinfo := info }
  | codeEncoded (gg : GgRegs) : Ending s .ggEncode { s with gg := gg, status := 0 }
  | prngSeeded (prng : PrngRegs) :
      Ending s .prngInit { s with prng := prng, flags := { s.flags with prngValid := true }, status := 0 }
  | prngUnseeded {i : Instr} (hi : i = .prngStep ∨ i = .prngSetIt) (info : Word) :
      Ending s i { s with status := 9, errinfo := info }
  | prngMoved {i : Instr} (hi : i = .prngStep ∨ i = .prngSetIt) (prng : PrngRegs) :
      Ending s i { s with prng := prng, status := 0 }

section
variable {i : Instr} {s t : State}

/-! ### Every instruction that ends has one of these endings -/

theorem execHdrParse_ends (h : execHdrParse s = .next t) : Ending s .hdrParse t := by
  rcases execHdrParse_next h with ⟨reason, v, -, rfl⟩ | ⟨bs, -, -, -, -, hAccept⟩
  · exact .headerRejected _
  · obtain rfl := acceptHeader_next.mp hAccept
    exact .headerAccepted ..

theorem execChrRestart_ends (h : execChrRestart s = .next t) : Ending s .chrRestart t := by
  rcases execChrRestart_next h with ⟨c, info, rfl | rfl, rfl⟩ | ⟨-, -, rfl⟩
  · exact .tilesUneven info
  · exact .tilesPast info
  · exact .tilesOpened _

theorem execChrNext_ends (h : execChrNext s = .next t) : Ending s .chrNext t := by
  rcases execChrNext_next h with ⟨-, rfl⟩ | ⟨-, -, rfl⟩ | ⟨-, -, b, -, hTile⟩
  · exact .tilesClosed
  · exact .tilesEnded
  · obtain rfl := deliverTile_next.mp hTile
    exact .tileDelivered _

theorem execDisStart_ends (h : execDisStart s = .next t) : Ending s .disStart t := by
  rcases execDisStart_next h with ⟨-, rfl⟩ | ⟨-, rfl⟩
  · exact .entriesPast _
  · exact .entriesOpened _

theorem disFinish_ends (hi : i = .disNext ∨ i.space = .opcode) {d : Decoded} (h : disFinish d s = .next t) :
    Ending s i t := by
  cases d with
  | stop =>
    obtain rfl := disFinish_stop_next.mp h
    exact .entriesEnded hi
  | truncated c =>
    obtain rfl := disFinish_truncated_next.mp h
    exact .entryTruncated hi c
  | entry e =>
    obtain rfl := disFinish_entry_next.mp h
    exact .entryDelivered hi _

theorem execDisNext_ends (h : execDisNext s = .next t) : Ending s .disNext t := by
  rcases execDisNext_next h with ⟨-, rfl⟩ | ⟨-, -, rfl⟩ | ⟨-, -, d, -, hFinish⟩
  · exact .entriesClosed (.inl rfl)
  · exact .entriesStopped (.inl rfl)
  · exact disFinish_ends (.inl rfl) hFinish

theorem decodeAs_ends {op : Byte} {m : Mnemonic} {mode : Mode} {bytes : List Byte} (hi : i.space = .opcode)
    (h : decodeAs op m mode bytes s = .next t) : Ending s i t := by
  rcases decodeAs_next h with ⟨-, rfl⟩ | ⟨-, -, rfl⟩ | ⟨-, -, d, hFinish, -⟩
  · exact .entriesClosed (.inr hi)
  · exact .entriesStopped (.inr hi)
  · exact disFinish_ends (.inr hi) hFinish

theorem execGgDecode_ends (h : execGgDecode s = .next t) : Ending s .ggDecode t := by
  rcases execGgDecode_next h with ⟨-, -, rfl⟩ | ⟨-, ⟨n, ch, -, rfl⟩ | ⟨ns, -, rfl⟩⟩
  · exact .codeLength _
  · exact .codeCharacter _
  · exact .codeDecoded _

theorem execGgEncode_ends (h : execGgEncode s = .next t) : Ending s .ggEncode t := by
  rcases execGgEncode_next h with ⟨-, rfl⟩ | ⟨-, rfl⟩
  · exact .addressLow _
  · exact .codeEncoded _

theorem execPrngStep_ends (h : execPrngStep s = .next t) : Ending s .prngStep t := by
  rcases execPrngStep_next h with ⟨-, rfl⟩ | ⟨-, rfl⟩
  · exact .prngUnseeded (.inl rfl) _
  · exact .prngMoved (.inl rfl) _

theorem execPrngSetIt_ends (h : execPrngSetIt s = .next t) : Ending s .prngSetIt t := by
  rcases execPrngSetIt_next h with ⟨-, rfl⟩ | ⟨-, rfl⟩
  · exact .prngUnseeded (.inr rfl) _
  · exact .prngMoved (.inr rfl) _

/-- A 6502 instruction that ends has run the template (R155). -/
theorem exec_opcode_next (hi : i.space = .opcode) (h : exec i s = .next t) :
    ∃ op m mode bytes, ∀ u, exec i u = decodeAs op m mode bytes u := by
  cases he : i.entry? with
  | some e =>
    obtain ⟨op, hOp, -⟩ := decodeForm_next ((exec_of_entry he).symm.trans h)
    exact ⟨op, e.1, e.2.mode, e.2.bytes, fun u => exec_of_form he hOp⟩
  | none =>
    cases i with
    | opIllegal op => exact ⟨op, .illegal, .imp, [], fun u => exec_opIllegal⟩
    | nop | hdrParse | chrRestart | chrNext | disStart | disNext | ggDecode | ggEncode | prngInit | prngStep
    | prngSetIt | illegalCommand => cases hi
    | _ => cases he

theorem exec_ends (h : exec i s = .next t) : Ending s i t := by
  cases hSpace : i.space with
  | opcode =>
    obtain ⟨op, m, mode, bytes, hRun⟩ := exec_opcode_next hSpace h
    exact decodeAs_ends hSpace ((hRun s).symm.trans h)
  | command =>
    cases i with
    | nop =>
      obtain rfl := execNop_next.mp h
      exact .nop
    | hdrParse => exact execHdrParse_ends h
    | chrRestart => exact execChrRestart_ends h
    | chrNext => exact execChrNext_ends h
    | disStart => exact execDisStart_ends h
    | disNext => exact execDisNext_ends h
    | ggDecode => exact execGgDecode_ends h
    | ggEncode => exact execGgEncode_ends h
    | prngInit =>
      obtain rfl := execPrngInit_next.mp h
      exact .prngSeeded _
    | prngStep => exact execPrngStep_ends h
    | prngSetIt => exact execPrngSetIt_ends h
    | illegalCommand code =>
      obtain rfl := execIllegalCommand_next.mp h
      exact .illegalCommand code
    | _ => cases hSpace

/-! ### What each unit keeps (R282) -/

theorem Ending.hdr_kept (h : Ending s i t) (hHdr : i ≠ .hdrParse) :
    t.hdr = s.hdr ∧ t.flags.hdrValid = s.flags.hdrValid := by
  cases h with
  | headerRejected | headerAccepted => exact absurd rfl hHdr
  | _ => exact ⟨rfl, rfl⟩

theorem Ending.chr_kept (h : Ending s i t) (hHdr : i ≠ .hdrParse) (hRestart : i ≠ .chrRestart)
    (hNext : i ≠ .chrNext) :
    t.chr = s.chr ∧ t.flags.chrReady = s.flags.chrReady ∧ t.flags.chrEnd = s.flags.chrEnd
      ∧ t.flags.tileValid = s.flags.tileValid := by
  cases h with
  | headerRejected | headerAccepted => exact absurd rfl hHdr
  | tilesUneven | tilesPast | tilesOpened => exact absurd rfl hRestart
  | tilesClosed | tilesEnded | tileDelivered => exact absurd rfl hNext
  | _ => exact ⟨rfl, rfl, rfl, rfl⟩

/-- `HDR_PARSE` writes no register of `CHR` and `DIS` but those of their regions (R106). -/
theorem Ending.hdrParse_regions (h : Ending s .hdrParse t) :
    t.chr = { s.chr with base := t.chr.base, len := t.chr.len }
      ∧ t.dis = { s.dis with base := t.dis.base, len := t.dis.len } := by
  cases h with
  | headerRejected | headerAccepted => exact ⟨rfl, rfl⟩
  | entriesClosed hi | entriesStopped hi | entriesEnded hi | entryTruncated hi | entryDelivered hi =>
    simp [Instr.space] at hi
  | prngUnseeded hi | prngMoved hi => simp at hi

theorem Ending.dis_kept (h : Ending s i t) (hCommand : i.space = .command) (hHdr : i ≠ .hdrParse)
    (hStart : i ≠ .disStart) (hNext : i ≠ .disNext) :
    t.dis = s.dis ∧ t.flags.disReady = s.flags.disReady ∧ t.flags.disEnd = s.flags.disEnd
      ∧ t.flags.disValid = s.flags.disValid := by
  cases h with
  | headerRejected | headerAccepted => exact absurd rfl hHdr
  | entriesPast | entriesOpened => exact absurd rfl hStart
  | entriesClosed hi | entriesStopped hi | entriesEnded hi | entryTruncated hi | entryDelivered hi =>
    simp [hCommand, hNext] at hi
  | _ => exact ⟨rfl, rfl, rfl, rfl⟩

theorem Ending.gg_kept (h : Ending s i t) (hDecode : i ≠ .ggDecode) (hEncode : i ≠ .ggEncode) : t.gg = s.gg := by
  cases h with
  | codeDecoded => exact absurd rfl hDecode
  | codeEncoded => exact absurd rfl hEncode
  | _ => rfl

theorem Ending.prng_kept (h : Ending s i t) (hInit : i ≠ .prngInit) (hStep : i ≠ .prngStep)
    (hSetIt : i ≠ .prngSetIt) : t.prng = s.prng := by
  cases h with
  | prngSeeded => exact absurd rfl hInit
  | prngMoved hi => simp [hStep, hSetIt] at hi
  | _ => rfl

theorem Ending.prngValid_kept (h : Ending s i t) (hInit : i ≠ .prngInit) :
    t.flags.prngValid = s.flags.prngValid := by
  cases h with
  | prngSeeded => exact absurd rfl hInit
  | _ => rfl

end

/-! ### The status each instruction may leave (R265, R266, R268) -/

/-- The commands that raise a status code, by its row (R265); no command raises `IoError` (R266). -/
def StatusCode.RaisedBy (i : Instr) : StatusCode → Prop
  | .ok => True
  | .invalidHeader => i = .hdrParse
  | .truncatedChrData => i = .chrRestart
  | .truncatedInstruction => i = .disNext ∨ i.space = .opcode
  | .invalidLength => i = .ggDecode
  | .invalidCharacter => i = .ggDecode
  | .ioError => False
  | .invalidAddress => i = .ggEncode
  | .illegalCommand => ∃ code, i = .illegalCommand code
  | .notInitialised => i = .chrNext ∨ i = .disNext ∨ i.space = .opcode ∨ i = .prngStep ∨ i = .prngSetIt
  | .regionOutOfBounds => i = .chrRestart ∨ i = .disStart

section
variable {i : Instr} {s t : State}

/-- An ending leaves a status code that the instruction raises, and writes `ERRINFO` only with an error. -/
theorem Ending.status_raised (h : Ending s i t) :
    ∃ c : StatusCode, t.status = c.number ∧ c.RaisedBy i ∧ (c = .ok → t.errinfo = s.errinfo) := by
  cases h with
  | headerRejected => exact ⟨.invalidHeader, rfl, rfl, nofun⟩
  | tilesUneven => exact ⟨.truncatedChrData, rfl, rfl, nofun⟩
  | tilesPast => exact ⟨.regionOutOfBounds, rfl, .inl rfl, nofun⟩
  | entriesPast => exact ⟨.regionOutOfBounds, rfl, .inr rfl, nofun⟩
  | entryTruncated hi => exact ⟨.truncatedInstruction, rfl, hi, nofun⟩
  | codeLength => exact ⟨.invalidLength, rfl, rfl, nofun⟩
  | codeCharacter => exact ⟨.invalidCharacter, rfl, rfl, nofun⟩
  | addressLow => exact ⟨.invalidAddress, rfl, rfl, nofun⟩
  | illegalCommand code => exact ⟨.illegalCommand, rfl, ⟨code, rfl⟩, nofun⟩
  | tilesClosed => exact ⟨.notInitialised, rfl, .inl rfl, nofun⟩
  | entriesClosed hi => exact ⟨.notInitialised, rfl, .inr (hi.imp_right .inl), nofun⟩
  | prngUnseeded hi => exact ⟨.notInitialised, rfl, .inr (.inr (.inr hi)), nofun⟩
  | _ => exact ⟨.ok, rfl, trivial, fun _ => rfl⟩

/-- The number of a code stands for no other code, so that its row holds of the instruction. -/
theorem Ending.raisedBy_of_status (h : Ending s i t) (c : StatusCode) (hc : t.status = c.number) : c.RaisedBy i := by
  obtain ⟨d, hd, hRaised, -⟩ := h.status_raised
  rwa [StatusCode.eq_of_number_eq (hc.symm.trans hd)]

theorem Ending.status_le (h : Ending s i t) : t.status.toNat ≤ 10 := by
  obtain ⟨c, hc, -⟩ := h.status_raised
  exact hc ▸ c.number_le

theorem Ending.errinfo_of_ok (h : Ending s i t) (hOk : t.status = 0) : t.errinfo = s.errinfo := by
  obtain ⟨c, hc, -, hErrinfo⟩ := h.status_raised
  exact hErrinfo (StatusCode.eq_of_number_eq (d := .ok) (hc.symm.trans hOk))

/-! ### A failed command runs again (R272, R141) -/

theorem execChrRestart_again (h : execChrRestart s = .next t) (ht : t.status ≠ 0) : execChrRestart t = .next t := by
  by_cases hEven : s.chr.len.toNat % 16 = 0
  · rcases Nat.lt_or_ge s.bufLen.toNat (s.chr.base.toNat + s.chr.len.toNat) with hPast | hWithin
    · rw [execChrRestart_of_past hEven hPast] at h
      obtain rfl := raise_next.mp h
      exact execChrRestart_of_past hEven hPast
    · rw [execChrRestart_of_within hEven hWithin] at h
      cases h
      exact absurd rfl ht
  · rw [execChrRestart_of_uneven hEven] at h
    obtain rfl := raise_next.mp h
    exact execChrRestart_of_uneven hEven

theorem execChrNext_again (h : execChrNext s = .next t) (ht : t.status ≠ 0) : execChrNext t = .next t := by
  rcases execChrNext_next h with ⟨hClosed, rfl⟩ | ⟨-, -, rfl⟩ | ⟨-, -, b, -, hTile⟩
  · exact execChrNext_of_closed hClosed
  · exact absurd rfl ht
  · obtain rfl := deliverTile_next.mp hTile
    exact absurd rfl ht

theorem execDisStart_again (h : execDisStart s = .next t) (ht : t.status ≠ 0) : execDisStart t = .next t := by
  rcases execDisStart_next h with ⟨hPast, rfl⟩ | ⟨-, rfl⟩
  · exact execDisStart_of_past hPast
  · exact absurd rfl ht

theorem execGgDecode_again (h : execGgDecode s = .next t) (ht : t.status ≠ 0) : execGgDecode t = .next t := by
  rcases execGgDecode_next h with ⟨h6, h8, rfl⟩ | ⟨hLength, ⟨n, ch, hBad, rfl⟩ | ⟨ns, -, rfl⟩⟩
  · exact if_pos ⟨h6, h8⟩
  · have hLength : ¬ (s.gg.clen ≠ 6 ∧ s.gg.clen ≠ 8) := by tauto
    simp only [execGgDecode, if_neg hLength, hBad]
    rfl
  · exact absurd rfl ht

theorem execGgEncode_again (h : execGgEncode s = .next t) (ht : t.status ≠ 0) : execGgEncode t = .next t := by
  rcases execGgEncode_next h with ⟨hLow, rfl⟩ | ⟨-, rfl⟩
  · exact if_pos hLow
  · exact absurd rfl ht

theorem execPrngStep_again (h : execPrngStep s = .next t) (ht : t.status ≠ 0) : execPrngStep t = .next t := by
  rcases execPrngStep_next h with ⟨hInvalid, rfl⟩ | ⟨-, rfl⟩
  · exact exec_prngStep_of_invalid hInvalid
  · exact absurd rfl ht

theorem execPrngSetIt_again (h : execPrngSetIt s = .next t) (ht : t.status ≠ 0) : execPrngSetIt t = .next t := by
  rcases execPrngSetIt_next h with ⟨hInvalid, rfl⟩ | ⟨-, rfl⟩
  · exact exec_prngSetIt_of_invalid hInvalid
  · exact absurd rfl ht

/-- A failed command of any unit but the decoder finds the registers its check looks at unchanged. -/
theorem exec_command_again (hCommand : i.space = .command) (hNext : i ≠ .disNext) (h : exec i s = .next t)
    (ht : t.status ≠ 0) : exec i t = .next t := by
  cases i with
  | nop =>
    obtain rfl := execNop_next.mp h
    exact absurd rfl ht
  | hdrParse => exact hdrParseTwiceLeavesTheSameState s t h
  | chrRestart => exact execChrRestart_again h ht
  | chrNext => exact execChrNext_again h ht
  | disStart => exact execDisStart_again h ht
  | disNext => exact absurd rfl hNext
  | ggDecode => exact execGgDecode_again h ht
  | ggEncode => exact execGgEncode_again h ht
  | prngInit =>
    obtain rfl := execPrngInit_next.mp h
    exact absurd rfl ht
  | prngStep => exact execPrngStep_again h ht
  | prngSetIt => exact execPrngSetIt_again h ht
  | illegalCommand code =>
    obtain rfl := execIllegalCommand_next.mp h
    exact exec_illegalCommand code _
  | _ => cases hCommand

/-- How a decode that failed left its sequence: not open, or stopped by the entry that the region cuts off. -/
inductive DecodeFailed (t : State) : Prop
  | closed (hReady : t.flags.disReady = false) (hAgain : t = { t with status := 9, errinfo := 0x21 })
  | truncated (hReady : t.flags.disReady = true) (hStopped : t.flags.disEnd = true) (hStatus : t.status = 3)

theorem disFinish_decodeFailed {d : Decoded} (hReady : s.flags.disReady = true) (h : disFinish d s = .next t)
    (ht : t.status ≠ 0) : DecodeFailed t := by
  cases d with
  | stop =>
    obtain rfl := disFinish_stop_next.mp h
    exact absurd rfl ht
  | truncated c =>
    obtain rfl := disFinish_truncated_next.mp h
    exact .truncated hReady rfl rfl
  | entry e =>
    obtain rfl := disFinish_entry_next.mp h
    exact absurd rfl ht

theorem execDisNext_decodeFailed (h : execDisNext s = .next t) (ht : t.status ≠ 0) : DecodeFailed t := by
  rcases execDisNext_next h with ⟨hClosed, rfl⟩ | ⟨-, -, rfl⟩ | ⟨hReady, -, d, -, hFinish⟩
  · exact .closed hClosed rfl
  · exact absurd rfl ht
  · exact disFinish_decodeFailed hReady hFinish ht

theorem decodeAs_decodeFailed {op : Byte} {m : Mnemonic} {mode : Mode} {bytes : List Byte}
    (h : decodeAs op m mode bytes s = .next t) (ht : t.status ≠ 0) : DecodeFailed t := by
  rcases decodeAs_next h with ⟨hClosed, rfl⟩ | ⟨-, -, rfl⟩ | ⟨hReady, -, d, hFinish, -⟩
  · exact .closed hClosed rfl
  · exact absurd rfl ht
  · exact disFinish_decodeFailed hReady hFinish ht

/-- The checks before a decode step decide what a decode that failed does when it runs again (R141). -/
theorem DecodeFailed.again (h : DecodeFailed t) (k : Result) :
    (t.status ≠ 3 → whenDecoding t k = .next t)
      ∧ (t.status = 3 → whenDecoding t k = .next { t with status := 0 }) := by
  cases h with
  | closed hReady hAgain =>
    have hStatus : t.status = 9 := congrArg State.status hAgain
    exact ⟨fun _ => (whenDecoding_notReady hReady).trans (raise_next.mpr hAgain),
      fun hTruncated => absurd (hStatus.symm.trans hTruncated) (by decide)⟩
  | truncated hReady hStopped hStatus =>
    exact ⟨fun hOther => absurd hStatus hOther, fun _ => whenDecoding_stopped hReady hStopped⟩

end

/-! ### The statements -/

/-- Settles O53: of the ways an instruction ends, those that write a unit's registers or flags are that unit's own and
`HDR_PARSE`'s. -/
theorem commandsKeepToTheirUnit : Obligations.CommandsKeepToTheirUnit := by
  unfold Obligations.CommandsKeepToTheirUnit
  intro i s t h
  have hEnds := exec_ends h
  refine ⟨hEnds.hdr_kept, hEnds.chr_kept, ?_, hEnds.dis_kept, hEnds.gg_kept, hEnds.prng_kept, hEnds.prngValid_kept⟩
  rintro rfl
  exact hEnds.hdrParse_regions

/-- Settles O54: the status left is a code that the instruction raises, and its number stands for no other code. -/
theorem statusIsWrittenByTheRuleOfEachCommand : Obligations.StatusIsWrittenByTheRuleOfEachCommand := by
  unfold Obligations.StatusIsWrittenByTheRuleOfEachCommand
  intro i s t h
  have hEnds := exec_ends h
  have hRow := hEnds.raisedBy_of_status
  exact ⟨hEnds.status_le, hRow .ioError, hEnds.errinfo_of_ok, hRow .invalidHeader, hRow .truncatedChrData,
    hRow .truncatedInstruction, fun hCode => hCode.elim (hRow .invalidLength) (hRow .invalidCharacter),
    hRow .invalidAddress, hRow .illegalCommand, hRow .notInitialised, hRow .regionOutOfBounds⟩

/-- Settles O56: a failed decode is answered again by the checks before the decode step; every other failure, whose
status is never that of a truncated decode, by the check that failed. -/
theorem failedCommandFailsAgain : Obligations.FailedCommandFailsAgain := by
  unfold Obligations.FailedCommandFailsAgain
  intro i s t h ht
  by_cases hNext : i = .disNext
  · subst hNext
    exact (execDisNext_decodeFailed h ht).again _
  · cases hSpace : i.space with
    | opcode =>
      obtain ⟨op, m, mode, bytes, hRun⟩ := exec_opcode_next hSpace h
      rw [hRun t]
      exact (decodeAs_decodeFailed ((hRun s).symm.trans h) ht).again _
    | command =>
      refine ⟨fun _ => exec_command_again hSpace hNext h ht, fun hTruncated => ?_⟩
      have hDecodes := (exec_ends h).raisedBy_of_status .truncatedInstruction hTruncated
      simp [StatusCode.RaisedBy, hNext, hSpace] at hDecodes

end Sys2Proof.Machine
end

section
/-! O5, O11 to O13, O33, O58 to O60. What a step can stop at, and what reset and waiting do (60_exceptions.md R273,
R281; 70_reset_and_hazards.md R290 to R293). -/
namespace Sys2Proof.Machine

section
variable {s t : State} {f : Fault} {r : Refusal}

/-! ### Reads of an unwritten byte (R273, R292) -/

/-- A read within the image stops at the lowest byte that nothing has written. -/
theorem memRead_of_unwritten {a n k : Nat} (hBound : a + n ≤ s.bufLen.toNat) (hk : k < n) (hWritten : s.written a k)
    (hNone : s.ibuf.read (a + k) = none) : memRead a n s = .error (.unwrittenByte (a + k)) :=
  memRead_error.mpr (.inr ⟨hBound, k, hk, rfl, hNone, hWritten⟩)

/-- A read within the image stops only at a byte that nothing has written. -/
theorem memRead_error_within {a n : Nat} (hBound : a + n ≤ s.bufLen.toNat) (h : memRead a n s = .error f) :
    ∃ b, f = .unwrittenByte b ∧ s.ibuf.read b = none := by
  rcases memRead_error.mp h with ⟨hPast, -⟩ | ⟨-, k, -, rfl, hNone, -⟩
  · omega
  · exact ⟨a + k, rfl, hNone⟩

theorem execHdrParse_of_read_error (hLong : 16 ≤ s.bufLen.toNat) (hRead : memRead 0 8 s = .error f) :
    execHdrParse s = .fault f :=
  (if_neg (Nat.not_lt.mpr hLong)).trans (withBytes_of_error hRead)

theorem execChrNext_of_read_error (hReady : s.flags.chrReady = true) (hCur : s.chr.cur ≠ s.chr.count)
    (hRead : memRead (s.chr.base.toNat + 16 * s.chr.cur.toNat) 16 s = .error f) : execChrNext s = .fault f := by
  rw [execChrNext, if_neg (by simp [hReady]), if_neg hCur, withBytes_of_error hRead]

theorem State.Decoding.execDisNext_of_error (h : s.Decoding)
    (hDecode : disDecode s.dis.base s.dis.len s.dis.cur s = .error f) : execDisNext s = .fault f := by
  rw [execDisNext, whenDecoding_open h.ready h.running, hDecode]

theorem disDecode_of_opcode_error {base len cur : Word} (hCur : cur.toNat < len.toNat)
    (hRead : memRead (base.toNat + cur.toNat) 1 s = .error f) : disDecode base len cur s = .error f := by
  simp [disDecode, Nat.not_le.mpr hCur, hRead]

theorem disDecode_of_operand_error {base len cur : Word} {op : Byte}
    (hFit : cur.toNat + 1 + (optable op).2.nopnd ≤ len.toNat)
    (hOp : memRead (base.toNat + cur.toNat) 1 s = .ok [op])
    (hRead : memRead (base.toNat + cur.toNat + 1) (optable op).2.nopnd s = .error f) :
    disDecode base len cur s = .error f := by
  have hCur : ¬ len.toNat ≤ cur.toNat := by omega
  simp [disDecode, hCur, hOp, Nat.not_lt.mpr hFit, hRead]

/-! ### Where a command with the invariant stops -/

theorem execChrNext_fault_unwritten (h : s.ChrOk) (hFault : execChrNext s = .fault f) :
    ∃ b, f = .unwrittenByte b ∧ s.ibuf.read b = none := by
  obtain ⟨hReady, hCur, hRead⟩ := execChrNext_fault hFault
  have hNe : s.chr.cur.toNat ≠ s.chr.count.toNat := fun hEq => hCur (BitVec.eq_of_toNat_eq hEq)
  have hRegion := h.region hReady
  have hCount := h.count hReady
  have hLe := h.cursor hReady
  exact memRead_error_within (by omega) hRead

theorem execDisNext_fault_unwritten (h : s.DisOk) (hFault : execDisNext s = .fault f) :
    ∃ b, f = .unwrittenByte b ∧ s.ibuf.read b = none := by
  obtain ⟨hReady, hDecode⟩ := execDisNext_fault hFault
  have hRegion := h.region hReady
  obtain ⟨hCur, hOpcode | ⟨n, hFit, hOperands⟩⟩ := disDecode_error hDecode
  · exact memRead_error_within (by omega) hOpcode
  · exact memRead_error_within (by omega) hOperands

/-- Only the three commands that read the buffer stop, and within the image. -/
theorem exec_command_fault {i : Instr} (hCommand : i.space = .command) (h : s.Inv) (hFault : exec i s = .fault f) :
    ∃ b, f = .unwrittenByte b ∧ s.ibuf.read b = none := by
  cases i with
  | hdrParse =>
    obtain ⟨hLong, hRead⟩ := execHdrParse_fault hFault
    exact memRead_error_within (by omega) hRead
  | chrNext => exact execChrNext_fault_unwritten h.chr hFault
  | disNext => exact execDisNext_fault_unwritten h.dis hFault
  | nop => exact absurd hFault finish_ne_fault
  | chrRestart => exact absurd hFault execChrRestart_ne_fault
  | disStart => exact absurd hFault execDisStart_ne_fault
  | ggDecode => exact absurd hFault execGgDecode_ne_fault
  | ggEncode => exact absurd hFault execGgEncode_ne_fault
  | prngInit => exact absurd hFault finish_ne_fault
  | prngStep => exact absurd hFault execPrngStep_ne_fault
  | prngSetIt => exact absurd hFault execPrngSetIt_ne_fault
  | illegalCommand code => exact absurd hFault raise_ne_fault
  | _ => cases hCommand

/-- No command is refused; it is the ill-formed 6502 terms that are, and `CMD` holds none. -/
theorem exec_command_ne_refused {i : Instr} (hCommand : i.space = .command) : exec i s ≠ .refused r := by
  cases i with
  | nop => exact finish_ne_refused
  | hdrParse => exact execHdrParse_ne_refused
  | chrRestart => exact execChrRestart_ne_refused
  | chrNext => exact execChrNext_ne_refused
  | disStart => exact execDisStart_ne_refused
  | disNext => exact execDisNext_ne_refused
  | ggDecode => exact execGgDecode_ne_refused
  | ggEncode => exact execGgEncode_ne_refused
  | prngInit => exact finish_ne_refused
  | prngStep => exact execPrngStep_ne_refused
  | prngSetIt => exact execPrngSetIt_ne_refused
  | illegalCommand code => exact raise_ne_refused
  | _ => cases hCommand

/-! ### Where an access stops -/

theorem perform_fault {e : Event} (h : s.Inv) (hFault : perform e s = .fault f) :
    (∃ q : Reg, f = .unreadableRegister q ∧ q.readable s.flags = false)
      ∨ ∃ a, f = .unwrittenByte a ∧ s.ibuf.read a = none := by
  cases e with
  | writeBuf a v | reset => cases hFault
  | readBuf a => exact .inr ⟨a.toNat, hostReadBuf_error (recordRead_fault.mp hFault)⟩
  | read n =>
    obtain ⟨q, -, hGated, rfl⟩ := hostRead_error (recordRead_fault.mp hFault)
    exact .inl ⟨q, rfl, hGated⟩
  | write n v =>
    have hFault : hostWrite n v s = .fault f := hFault
    rcases hostWrite_cases n v s with ⟨-, hw⟩ | ⟨-, hw⟩ | ⟨q, -, -, hw⟩ <;> rw [hw] at hFault
    · cases hFault
    · exact .inr (exec_command_fault (s := { s with cmd := v.setWidth 8 }) (decodeCommand_space _)
        (h.recorded _ s.pending s.reads) hFault)
    · cases hFault

theorem perform_ne_refused {e : Event} : perform e s ≠ .refused r := by
  cases e with
  | writeBuf a v | reset => nofun
  | readBuf a | read n => exact recordRead_ne_refused
  | write n v =>
    show hostWrite n v s ≠ .refused r
    rcases hostWrite_cases n v s with ⟨-, hw⟩ | ⟨-, hw⟩ | ⟨q, -, -, hw⟩ <;> rw [hw]
    · nofun
    · exact exec_command_ne_refused (decodeCommand_space _)
    · nofun

/-! ### After reset -/

theorem word_reset : Flags.reset.word = 0 := by decide

theorem execDisNext_of_closed (hClosed : s.flags.disReady = false) :
    execDisNext s = .next { s with status := 9, errinfo := 0x21 } := whenDecoding_notReady hClosed

/-! ### `PRNG_VALID` (R25, R291) -/

/-- The one code of `PRNG_INIT` (R70). -/
theorem eq_of_decodeCommand_prngInit {code : Byte} (h : decodeCommand code = .prngInit) : code = 0x40 := by
  have hEncode := (decodeCommand_wellFormed_encode code).2
  rw [h] at hEncode
  exact (List.singleton_inj.mp hEncode).symm

/-- Closing a sequence or dropping the header leaves `PRNG_VALID` (R29 to R32). -/
theorem writeReg_prngValid (v : Word) (s : State) (q : Reg) :
    (writeReg v s q).flags.prngValid = s.flags.prngValid := by
  cases q <;> rfl

theorem hostWriteBuf_prngValid (a : Word) (v : Byte) (s : State) :
    (hostWriteBuf a v s).flags.prngValid = s.flags.prngValid := by
  rcases Nat.lt_or_ge a.toNat s.cfg.bufSize with ha | ha
  · rw [hostWriteBuf_within ha]
    rfl
  · rw [hostWriteBuf_past ha]

/-- An access but reset keeps `PRNG_VALID`, or it is the write of `CMD` that runs `PRNG_INIT`, which sets it. -/
theorem perform_prngValid {e : Event} (hReset : e ≠ .reset) (h : perform e s = .next t) :
    t.flags.prngValid = s.flags.prngValid
      ∨ t.flags.prngValid = true ∧ ∃ v, e = .write 0x00 v ∧ v.setWidth 8 = (0x40 : Byte) := by
  cases e with
  | reset => exact absurd rfl hReset
  | writeBuf a v =>
    cases h
    exact .inl (hostWriteBuf_prngValid a v s)
  | readBuf a | read n =>
    obtain ⟨v, -, rfl⟩ := recordRead_next.mp h
    exact .inl rfl
  | write n v =>
    have h : hostWrite n v s = .next t := h
    rcases hostWrite_cases n v s with ⟨-, hw⟩ | ⟨hn, hw⟩ | ⟨q, -, -, hw⟩ <;> rw [hw] at h
    · cases h
      exact .inl rfl
    · by_cases hInit : decodeCommand (v.setWidth 8) = .prngInit
      · rw [commandCycle, hInit, exec_prngInit] at h
        cases h
        exact .inr ⟨rfl, v, by rw [← regOf_eq_some_iff.mp hn]; rfl, eq_of_decodeCommand_prngInit hInit⟩
      · exact .inl ((exec_ends h).prngValid_kept hInit)
    · cases h
      exact .inl (writeReg_prngValid v s q)

end

/-! ### The statements -/

/-- Settles O5: a step with no access pending has nothing to perform. -/
theorem idleBlockHoldsItsState : Obligations.IdleBlockHoldsItsState := by
  unfold Obligations.IdleBlockHoldsItsState
  intro s hProduced hPending
  exact step_idle hProduced hPending

/-- Settles O11: the step is the reset event, which takes every register from the reset state; a register whose valid
bit is 0 there is gated. -/
theorem resetSetsTheStatedValues : Obligations.ResetSetsTheStatedValues := by
  unfold Obligations.ResetSetsTheStatedValues
  intro s rest hProduced hPending
  exact ⟨resetBlock { s with pending := rest }, step_perform hProduced hPending, rfl, rfl, rfl, rfl, rfl, rfl,
    word_reset, rfl, rfl, rfl, rfl, rfl, rfl, rfl, fun j => Bank8.get_ofFn _ j, rfl, rfl, rfl, rfl, rfl,
    fun q hGated => hostRead_gated rfl hGated, fun a => rfl, rfl, rfl, rfl⟩

/-- Settles O12: after reset no sequence is open and no seed is set, which is what each of the four commands checks
first. -/
theorem firstNextAfterResetFails : Obligations.FirstNextAfterResetFails := by
  unfold Obligations.FirstNextAfterResetFails
  intro s t hReset
  obtain rfl : resetBlock s = t := by simpa [perform] using hReset
  exact ⟨word_reset, execChrNext_of_closed rfl, execDisNext_of_closed rfl, exec_prngStep_of_invalid rfl,
    exec_prngSetIt_of_invalid rfl⟩

/-- Settles O13: an access but reset keeps `PRNG_VALID` or is the write that runs `PRNG_INIT`; reset clears it. -/
theorem onlyResetClearsPrngValid : Obligations.OnlyResetClearsPrngValid := by
  unfold Obligations.OnlyResetClearsPrngValid
  intro s t e h
  refine ⟨fun hReset hValid => ?_, fun hInvalid hValid => ?_⟩
  · rcases perform_prngValid hReset h with hKept | ⟨hSet, -⟩
    · rw [hKept, hValid]
    · exact hSet
  · have hReset : e ≠ .reset := by
      rintro rfl
      cases h
      cases hValid
    rcases perform_prngValid hReset h with hKept | ⟨-, hInit⟩
    · cases hValid.symm.trans (hKept.trans hInvalid)
    · exact hInit

/-- Settles O33: each command stops where its read does, and the read at the lowest unwritten byte. -/
theorem commandsStopAtAnUnwrittenByte : Obligations.CommandsStopAtAnUnwrittenByte := by
  unfold Obligations.CommandsStopAtAnUnwrittenByte
  intro s
  refine ⟨fun k hLong hk hWritten hNone => ?_, fun a k hReady hCur ha hBound hk hWritten hNone => ?_,
    fun a hReady hRunning hCur hWithin ha => ⟨fun hNone => ?_, fun op k hOp hFit hk hWritten hNone => ?_⟩⟩
  · rw [← Nat.zero_add k] at hNone
    have hRead := memRead_of_unwritten (n := 8) (by omega) hk hWritten hNone
    rw [Nat.zero_add] at hRead
    exact execHdrParse_of_read_error hLong hRead
  · subst ha
    exact execChrNext_of_read_error hReady hCur (memRead_of_unwritten hBound hk hWritten hNone)
  · subst ha
    have hRead := memRead_of_unwritten (a := s.dis.base.toNat + s.dis.cur.toNat) (n := 1) (k := 0) (by omega)
      Nat.zero_lt_one nofun hNone
    exact State.Decoding.execDisNext_of_error ⟨hReady, hRunning⟩ (disDecode_of_opcode_error hCur hRead)
  · subst ha
    exact State.Decoding.execDisNext_of_error ⟨hReady, hRunning⟩
      (disDecode_of_operand_error hFit (memRead_one (by omega) hOp)
        (memRead_of_unwritten (by omega) hk hWritten hNone))

/-- Settles O58: after reset nothing is open, no byte written and no value set, and the parameters are the spec's. -/
theorem resetHasTheInvariant : Obligations.ResetHasTheInvariant := by
  unfold Obligations.ResetHasTheInvariant
  exact .of_parts (by decide) ⟨reset_wf, nofun, Nat.zero_le _⟩ (.of_dropped rfl) (.of_closed rfl rfl rfl)
    (.of_closed rfl rfl rfl) nofun (.of_ok rfl) ⟨Nat.zero_le _, Nat.zero_le _⟩

/-- Settles O59: a step stops where its access does, and the regions of an open sequence lie within the image. -/
theorem stepStopsOnlyWhereNoValueIs : Obligations.StepStopsOnlyWhereNoValueIs := by
  unfold Obligations.StepStopsOnlyWhereNoValueIs
  intro s f h hStep
  obtain ⟨-, e, rest, -, hPerform⟩ := step_fault hStep
  exact perform_fault (s := { s with pending := rest }) (h.recorded s.cmd rest s.reads) hPerform

/-- Settles O60: the invariant leaves no value that is never produced, and no access is refused. -/
theorem stepIsNeverRefused : Obligations.StepIsNeverRefused := by
  unfold Obligations.StepIsNeverRefused
  intro s r h hStep
  rcases step_refused hStep with hUnproduced | ⟨e, rest, -, hPerform⟩
  · cases h.produced.symm.trans hUnproduced
  · exact perform_ne_refused hPerform

end Sys2Proof.Machine
end

section
/-! O32. The loops of the engine procedures (70_reset_and_hazards.md R303): each command moves the cursor on or ends the
loop, so that the commands left to run are bounded by what is left of the region. -/
namespace Sys2Proof.Machine

section
variable {s t : State}

theorem bind_eq_error {ε α β : Type} {x : Except ε α} {f : α → Except ε β} {e : ε} :
    x >>= f = .error e ↔ x = .error e ∨ ∃ a, x = .ok a ∧ f a = .error e := by
  cases x <;> simp [bind, Except.bind]

theorem access_ne_outOfFuel {r : Result} : access r ≠ .error .outOfFuel := by
  cases r <;> simp [access]

theorem runCommand_ne_outOfFuel {code : Byte} : runCommand code s ≠ .error .outOfFuel := access_ne_outOfFuel

/-! ### The tiles (R122) -/

/-- A loop that uses up its bound has run `CHR_NEXT`, has not met the end, and uses up what is left of the bound. -/
theorem collectTiles_outOfFuel {fuel : Nat} {tiles : List Tile}
    (h : collectTiles (fuel + 1) tiles s = .error .outOfFuel) :
    ∃ t, execChrNext { s with cmd := 0x11 } = .next t ∧ t.flags.chrEnd = false
      ∧ ∃ tiles', collectTiles fuel tiles' t = .error .outOfFuel := by
  obtain hRun | ⟨t, hRun, hRest⟩ := bind_eq_error.mp h
  · exact absurd hRun runCommand_ne_outOfFuel
  · refine ⟨t, runCommand_next hRun, ?_⟩
    split at hRest
    · cases hRest
    · next hEnd =>
      refine ⟨by simpa using hEnd, ?_⟩
      split at hRest
      · next hValid =>
        rw [readTile_ok hValid] at hRest
        exact ⟨_, hRest⟩
      · exact ⟨_, hRest⟩

/-- A `CHR_NEXT` of an open sequence ends it, or leaves it open with fewer tiles still to come (R119). -/
theorem execChrNext_progress (hReady : s.flags.chrReady = true) (hCur : s.chr.cur.toNat ≤ s.chr.count.toNat)
    (h : execChrNext s = .next t) :
    t.flags.chrEnd = true
      ∨ t.flags.chrReady = true ∧ t.chr.cur.toNat ≤ t.chr.count.toNat
        ∧ t.chr.count.toNat - t.chr.cur.toNat < s.chr.count.toNat - s.chr.cur.toNat := by
  rcases execChrNext_next h with ⟨hClosed, -⟩ | ⟨-, -, rfl⟩ | ⟨-, hNe, b, -, hTile⟩
  · cases hReady.symm.trans hClosed
  · exact .inl rfl
  · obtain rfl := deliverTile_next.mp hTile
    have hBelow : s.chr.cur.toNat ≠ s.chr.count.toNat := fun hEq => hNe (BitVec.eq_of_toNat_eq hEq)
    have hNext : (s.chr.cur + 1).toNat = s.chr.cur.toNat + 1 := by bv_omega
    refine .inr ⟨hReady, ?_⟩
    show (s.chr.cur + 1).toNat ≤ s.chr.count.toNat
      ∧ s.chr.count.toNat - (s.chr.cur + 1).toNat < s.chr.count.toNat - s.chr.cur.toNat
    omega

/-- With more commands than there are tiles left, the loop ends within its bound. -/
theorem collectTiles_ne_outOfFuel {fuel : Nat} {tiles : List Tile} (hReady : s.flags.chrReady = true)
    (hCur : s.chr.cur.toNat ≤ s.chr.count.toNat) (hFuel : s.chr.count.toNat - s.chr.cur.toNat < fuel) :
    collectTiles fuel tiles s ≠ .error .outOfFuel := by
  induction fuel generalizing s tiles with
  | zero => omega
  | succ fuel ih =>
    intro hOut
    obtain ⟨t, hNext, hRunning, tiles', hRest⟩ := collectTiles_outOfFuel hOut
    rcases execChrNext_progress (s := { s with cmd := 0x11 }) hReady hCur hNext with
      hEnd | ⟨hStillReady, hStillCur, hFewer⟩
    · cases hRunning.symm.trans hEnd
    · exact ih hStillReady hStillCur (hFewer.trans_le (Nat.le_of_lt_succ hFuel)) hRest

theorem chrExecute_ne_outOfFuel (s : State) : chrExecute s ≠ .error .outOfFuel := by
  intro hOut
  obtain hRun | ⟨t, hRun, hRest⟩ := bind_eq_error.mp hOut
  · exact runCommand_ne_outOfFuel hRun
  · rcases execChrRestart_next (runCommand_next hRun) with ⟨c, info, rfl | rfl, rfl⟩ | ⟨-, -, rfl⟩
    · cases hRest
    · cases hRest
    · obtain hCollect | ⟨r, -, hReport⟩ := bind_eq_error.mp hRest
      · exact collectTiles_ne_outOfFuel rfl (Nat.zero_le _) (Nat.lt_succ_self _) hCollect
      · cases hReport

/-! ### The entries (R145) -/

/-- An entry takes at least one byte of what is left of the region. -/
theorem State.delivered_left_lt {e : Entry} (hFit : s.dis.cur.toNat + e.encodedLength ≤ s.dis.len.toNat) :
    (s.delivered e).dis.len.toNat - (s.delivered e).dis.cur.toNat < s.dis.len.toNat - s.dis.cur.toNat := by
  have hSome := e.encodedLength_bounds.1
  rw [State.delivered_cur_toNat hFit]
  show s.dis.len.toNat - _ < _
  omega

/-- With more commands than there are bytes left of the region, the loop ends within its bound. -/
theorem State.Decoding.collectEntries_ne_outOfFuel (h : s.Decoding) {fuel : Nat} {es : List Entry}
    (hFuel : s.dis.len.toNat - s.dis.cur.toNat < fuel) : collectEntries fuel es s ≠ .error .outOfFuel := by
  induction fuel generalizing s es with
  | zero => omega
  | succ fuel ih =>
    intro hOut
    obtain hRun | ⟨t, hRun, -⟩ := bind_eq_error.mp hOut
    · exact runCommand_ne_outOfFuel hRun
    · have hRunning : State.Decoding { s with cmd := 0x21 } := ⟨h.ready, h.running⟩
      cases hRunning.execDisNext_ending (runCommand_next hRun) with
      | stopped => cases (collectEntries_end hRun rfl).symm.trans hOut
      | truncated => cases (collectEntries_end hRun rfl).symm.trans hOut
      | @delivered op ob hLength hFit =>
        rw [collectEntries_delivered hRunning hRun (hLength.trans_le (Mode.nopnd_le _))] at hOut
        exact ih (hRunning.delivered _) ((State.delivered_left_lt hFit).trans_le (Nat.le_of_lt_succ hFuel)) hOut

theorem disExecute_ne_outOfFuel (s : State) (start : Word) : disExecute start s ≠ .error .outOfFuel := by
  intro hOut
  obtain hPut | ⟨u, hPut, hOut⟩ := bind_eq_error.mp hOut
  · exact access_ne_outOfFuel hPut
  obtain hRun | ⟨t, hRun, hRest⟩ := bind_eq_error.mp hOut
  · exact runCommand_ne_outOfFuel hRun
  obtain rfl : writeReg start s .arg0 = u := Except.ok.inj ((putReg_ok (by decide) start s).symm.trans hPut)
  rcases execDisStart_next (runCommand_next hRun) with ⟨-, rfl⟩ | ⟨-, rfl⟩
  · cases hRest
  · obtain hCollect | ⟨r, -, hReport⟩ := bind_eq_error.mp hRest
    · exact State.Decoding.collectEntries_ne_outOfFuel ⟨rfl, rfl⟩ (Nat.lt_succ_self _) hCollect
    · cases hReport

end

/-! ### The statement -/

/-- Settles O32: the fuel of each loop is one more than what is left where the loop begins. -/
theorem engineProceduresEndWithinTheirBounds : Obligations.EngineProceduresEndWithinTheirBounds := by
  unfold Obligations.EngineProceduresEndWithinTheirBounds
  exact ⟨chrExecute_ne_outOfFuel, disExecute_ne_outOfFuel⟩

end Sys2Proof.Machine
end
